-- ==== Sys2Proof/Word.lean ====
section
/-! DEFINITION. The bit-vector types of SDB: a byte, a 32-bit register, and the command word of the default AW. -/

namespace Sys2Proof

/-- A byte, 0 to 255 (00_scope.md R6). -/
abbrev Byte := BitVec 8

/-- A 32-bit register (`RES`, `CRCACC`, `ERRA`, `ERRB`, R21) and the 32-bit operand `B` (R61). The position and length registers
are `AW` bits wide, a parameter: they are natural numbers, below `2^AW` by the invariant (R22, entry 6). -/
abbrev Word := BitVec 32

/-- A command word of the default `AW = 32`: `op[71:64]`, `A[63:32]`, `B[31:0]` (30_encoding.md R61). -/
abbrev CommandWord := BitVec 72

end Sys2Proof
end

