-- ==== Sys2Proof/Config.lean ====
section
/-! DEFINITION. The parameters of the step relation (00_scope.md R5, R23) and the free values the spec leaves open (U2). -/

namespace Sys2Proof.Config

/-- `BITNUM`: numbering of BFX operand bits (41_bitfield.md R81, conflict C1). -/
inductive BitNum where
  | lsb0
  | msb0
  deriving DecidableEq, Repr

/-- What a successful `LZ_PREAMBLE` returns: where the first flag byte is and, optionally, the exact output length (43_lzss.md R111). -/
structure Preamble where
  start : Nat
  limit : Option Nat
  deriving DecidableEq, Repr

/-- The named parameters of 00_scope.md R5 that the block uses, and the container magic of the host sequences. -/
structure Params where
  /-- `AW`, width in bits of every position and length register and of the `A` field of a command word (R5, R61). -/
  aw : Nat
  /-- `ICAP`, capacity of `IBUF` in bytes. -/
  icap : Nat
  /-- `OCAP`, capacity of `OBUF` in bytes. -/
  ocap : Nat
  crcPoly : Word
  crcInit : Word
  crcRefIn : Bool
  crcRefOut : Bool
  crcXorOut : Word
  bitNum : BitNum
  textValid : List Byte → Bool
  flagMsbFirst : Bool
  /-- `REF_BIT`: the flag bit value that selects a back-reference token. -/
  refBit : Bool
  tokBigEndian : Bool
  lenBits : Nat
  lenBias : Nat
  distBias : Nat
  /-- `LZ_PREAMBLE`: `none` is `fail`. -/
  lzPreamble : List Byte → Option Preamble
  /-- `MAGIC`, the container tag (host sequences only). -/
  magic : List Byte

/-- The bounds R5, R21 and R22 put on the parameters: `ICAP, OCAP < 2^AW`, a 16-bit token, an exact length that `LIM` can hold;
and the `A` field is wide enough for the `byte` of R62 (entry 6). -/
structure Params.Ok (p : Params) : Prop where
  aw_ge : 8 ≤ p.aw
  icap_lt : p.icap < 2 ^ p.aw
  ocap_lt : p.ocap < 2 ^ p.aw
  lenBits_le : p.lenBits ≤ 16
  limit_lt : ∀ s pre l, p.lzPreamble s = some pre → pre.limit = some l → l < 2 ^ p.aw

/-! Free values (entries 3, 19): what the LZD transient registers hold outside a run, `FLG` before the first flag byte of a
run, and `CLEN` and `CDIST` before its first copy, is unspecified (10_state.md R14 to R16, R21; 43_lzss.md R112; U2 "any
value"). Each is applied to the counter `draws` of the state; `aw` is the width of the register. -/

opaque freeSrc (aw draws : Nat) : BitVec aw
opaque freeFlg (draws : Nat) : Byte
opaque freeFcnt (draws : Nat) : Fin 9
opaque freeLim (aw draws : Nat) : Option (BitVec aw)
opaque freeClen (draws : Nat) : Nat
opaque freeCdist (aw draws : Nat) : BitVec aw

end Sys2Proof.Config
end

