-- ==== Sys2Proof/Machine/Text.lean ====
section
/-! DEFINITION. The default of the parameter `TEXT_VALID`: well-formed UTF-8 (42_bytestream.md R95). -/

namespace Sys2Proof.Machine

/-- `b` lies in `lo..hi`, both ends included. -/
def inRange (b : Byte) (lo hi : Nat) : Bool :=
  decide (lo ≤ b.toNat) && decide (b.toNat ≤ hi)

/-- A continuation byte, 80..BF (R95). -/
def isContinuation (b : Byte) : Bool := inRange b 0x80 0xBF

/-- The two-byte row of R95: C2..DF, 80..BF. -/
def utf8Two (a b : Byte) : Bool := inRange a 0xC2 0xDF && isContinuation b

/-- The three-byte rows of R95 (E0, E1..EC, ED, EE..EF). -/
def utf8Three (a b c : Byte) : Bool :=
  ((inRange a 0xE0 0xE0 && inRange b 0xA0 0xBF) ||
   (inRange a 0xE1 0xEC && isContinuation b) ||
   (inRange a 0xED 0xED && inRange b 0x80 0x9F) ||
   (inRange a 0xEE 0xEF && isContinuation b)) && isContinuation c

/-- The four-byte rows of R95 (F0, F1..F3, F4). -/
def utf8Four (a b c d : Byte) : Bool :=
  ((inRange a 0xF0 0xF0 && inRange b 0x90 0xBF) ||
   (inRange a 0xF1 0xF3 && isContinuation b) ||
   (inRange a 0xF4 0xF4 && inRange b 0x80 0x8F)) && isContinuation c && isContinuation d

/-- Well-formed UTF-8: a concatenation of sequences of the table of R95. The first byte settles how long its sequence is,
so one reading from the front decides; a sequence cut short by the end of the list is invalid. -/
def utf8Valid : List Byte → Bool
  | [] => true
  | a :: rest =>
    if inRange a 0x00 0x7F then utf8Valid rest
    else
      match rest with
      | [] => false
      | b :: rest₂ =>
        if utf8Two a b then utf8Valid rest₂
        else
          match rest₂ with
          | [] => false
          | c :: rest₃ =>
            if utf8Three a b c then utf8Valid rest₃
            else
              match rest₃ with
              | [] => false
              | d :: rest₄ => if utf8Four a b c d then utf8Valid rest₄ else false

end Sys2Proof.Machine
end

