-- ==== Sys2Proof/Machine/Parameters.lean ====
section
/-! DEFINITION. The parameter values of the machine: the defaults of 00_scope.md R5 (entry 7). -/

namespace Sys2Proof.Machine

/-- Every parameter of R5 at its default (DESIGN CHOICE, entry 7: the spec's own defaults D2, D9 to D15, and SDU's CRC literals, D19). -/
def sdb : Config.Params where
  aw := 32
  icap := 2 ^ 32 - 1
  ocap := 2 ^ 32 - 1
  crcPoly := 0x04C11DB7
  crcInit := 0x04C11DB7
  crcRefIn := false
  crcRefOut := false
  crcXorOut := 0
  bitNum := .lsb0
  textValid := utf8Valid
  flagMsbFirst := true
  refBit := true
  tokBigEndian := true
  lenBits := 4
  lenBias := 3
  distBias := 1
  lzPreamble := fun _ => some ⟨0, none⟩
  magic := [0x42, 0x50, 0x4B, 0x31]

end Sys2Proof.Machine
end

