-- ==== Sys2Proof/Syntax.lean ====
section
/-! DEFINITION. The instructions of spec/opcode_table.json: 14 commands and 3 stream elements, one constructor per row. -/

namespace Sys2Proof

/-- One instruction of SDB: a command the host issues, or an element of the compressed stream LZD interprets (R2, R60). A
count or position operand is the unsigned value of the `A` field, `AW` bits wide (R61, R64). -/
inductive Instr where
  /-- `LOAD s`, with the data phase it carries (R66, R151). -/
  | load (data : List Byte)
  /-- `ADOPT` (R152). -/
  | adopt
  /-- `RDB K` (R91). -/
  | rdb (k : Nat)
  /-- `RDA N` (R92). -/
  | rda (n : Nat)
  /-- `RDU32` (R93). -/
  | rdu32
  /-- `RDSTR W` (R94). -/
  | rdstr (w : Nat)
  /-- `SKA T` (R96). -/
  | ska (t : Nat)
  /-- `SKR d`, the raw field `A`; the delta is its two's-complement value (R64, R97). -/
  | skr (a : Nat)
  /-- `PKBITS byte, lo, hi` (R82). -/
  | pkbits (byte : Byte) (lo hi : BitVec 3)
  /-- `PKBIT byte, i` (R83). -/
  | pkbit (byte : Byte) (i : BitVec 3)
  /-- `CRCRD K` (R142). -/
  | crcrd (k : Nat)
  /-- `CRCVF X` (R143). -/
  | crcvf (x : Word)
  /-- `DECOMP` (R122). -/
  | decomp
  /-- `DECOMPIF` (R123). -/
  | decompif
  /-- Stream element `FLAGS f` (R114). -/
  | flags (f : Byte)
  /-- Stream element `LIT b` (R115). -/
  | lit (b : Byte)
  /-- Stream element `REF length, distance`, the decoded values (R73, R116). -/
  | ref (length distance : Nat)
  deriving DecidableEq, Repr

/-- The three kinds of stream element; which one comes next is told by LZD's state, never by the element's bits (R72). -/
inductive ElementKind where
  | flags
  | lit
  | ref
  deriving DecidableEq, Repr

/-- What is presented to the decoder: a command word, as the number its `40 + AW` bits stand for, with its data phase (R61,
R66), or the bytes of a stream element whose kind LZD already knows (R72). -/
inductive Encoded where
  | command (word : Nat) (data : List Byte)
  | element (kind : ElementKind) (bytes : List Byte)
  deriving DecidableEq, Repr

end Sys2Proof
end

