-- ==== Sys2Proof/Machine/State.lean ====
section
/-! DEFINITION. The state of SDB (10_state.md R10 to R21), the reasons a step can stop, and the state after reset (R200). -/

namespace Sys2Proof.Machine

/-- A byte memory: its bytes that hold a value, by rising index. An index that is not listed holds no value (R24, entry 5). -/
abbrev Memory := List Host.Cell

/-- The two memory spaces (R40). -/
inductive Space where
  | ibuf
  | obuf
  deriving DecidableEq, Repr

/-- The result a successful command returns (R19, `return` of each command rule). -/
inductive Result where
  | unit
  | word (v : Word)
  | bytes (s : List Byte)
  deriving DecidableEq, Repr

/-- The status a command returns to the host: `ok(result)` or `err(code)` (R19). -/
inductive Status where
  | ok (r : Result)
  | err (code : BitVec 4)
  deriving DecidableEq, Repr

/-- Which command an LZD run belongs to (R110). -/
inductive RunKind where
  | decomp
  | decompif
  deriving DecidableEq, Repr

/-- What the host can do to the block: present a command word and, for `LOAD`, its data phase (R61, R66), or assert the
reset input (R200). -/
inductive HostInput where
  | command (word : Nat) (data : List Byte)
  | reset
  deriving DecidableEq, Repr

/-- Everything the machine holds: the registers and memories of R21, the status of R19, and the model's own host port and
free-value counter. Plain data. A position or length register is a number; that it fits its `AW` bits is `State.InvIn` (R22):
no rule lets one wrap (R6, R14, R90). -/
structure State where
  /-- `IBUF` (R11): indices `0` to `ILEN - 1`. -/
  ibuf : Memory
  ilen : Nat
  /-- `POS`, the cursor of BSQ (R13). -/
  pos : Nat
  /-- `OBUF` (R12): indices `0` to `OLEN - 1`. -/
  obuf : Memory
  olen : Nat
  /-- `RES`, the last scalar result (R10). -/
  res : Word
  /-- `RBYTES`, the last byte-list result (R10). -/
  rbytes : List Byte
  rlen : Nat
  /-- `CRCACC` (R17). -/
  crcacc : Word
  /-- `ERR`: 0 when the block is not faulted (R18, R19). -/
  err : BitVec 4
  erra : Word
  errb : Word
  /-- `SRC`, LZD's stream pointer (R14). -/
  src : Nat
  /-- `FLG`, the current flag byte (R15). -/
  flg : Byte
  /-- `FCNT`, how many bits of `FLG` have been consumed, 0 to 8 (R15). -/
  fcnt : Fin 9
  /-- `LIM`, `none` or an exact output length (R16). -/
  lim : Option Nat
  /-- `CLEN`, the remaining length of a copy in progress (R16). -/
  clen : Nat
  /-- `CDIST`, the distance of a copy in progress (R16). -/
  cdist : Nat
  /-- The LZD run in progress, if any: the transient registers live only inside one (R14 to R16). -/
  run : Option RunKind
  /-- The status of the last command completed since reset (R19, entry 2). -/
  status : Option Status
  /-- The model's own, and no state of the block (R23): host inputs not yet taken, oldest first (entry 1). -/
  port : List HostInput
  /-- The model's own: how many times the transients have been left unspecified (entry 3). -/
  draws : Nat
  deriving DecidableEq, Repr

/-- A step that stops the machine. -/
inductive Fault where
  /-- Raised by every read of memory, at an index that holds no value (R24: "if a model's step ever needs one, the model is
  wrong"). Safe: it stops where the spec gives no value; no state that meets `State.Inv` reaches it. -/
  | noValue (space : Space) (index : Nat)
  deriving DecidableEq, Repr

/-- A step the model gives no meaning. -/
inductive Refusal where
  /-- Raised by `exec` for an instruction without a meaning. Safe. No arm raises it. -/
  | notModelled (mnemonic : String)
  /-- Raised by the command fetch for a number of more than `40 + AW` bits, which is no command word (R61). Safe. -/
  | wordWidth
  /-- Raised by the command fetch for a data phase of the wrong length, which R66 says "cannot be expressed" (U20). Safe. -/
  | dataPhase
  /-- Raised by `FLAGS`, `LIT` and `REF` outside an LZD run: a stream element is no command (R2, R60). Safe. -/
  | elementOutsideRun
  /-- Raised by the element fetch if the bytes it read are not as many as the element's kind has (R72). Safe; the fetch always
  reads that many, so no step reaches it. -/
  | elementLength
  deriving DecidableEq, Repr

/-- The outcome of a step of this machine. -/
abbrev Outcome := Host.Outcome State Fault Refusal

/-- The state after reset under the parameters `p` (R21, R200). The spec leaves the LZD transient registers unspecified; the
values here are the model's (DESIGN CHOICE, entry 4). -/
def State.resetIn (p : Config.Params) : State where
  ibuf := []
  ilen := 0
  pos := 0
  obuf := []
  olen := 0
  res := 0
  rbytes := []
  rlen := 0
  crcacc := p.crcInit
  err := 0
  erra := 0
  errb := 0
  src := 0
  flg := 0
  fcnt := 0
  lim := none
  clen := 0
  cdist := 0
  run := none
  status := none
  port := []
  draws := 0

/-- The state of the machine after reset. -/
def State.reset : State := State.resetIn sdb

end Sys2Proof.Machine
end

