-- ==== Sys2Proof/Machine/Operands.lean ====
section
/-! DEFINITION. Operand assembly and the pseudocode primitives of R6, R7, R64 and R81. -/

namespace Sys2Proof.Machine

/-- `u32le(s)`: the byte at the lowest index is the least significant (R7, R44). -/
def u32le (s : List Byte) : Word :=
  BitVec.ofNat 32 (s.foldr (fun b acc => b.toNat + 256 * acc) 0)

/-- `first_null(s)`: the index of the first 0x00, or `|s|` when there is none (R7). -/
def firstNull (s : List Byte) : Nat := s.findIdx (· == 0)

/-- `sext_N(v)`, for `v` below `2^N` (R6). -/
def sext (n v : Nat) : Int := if v < 2 ^ (n - 1) then v else v - 2 ^ n

/-- The delta of `SKR`: the field `A`, `AW` bits, read as two's complement (R64). -/
def delta (p : Config.Params) (a : Nat) : Int := sext p.aw a

/-- `phys(k)`: the bit of the byte that the operand index `k` names under `BITNUM` (R81). -/
def phys (p : Config.Params) (k : BitVec 3) : Nat :=
  match p.bitNum with
  | .lsb0 => k.toNat
  | .msb0 => 7 - k.toNat

/-- `v[hi:lo] = (v >> lo) mod 2^(hi-lo+1)` (R6). -/
def bitRange (v hi lo : Nat) : Nat := v / 2 ^ lo % 2 ^ (hi - lo + 1)

end Sys2Proof.Machine
end

