-- ==== Sys2Proof/Machine/Ops.lean ====
section
/-! DEFINITION. The named operations over memory and registers, taking an error and returning from one, and how an LZD run ends. -/

namespace Sys2Proof.Machine

/-! ## Memory (20_memory.md R40 to R43) -/

/-- The byte at index `a`, if it holds one (R24, R41). -/
def Memory.readByte (m : Memory) (a : Nat) : Option Byte := m.lookup a

/-- `MemRead(space, a, n)` (R41): the `n` bytes from index `a`, if each holds a value. -/
def Memory.read (m : Memory) (a : Nat) : Nat → Option (List Byte)
  | 0 => some []
  | n + 1 =>
    match m.readByte a with
    | none => none
    | some b =>
      match Memory.read m (a + 1) n with
      | none => none
      | some rest => some (b :: rest)

/-- `MemWrite(space, a, 1, [b])` (R42): one byte stored, in place of the byte at `a` if there is one. -/
def Memory.writeByte (m : Memory) (a : Nat) (b : Byte) : Memory :=
  match m with
  | [] => [(a, b)]
  | c :: rest =>
    if a < c.1 then (a, b) :: c :: rest
    else if a = c.1 then (a, b) :: rest
    else c :: Memory.writeByte rest a b

/-- The bytes of `s` at the indices from `a` on. -/
def Memory.ofBytesFrom (a : Nat) : List Byte → Memory
  | [] => []
  | b :: rest => (a, b) :: Memory.ofBytesFrom (a + 1) rest

/-- A memory whose content is exactly `s` at indices `0` to `|s| - 1` (`IBUF[0..n) <- s`, R151). -/
def Memory.ofBytes (s : List Byte) : Memory := Memory.ofBytesFrom 0 s

/-- The canonical form: indices strictly rising. (An unlisted index holds no value, so no entry can repeat it.) -/
abbrev Memory.wf (m : Memory) : Prop := (m.map Prod.fst).Pairwise (· < ·)

/-- The memory of a space. -/
def State.space (s : State) : Space → Memory
  | .ibuf => s.ibuf
  | .obuf => s.obuf

/-- `MemRead(space, a, n)` inside a rule: go on with the bytes; an index without a value stops the machine (R24, entry 5). -/
def memRead (sp : Space) (a n : Nat) (s : State) (act : List Byte → Outcome) : Outcome :=
  match (s.space sp).read a n with
  | some bytes => act bytes
  | none => .fault (.noValue sp a)

/-! ## Completing a command and taking an error (60_exceptions.md) -/

/-- `return v`: the command ends with status `ok(v)` (R6, R19). -/
def succeed (r : Result) (s : State) : Outcome := .next { s with status := some (.ok r) }

/-- The errors a command can raise (R181; code 1, `BadMagic`, is the host's). -/
inductive Error where
  | checksumMismatched
  | unexpectedEof
  | invalidText
  | decompressionFailed
  | illegalCommand
  | capacityExceeded
  deriving DecidableEq, Repr

/-- `code(E)` (R181). -/
def Error.code : Error → BitVec 4
  | .checksumMismatched => 2
  | .unexpectedEof => 3
  | .invalidText => 4
  | .decompressionFailed => 5
  | .illegalCommand => 6
  | .capacityExceeded => 7

/-- TAKING AN ERROR, `raise E(a, b)`: `ERR`, `ERRA`, `ERRB` are recorded and the command returns `err(code(E))`; no other
state changes (R150, R184). -/
def State.enterError (e : Error) (a b : Nat) (s : State) : State :=
  { s with
    err := e.code
    erra := BitVec.ofNat 32 a
    errb := BitVec.ofNat 32 b
    status := some (.err e.code) }

/-- `raise E(a, b)` as the outcome of a command (R6). -/
def raise (e : Error) (a b : Nat) (s : State) : Outcome := .next (s.enterError e a b)

/-- RETURN FROM AN ERROR: `LOAD` clears `ERR`, `ERRA`, `ERRB` (R151, R187). -/
def State.clearError (s : State) : State := { s with err := 0, erra := 0, errb := 0 }

/-- A command other than `LOAD`: refused with the existing code while faulted, no register changing (R150 line 2, R186). -/
def ifReady (s : State) (act : State → Outcome) : Outcome :=
  if s.err = 0 then act s else .next { s with status := some (.err s.err) }

/-! ## The end of an LZD run (43_lzss.md R118 to R123) -/

/-- Failure sub-causes (R119). -/
inductive FailCause where
  | preamble
  | truncated
  | badDistance
  | overrun
  deriving DecidableEq, Repr

/-- The sub-cause recorded in `ERRB` (R119, R183). -/
def FailCause.sub : FailCause → Nat
  | .preamble => 1
  | .truncated => 2
  | .badDistance => 3
  | .overrun => 4

/-- Outside a run the transient registers hold any value (R14 to R16, U2): free values, entry 3. -/
def State.leaveRun (p : Config.Params) (s : State) : State :=
  { s with
    run := none
    src := (Config.freeSrc p.aw s.draws).toNat
    flg := Config.freeFlg s.draws
    fcnt := Config.freeFcnt s.draws
    lim := (Config.freeLim p.aw s.draws).map BitVec.toNat
    clen := Config.freeClen s.draws
    cdist := (Config.freeCdist p.aw s.draws).toNat
    draws := s.draws + 1 }

/-- `OLEN <- 0`; the content of `OBUF` holds no value (R24, R122, U1, entry 12). -/
def State.emptyObuf (s : State) : State := { s with obuf := [], olen := 0 }

/-- The whole of `OBUF` replaced by `out`: `OBUF[0..|out|) <- out; OLEN <- |out|` (R122). -/
def State.setObuf (out : List Byte) (s : State) : State :=
  { s with obuf := Memory.ofBytes out, olen := out.length }

/-- The run ended well; `DECOMPIF` also sets `RES` to 1 (R122, R123). -/
def endOk (p : Config.Params) (kind : RunKind) (s : State) : Outcome :=
  match kind with
  | .decomp => succeed .unit (s.leaveRun p)
  | .decompif => succeed .unit { s.leaveRun p with res := 1 }

/-- The run ended at capacity: `OLEN <- 0; raise CapacityExceeded(1, OCAP)`, for both commands (R120, R122, R123, R188). -/
def endOverflow (p : Config.Params) (s : State) : Outcome :=
  raise .capacityExceeded 1 p.ocap (s.leaveRun p).emptyObuf

/-- The run failed at index `index`. `DECOMP` raises `DecompressionFailed`; `DECOMPIF` swallows the failure and returns the
whole input with `RES` 0 (R122, R123, R188). -/
def endFail (p : Config.Params) (kind : RunKind) (cause : FailCause) (index : Nat) (s : State) : Outcome :=
  match kind with
  | .decomp => raise .decompressionFailed index cause.sub (s.leaveRun p).emptyObuf
  | .decompif =>
    if p.ocap < s.ilen then endOverflow p s
    else memRead .ibuf 0 s.ilen s fun input => succeed .unit { (s.leaveRun p).setObuf input with res := 0 }

/-! ## What the host sees (10_state.md R20) -/

/-- Every non-transient register, the readable part of both memories and the last status. -/
structure HostView where
  ibuf : Option (List Byte)
  ilen : Nat
  pos : Nat
  obuf : Option (List Byte)
  olen : Nat
  res : Word
  rbytes : List Byte
  rlen : Nat
  crcacc : Word
  err : BitVec 4
  erra : Word
  errb : Word
  status : Option Status
  deriving DecidableEq, Repr

/-- The host's read of the state between commands (R20). -/
def State.hostView (s : State) : HostView where
  ibuf := s.ibuf.read 0 s.ilen
  ilen := s.ilen
  pos := s.pos
  obuf := s.obuf.read 0 s.olen
  olen := s.olen
  res := s.res
  rbytes := s.rbytes
  rlen := s.rlen
  crcacc := s.crcacc
  err := s.err
  erra := s.erra
  errb := s.errb
  status := s.status

end Sys2Proof.Machine
end

