-- ==== Sys2Proof/Machine/ByteStream.lean ====
section
/-! DEFINITION. BSQ, the byte-stream sequencer: RDB, RDA, RDU32, RDSTR, SKA, SKR (42_bytestream.md). -/

namespace Sys2Proof.Machine

/-- An exact-length read at `POS` (R90, R91): short exactly when `k > ILEN - POS` in unbounded integers, and then nothing
but the error changes; otherwise `deliver` gets the bytes, and the state with `POS` moved and every other register as it
was. -/
def readExact (k : Nat) (s : State) (deliver : List Byte → State → Outcome) : Outcome :=
  if s.ilen < s.pos + k then raise .unexpectedEof s.pos k s
  else memRead .ibuf s.pos k s fun bytes => deliver bytes { s with pos := s.pos + k }

/-- The byte-list result registers take `bytes`, which is also the command's result (R10). -/
def deliverBytes (bytes : List Byte) (s : State) : Outcome :=
  succeed (.bytes bytes) { s with rbytes := bytes, rlen := bytes.length }

/-- The scalar result register takes `v`, which is also the command's result (R10). -/
def deliverWord (v : Word) (s : State) : Outcome :=
  succeed (.word v) { s with res := v }

/-- RDB (R91). -/
def execRdb (k : Nat) (s : State) : Outcome :=
  ifReady s fun s => readExact k s deliverBytes

/-- RDA (R92). -/
def execRda (n : Nat) (s : State) : Outcome :=
  ifReady s fun s => readExact n s deliverBytes

/-- RDU32 (R93). -/
def execRdu32 (s : State) : Outcome :=
  ifReady s fun s => readExact 4 s fun bytes s => deliverWord (u32le bytes) s

/-- `RDSTR W` under the parameters `p` (R94): only the text before the first null is validated; the cursor moves by `W`. -/
def rdstrIn (p : Config.Params) (w : Nat) (s : State) : Outcome :=
  ifReady s fun s₀ => readExact w s₀ fun field s₁ =>
    let text := field.take (firstNull field)
    if p.textValid text then deliverBytes text s₁
    else raise .invalidText s₀.pos w s₀

/-- RDSTR (R94). -/
def execRdstr (w : Nat) (s : State) : Outcome := rdstrIn sdb w s

/-- A seek to the integer position `target` (R96, R97): outside `[0, ILEN]` it raises `UnexpectedEof` with the seek operand
and `POS` is unchanged. -/
def seekTo (target : Int) (operand : Nat) (s : State) : Outcome :=
  if target < 0 ∨ (s.ilen : Int) < target then raise .unexpectedEof s.pos operand s
  else succeed .unit { s with pos := target.toNat }

/-- SKA (R96). -/
def execSka (t : Nat) (s : State) : Outcome :=
  ifReady s fun s => seekTo t t s

/-- `SKR` under the parameters `p` (R97): the target is computed without wrap-around. -/
def skrIn (p : Config.Params) (a : Nat) (s : State) : Outcome :=
  ifReady s fun s => seekTo (s.pos + delta p a) a s

/-- SKR (R97). -/
def execSkr (a : Nat) (s : State) : Outcome := skrIn sdb a s

end Sys2Proof.Machine
end

