-- ==== Sys2Proof/Machine/BitField.lean ====
section
/-! DEFINITION. BFX, the bit-field extractor: PKBITS, PKBIT (41_bitfield.md). -/

namespace Sys2Proof.Machine

/-- The value `PKBITS byte, lo, hi` extracts (R82): the bits the two indices name and those between, right-aligned. -/
def pickRange (p : Config.Params) (byte : Byte) (lo hi : BitVec 3) : Nat :=
  bitRange byte.toNat (max (phys p lo) (phys p hi)) (min (phys p lo) (phys p hi))

/-- The value `PKBIT byte, i` extracts (R83). -/
def pickBit (p : Config.Params) (byte : Byte) (i : BitVec 3) : Nat :=
  bitRange byte.toNat (phys p i) (phys p i)

/-- `PKBITS` under the parameters `p` (R82); `lo > hi` is an illegal command (R65). -/
def pkbitsIn (p : Config.Params) (byte : Byte) (lo hi : BitVec 3) (s : State) : Outcome :=
  ifReady s fun s =>
    if hi < lo then raise .illegalCommand 0x30 0 s
    else deliverWord (BitVec.ofNat 32 (pickRange p byte lo hi)) s

/-- `PKBIT` under the parameters `p` (R83). -/
def pkbitIn (p : Config.Params) (byte : Byte) (i : BitVec 3) (s : State) : Outcome :=
  ifReady s fun s => deliverWord (BitVec.ofNat 32 (pickBit p byte i)) s

/-- PKBITS (R82). -/
def execPkbits (byte : Byte) (lo hi : BitVec 3) (s : State) : Outcome := pkbitsIn sdb byte lo hi s

/-- PKBIT (R83). -/
def execPkbit (byte : Byte) (i : BitVec 3) (s : State) : Outcome := pkbitIn sdb byte i s

end Sys2Proof.Machine
end

