-- ==== Sys2Proof/Machine/Checksum.lean ====
section
/-! DEFINITION. CRC, the checksum unit: CRCRD, CRCVF (44_crc32.md). -/

namespace Sys2Proof.Machine

/-- One shift of the CRC register (R141): left by one, the polynomial XORed in when the bit shifted out is 1. -/
def crcShift (p : Config.Params) (c : Word) : Word :=
  if c.msb then (c <<< 1) ^^^ p.crcPoly else c <<< 1

/-- `k` shifts of the CRC register. -/
def crcShifts (p : Config.Params) : Nat → Word → Word
  | 0, c => c
  | k + 1, c => crcShifts p k (crcShift p c)

/-- One byte into the CRC register (R141): XORed into the top 8 bits, then 8 shifts. The byte is reflected first when
`CRC_REFIN` (R5, entry 13). -/
def crcByte (p : Config.Params) (c : Word) (b : Byte) : Word :=
  crcShifts p 8 (c ^^^ ((if p.crcRefIn then b.reverse else b).setWidth 32 <<< 24))

/-- The CRC register after the bytes of `s`, from `c` (R141). -/
def crcFold (p : Config.Params) (c : Word) (s : List Byte) : Word := s.foldl (crcByte p) c

/-- `crc32v(s)` (R141); `CRC_REFOUT` and `CRC_XOROUT` are off and 0 by default (R5, entry 13). -/
def crc32v (p : Config.Params) (s : List Byte) : Word :=
  let c := crcFold p p.crcInit s
  (if p.crcRefOut then c.reverse else c) ^^^ p.crcXorOut

/-- `CRCRD K` under the parameters `p` (R142): every sum starts afresh from `CRC_INIT`. -/
def crcrdIn (p : Config.Params) (k : Nat) (s : State) : Outcome :=
  ifReady s fun s => readExact k s fun bytes s =>
    deliverBytes bytes { s with crcacc := crc32v p bytes, res := crc32v p bytes }

/-- CRCRD (R142). -/
def execCrcrd (k : Nat) (s : State) : Outcome := crcrdIn sdb k s

/-- CRCVF (R143). -/
def execCrcvf (x : Word) (s : State) : Outcome :=
  ifReady s fun s =>
    if s.crcacc = x then succeed .unit s
    else raise .checksumMismatched s.crcacc.toNat x.toNat s

end Sys2Proof.Machine
end

