-- ==== Sys2Proof/Machine/Control.lean ====
section
/-! DEFINITION. Buffer control: LOAD and ADOPT (45_control.md). -/

namespace Sys2Proof.Machine

/-- A fresh decode call over the input `data`: cursor 0, empty output, `CRCACC = CRC_INIT` (R151, R152). -/
def State.newInput (p : Config.Params) (data : List Byte) (s : State) : State :=
  { s with
    ibuf := Memory.ofBytes data
    ilen := data.length
    pos := 0
    obuf := []
    olen := 0
    crcacc := p.crcInit }

/-- `LOAD s` under the parameters `p` (R151): accepted while faulted; over capacity it leaves an empty buffer and raises. -/
def loadIn (p : Config.Params) (data : List Byte) (s : State) : Outcome :=
  if p.icap < data.length then raise .capacityExceeded 0 p.icap (s.clearError.newInput p [])
  else succeed .unit (s.clearError.newInput p data)

/-- `ADOPT` under the parameters `p` (R152). -/
def adoptIn (p : Config.Params) (s : State) : Outcome :=
  ifReady s fun s =>
    if p.icap < s.olen then raise .capacityExceeded 0 p.icap s
    else memRead .obuf 0 s.olen s fun out => succeed .unit (s.newInput p out)

/-- LOAD (R151). -/
def execLoad (data : List Byte) (s : State) : Outcome := loadIn sdb data s

/-- ADOPT (R152). -/
def execAdopt (s : State) : Outcome := adoptIn sdb s

end Sys2Proof.Machine
end

