-- ==== Sys2Proof/WellFormed.lean ====
section
/-! DEFINITION. Which instructions an encoding can express (R64 to R66, R70). -/

namespace Sys2Proof

/-- `i` is expressible under the parameters `p`: an operand that fits the `A` field of `AW` bits (R61, R64), a `LOAD` whose byte
count does (R66), a `PKBITS` with `lo ≤ hi` (R65), a back-reference whose length and distance are some field value plus their
bias (R70). Every other instruction is well-formed by its operand types. -/
def Instr.wellFormedIn (p : Config.Params) : Instr → Bool
  | .load data => decide (data.length < 2 ^ p.aw)
  | .adopt => true
  | .rdb k => decide (k < 2 ^ p.aw)
  | .rda n => decide (n < 2 ^ p.aw)
  | .rdu32 => true
  | .rdstr w => decide (w < 2 ^ p.aw)
  | .ska t => decide (t < 2 ^ p.aw)
  | .skr a => decide (a < 2 ^ p.aw)
  | .pkbits _ lo hi => decide (lo ≤ hi)
  | .pkbit _ _ => true
  | .crcrd k => decide (k < 2 ^ p.aw)
  | .crcvf x => decide (x.toNat < 2 ^ p.aw)
  | .decomp => true
  | .decompif => true
  | .flags _ => true
  | .lit _ => true
  | .ref length distance =>
    decide (p.lenBias ≤ length ∧ length < p.lenBias + 2 ^ p.lenBits ∧
      p.distBias ≤ distance ∧ distance < p.distBias + 2 ^ (16 - p.lenBits))

end Sys2Proof
end

