-- ==== Sys2Proof/Decode.lean ====
section
/-! DEFINITION. The decoder and the encoder of commands and stream elements (30_encoding.md), and the host's table view of them. -/

namespace Sys2Proof

/-- Why a presented encoding is not an instruction. -/
inductive DecodeError where
  /-- An illegal command word, with its `op` (R65). -/
  | illegalCommand (op : Byte)
  /-- A word of more than `40 + AW` bits (R61). -/
  | wordWidth
  /-- A data phase whose length is not the one the command word announces (R66: it "cannot be expressed"). -/
  | dataPhase
  /-- A stream element given with a number of bytes that is not its kind's (R72). -/
  | elementLength
  deriving DecidableEq, Repr

/-- `op`, the 8 bits above `A` (R61: `cmd[71:64]` with `AW = 32`). -/
def opField (p : Config.Params) (w : Nat) : Byte := BitVec.ofNat 8 (w / 2 ^ (32 + p.aw))
/-- `A`, the `AW` bits above `B` (R61: `cmd[63:32]` with `AW = 32`). -/
def aField (p : Config.Params) (w : Nat) : Nat := w / 2 ^ 32 % 2 ^ p.aw
/-- `B`, `cmd[31:0]` (R61). -/
def bField (w : Nat) : Word := BitVec.ofNat 32 w

/-- What a legal command word says before its data phase: `LOAD` with its byte count, or a whole instruction. -/
inductive Header where
  | load (n : Nat)
  | plain (i : Instr)
  deriving DecidableEq, Repr

/-- Format `Z`: `A` and `B` all 0 (R62). -/
def decodeZ (a : Nat) (b : Word) (h : Header) : Option Header :=
  if a = 0 ∧ b = 0 then some h else none

/-- Format `A`: the operand is `A`, unsigned (R64); `B` is all 0 (R62). -/
def decodeA (a : Nat) (b : Word) (h : Nat → Header) : Option Header :=
  if b = 0 then some (h a) else none

/-- Format `A` of `CRCVF`, whose operand is 32 bits whatever `AW` is (R143): a bit of `A` above them is reserved (entry 6). -/
def decodeX (a : Nat) (b : Word) : Option Header :=
  if b = 0 ∧ a < 2 ^ 32 then some (.plain (.crcvf (BitVec.ofNat 32 a))) else none

/-- Format `XR`: `byte` in `A[7:0]`, `lo` in `B[2:0]`, `hi` in `B[6:4]`, every other bit 0 (R62); `lo ≤ hi` (R65 c). -/
def decodeXR (a : Nat) (b : Word) : Option Header :=
  let lo := b.extractLsb' 0 3
  let hi := b.extractLsb' 4 3
  if a < 2 ^ 8 ∧ b.extractLsb' 3 1 = 0 ∧ b.extractLsb' 7 25 = 0 ∧ lo ≤ hi then
    some (.plain (.pkbits (BitVec.ofNat 8 a) lo hi))
  else none

/-- Format `XB`: `byte` in `A[7:0]`, `i` in `B[2:0]`, every other bit 0 (R62). -/
def decodeXB (a : Nat) (b : Word) : Option Header :=
  if a < 2 ^ 8 ∧ b.extractLsb' 3 29 = 0 then some (.plain (.pkbit (BitVec.ofNat 8 a) (b.extractLsb' 0 3))) else none

/-- The opcode map of R63 on the three fields of a word; `none` is an illegal command (R65). -/
def decodeFields (op : Byte) (a : Nat) (b : Word) : Option Header :=
  if op = 0x10 then decodeA a b .load
  else if op = 0x11 then decodeZ a b (.plain .adopt)
  else if op = 0x20 then decodeA a b (fun k => .plain (.rdb k))
  else if op = 0x21 then decodeA a b (fun n => .plain (.rda n))
  else if op = 0x22 then decodeZ a b (.plain .rdu32)
  else if op = 0x23 then decodeA a b (fun w => .plain (.rdstr w))
  else if op = 0x24 then decodeA a b (fun t => .plain (.ska t))
  else if op = 0x25 then decodeA a b (fun d => .plain (.skr d))
  else if op = 0x30 then decodeXR a b
  else if op = 0x31 then decodeXB a b
  else if op = 0x40 then decodeA a b (fun k => .plain (.crcrd k))
  else if op = 0x41 then decodeX a b
  else if op = 0x50 then decodeZ a b (.plain .decomp)
  else if op = 0x51 then decodeZ a b (.plain .decompif)
  else none

/-- The decoder of the command word of `40 + AW` bits (R61 to R65). -/
def decodeWordIn (p : Config.Params) (w : Nat) : Option Header :=
  decodeFields (opField p w) (aField p w) (bField w)

/-- The decoder of the machine's 72-bit command word. -/
def decodeWord (w : Nat) : Option Header := decodeWordIn Machine.sdb w

/-- A command word with its data phase: exactly `A` bytes after `LOAD`, none after any other command (R66). -/
def decodeCommand (p : Config.Params) (w : Nat) (data : List Byte) : Except DecodeError Instr :=
  if 2 ^ (40 + p.aw) ≤ w then .error .wordWidth
  else
    match decodeWordIn p w with
    | none => .error (.illegalCommand (opField p w))
    | some (.load n) => if data.length = n then .ok (.load data) else .error .dataPhase
    | some (.plain i) => if data = [] then .ok i else .error .dataPhase

/-- The 16-bit token value `T` of the bytes `t0`, `t1`, `t0` at the lower index (R70). -/
def tokenValue (p : Config.Params) (t0 t1 : Byte) : Nat :=
  if p.tokBigEndian then t0.toNat * 256 + t1.toNat else t1.toNat * 256 + t0.toNat

/-- `length = T[15 : 16 - LEN_BITS] + LEN_BIAS` (R70). -/
def tokenLength (p : Config.Params) (t : Nat) : Nat :=
  t / 2 ^ (16 - p.lenBits) + p.lenBias

/-- `distance = T[15 - LEN_BITS : 0] + DIST_BIAS` (R70). -/
def tokenDistance (p : Config.Params) (t : Nat) : Nat :=
  t % 2 ^ (16 - p.lenBits) + p.distBias

/-- The decoder of a stream element of a known kind (R68 to R70, R72). -/
def decodeElement (p : Config.Params) : ElementKind → List Byte → Except DecodeError Instr
  | .flags, [f] => .ok (.flags f)
  | .lit, [b] => .ok (.lit b)
  | .ref, [t0, t1] => .ok (.ref (tokenLength p (tokenValue p t0 t1)) (tokenDistance p (tokenValue p t0 t1)))
  | _, _ => .error .elementLength

/-- The decoder, under the parameters `p`. -/
def decodeIn (p : Config.Params) : Encoded → Except DecodeError Instr
  | .command word data => decodeCommand p word data
  | .element kind bytes => decodeElement p kind bytes

/-- The decoder of the machine. -/
def decode (e : Encoded) : Except DecodeError Instr := decodeIn Machine.sdb e

/-- A command word from its three fields (R61). -/
def commandWord (p : Config.Params) (op : Byte) (a : Nat) (b : Word) : Nat :=
  op.toNat * 2 ^ (32 + p.aw) + a % 2 ^ p.aw * 2 ^ 32 + b.toNat

/-- The `B` field of format `XR`: `hi` at `B[6:4]`, `lo` at `B[2:0]` (R62). -/
def rangeField (lo hi : BitVec 3) : Word := ((0 : BitVec 25) ++ hi ++ (0 : BitVec 1) ++ lo : BitVec (25 + 3 + 1 + 3))

/-- The two bytes, lower index first, of the token value `t` (R70). -/
def tokenBytes (p : Config.Params) (t : Nat) : List Byte :=
  let high := BitVec.ofNat 8 (t / 256)
  let low := BitVec.ofNat 8 t
  if p.tokBigEndian then [high, low] else [low, high]

/-- The encoder, from the same tables (R61 to R70): the words of a well-formed instruction. -/
def encodeIn (p : Config.Params) : Instr → Encoded
  | .load data => .command (commandWord p 0x10 data.length 0) data
  | .adopt => .command (commandWord p 0x11 0 0) []
  | .rdb k => .command (commandWord p 0x20 k 0) []
  | .rda n => .command (commandWord p 0x21 n 0) []
  | .rdu32 => .command (commandWord p 0x22 0 0) []
  | .rdstr w => .command (commandWord p 0x23 w 0) []
  | .ska t => .command (commandWord p 0x24 t 0) []
  | .skr a => .command (commandWord p 0x25 a 0) []
  | .pkbits byte lo hi => .command (commandWord p 0x30 byte.toNat (rangeField lo hi)) []
  | .pkbit byte i => .command (commandWord p 0x31 byte.toNat (i.setWidth 32)) []
  | .crcrd k => .command (commandWord p 0x40 k 0) []
  | .crcvf x => .command (commandWord p 0x41 x.toNat 0) []
  | .decomp => .command (commandWord p 0x50 0 0) []
  | .decompif => .command (commandWord p 0x51 0 0) []
  | .flags f => .element .flags [f]
  | .lit b => .element .lit [b]
  | .ref length distance =>
    .element .ref (tokenBytes p ((length - p.lenBias) * 2 ^ (16 - p.lenBits) + (distance - p.distBias)))

/-- The encoder of the machine. -/
def encode (i : Instr) : Encoded := encodeIn Machine.sdb i

/-- A row of the opcode map of R63, for 72-bit words (`AW = 32`): a word `w` selects it when `w and mask = match`. -/
structure OpcodeRow where
  mnemonic : String
  bits : CommandWord
  mask : CommandWord
  deriving DecidableEq, Repr

/-- The `match`/`mask` columns of R63, row by row. -/
def opcodeMap : List OpcodeRow :=
  [⟨"LOAD", 0x100000000000000000, 0xFF00000000FFFFFFFF⟩,
   ⟨"ADOPT", 0x110000000000000000, 0xFFFFFFFFFFFFFFFFFF⟩,
   ⟨"RDB", 0x200000000000000000, 0xFF00000000FFFFFFFF⟩,
   ⟨"RDA", 0x210000000000000000, 0xFF00000000FFFFFFFF⟩,
   ⟨"RDU32", 0x220000000000000000, 0xFFFFFFFFFFFFFFFFFF⟩,
   ⟨"RDSTR", 0x230000000000000000, 0xFF00000000FFFFFFFF⟩,
   ⟨"SKA", 0x240000000000000000, 0xFF00000000FFFFFFFF⟩,
   ⟨"SKR", 0x250000000000000000, 0xFF00000000FFFFFFFF⟩,
   ⟨"PKBITS", 0x300000000000000000, 0xFFFFFFFF00FFFFFF88⟩,
   ⟨"PKBIT", 0x310000000000000000, 0xFFFFFFFF00FFFFFFF8⟩,
   ⟨"CRCRD", 0x400000000000000000, 0xFF00000000FFFFFFFF⟩,
   ⟨"CRCVF", 0x410000000000000000, 0xFF00000000FFFFFFFF⟩,
   ⟨"DECOMP", 0x500000000000000000, 0xFFFFFFFFFFFFFFFFFF⟩,
   ⟨"DECOMPIF", 0x510000000000000000, 0xFFFFFFFFFFFFFFFFFF⟩]

/-- The word `w` selects the row `r` (R63). -/
def OpcodeRow.selects (r : OpcodeRow) (w : CommandWord) : Bool := w &&& r.mask == r.bits

/-- The mnemonic of each row of spec/opcode_table.json. -/
def mnemonic : Instr → String
  | .load _ => "LOAD"
  | .adopt => "ADOPT"
  | .rdb _ => "RDB"
  | .rda _ => "RDA"
  | .rdu32 => "RDU32"
  | .rdstr _ => "RDSTR"
  | .ska _ => "SKA"
  | .skr _ => "SKR"
  | .pkbits _ _ _ => "PKBITS"
  | .pkbit _ _ => "PKBIT"
  | .crcrd _ => "CRCRD"
  | .crcvf _ => "CRCVF"
  | .decomp => "DECOMP"
  | .decompif => "DECOMPIF"
  | .flags _ => "FLAGS"
  | .lit _ => "LIT"
  | .ref _ _ => "REF"

/-- The data phase of zeros that follows a table word: the announced number of zero bytes after a `LOAD`, else none (entry 11). -/
def zeroDataPhase (w : Nat) : List Byte :=
  match decodeWord w with
  | some (.load n) => List.replicate n 0
  | _ => []

/-- The encoding a row of spec/opcode_table.json stands for, from its bits: a 72-bit word is a command; 16 bits are a
back-reference token value; 8 bits are the element a run begins with, a flag byte: `LIT` has the same 8 bits and is told
from `FLAGS` by LZD's state alone (R72, entry 11). -/
def tableEncoded (nbits w : Nat) : Option Encoded :=
  if nbits = 72 then
    some (.command w (zeroDataPhase w))
  else if nbits = 16 then some (.element .ref (tokenBytes Machine.sdb w))
  else if nbits = 8 then some (.element .flags [BitVec.ofNat 8 w])
  else none

/-- The instruction the decoder reads from an instruction whose bits are `w`, numbered as spec/opcode_table.json numbers them. -/
def decodeTableWord (nbits w : Nat) : Option Instr :=
  match tableEncoded nbits w with
  | none => none
  | some e =>
    match decode e with
    | .ok i => some i
    | .error _ => none

end Sys2Proof
end

