-- ==== Sys2Proof/Machine/Flags.lean ====
section
/-! DEFINITION. LZD's flag byte. SDB has no condition codes (R15): the flag bits of the compressed stream are its only flags. -/

namespace Sys2Proof.Machine

/-- The bit of the flag byte that token `k` of the group reads (R68). -/
def flagBit (p : Config.Params) (flg : Byte) (k : Nat) : Bool :=
  if p.flagMsbFirst then flg.getLsbD (7 - k) else flg.getLsbD k

/-- Token `k` of the group is a back-reference: its flag bit equals `REF_BIT` (R68). -/
def selectsRef (p : Config.Params) (flg : Byte) (k : Nat) : Bool := flagBit p flg k == p.refBit

/-- The kind of the next stream element: a flag byte when `FCNT = 8`, else what the next flag bit selects (R72, R113). -/
def nextKind (p : Config.Params) (s : State) : ElementKind :=
  if s.fcnt.val = 8 then .flags
  else if selectsRef p s.flg s.fcnt.val then .ref
  else .lit

/-- `FCNT <- FCNT + 1` before a token; a flag byte consumes no flag bit (R113). -/
def consumeFlag (s : State) : State :=
  if h : s.fcnt.val < 8 then { s with fcnt := ⟨s.fcnt.val + 1, by omega⟩ } else s

end Sys2Proof.Machine
end

