-- ==== Sys2Proof/Machine/Lzss.lean ====
section
/-! DEFINITION. LZD's commands: lz_expand (43_lzss.md R121), DECOMP and DECOMPIF. -/

namespace Sys2Proof.Machine

/-- What a run ends in (R121). -/
inductive LzResult where
  | ok (out : List Byte)
  | fail (cause : FailCause) (index : Nat)
  | overflow
  deriving DecidableEq, Repr

/-- The exact length `L` has been reached (R113, first test). -/
def limitReached (lim : Option Nat) (n : Nat) : Bool :=
  match lim with
  | none => false
  | some l => decide (l = n)

/-- A back-reference that would carry the output to `n` bytes passes the exact length `L` (R116). -/
def overruns (lim : Option Nat) (n : Nat) : Bool :=
  match lim with
  | none => false
  | some l => decide (l < n)

/-- The copy (R117), one byte at a time, each read `distance` bytes before the current end; `none` is `overflow`. The caller
has tested `1 ≤ distance ≤ |out|`, so the byte read always exists. -/
def lzCopy (p : Config.Params) (distance : Nat) : Nat → List Byte → Option (List Byte)
  | 0, out => some out
  | n + 1, out =>
    if out.length = p.ocap then none
    else lzCopy p distance n (out ++ [out.getD (out.length - distance) 0])

/-- The loop of R121 over the input that remains; `src` is the index of its first byte. -/
def lzLoop (p : Config.Params) (lim : Option Nat) : List Byte → Nat → Nat → Byte → List Byte → LzResult
  | [], src, _, _, out =>
    if limitReached lim out.length then .ok out
    else
      match lim with
      | none => .ok out
      | some _ => .fail .truncated src
  | t0 :: rest, src, fcnt, flg, out =>
    if limitReached lim out.length then .ok out
    else if fcnt = 8 then lzLoop p lim rest (src + 1) 0 t0 out
    else if selectsRef p flg fcnt then
      match rest with
      | [] => .fail .truncated src
      | t1 :: rest₂ =>
        let length := tokenLength p (tokenValue p t0 t1)
        let distance := tokenDistance p (tokenValue p t0 t1)
        if distance = 0 ∨ out.length < distance then .fail .badDistance src
        else if overruns lim (out.length + length) then .fail .overrun src
        else
          match lzCopy p distance length out with
          | none => .overflow
          | some out₂ => lzLoop p lim rest₂ (src + 2) (fcnt + 1) flg out₂
    else if out.length = p.ocap then .overflow
    else lzLoop p lim rest (src + 1) (fcnt + 1) flg (out ++ [t0])

/-- `lz_expand(s)` (R121). -/
def lzExpand (p : Config.Params) (s : List Byte) : LzResult :=
  match p.lzPreamble s with
  | none => .fail .preamble 0
  | some pre =>
    if s.length < pre.start then .fail .preamble 0
    else lzLoop p pre.limit (s.drop pre.start) pre.start 8 0 []

/-- The command of a run, under the parameters `p`: `lz_expand` of the whole input, whatever `POS` is (R110, R122, R123). -/
def expandIn (p : Config.Params) (kind : RunKind) (s : State) : Outcome :=
  ifReady s fun s => memRead .ibuf 0 s.ilen s fun input =>
    match lzExpand p input with
    | .ok out => endOk p kind (s.setObuf out)
    | .fail cause index => endFail p kind cause index s
    | .overflow => endOverflow p s

/-- DECOMP (R122). -/
def execDecomp (s : State) : Outcome := expandIn sdb .decomp s

/-- DECOMPIF (R123). -/
def execDecompif (s : State) : Outcome := expandIn sdb .decompif s

end Sys2Proof.Machine
end

