-- ==== Sys2Proof/Machine/Stream.lean ====
section
/-! DEFINITION. The run of LZD seen from inside the command, element by element: FLAGS, LIT, REF (43_lzss.md R112 to R120). -/

namespace Sys2Proof.Machine

/-- The initial state of a run (R111, R112): `SRC <- start; OLEN <- 0; FCNT <- 8; LIM <- lim`, `FLG` unspecified (a free value,
entry 3). No copy is in progress yet, and R16 and R112 give `CLEN` and `CDIST` no value then: free values (DESIGN CHOICE, entry
19). -/
def startRun (p : Config.Params) (kind : RunKind) (s : State) : Outcome :=
  memRead .ibuf 0 s.ilen s fun input =>
    match p.lzPreamble input with
    | none => endFail p kind .preamble 0 s
    | some pre =>
      if input.length < pre.start then endFail p kind .preamble 0 s
      else .next { s.emptyObuf with
        run := some kind
        src := pre.start
        fcnt := 8
        flg := Config.freeFlg s.draws
        lim := pre.limit
        clen := Config.freeClen s.draws
        cdist := (Config.freeCdist p.aw s.draws).toNat
        draws := s.draws + 1 }

/-- A stream element acts inside a run (R2, R60, entry 10). -/
def inRun (s : State) (act : RunKind → Outcome) : Outcome :=
  match s.run with
  | some kind => act kind
  | none => .refused .elementOutsideRun

/-- `MemWrite(OBUF, OLEN, 1, [b]); OLEN <- OLEN + 1` (R42). -/
def State.appendByte (b : Byte) (s : State) : State :=
  { s with obuf := s.obuf.writeByte s.olen b, olen := s.olen + 1 }

/-- The copy (R117): one byte at a time, each read `CDIST` bytes before the current end, the capacity tested before each
(R120). `CLEN` counts down to 0, and after the copy `CLEN` stays 0 and `CDIST` the distance, which R16 leaves open (DEDUCED:
nothing writes them until the next copy; entry 19). -/
def copyBytes (p : Config.Params) : Nat → State → Outcome
  | 0, s => .next s
  | n + 1, s =>
    if s.olen = p.ocap then endOverflow p s
    else
      match s.obuf.readByte (s.olen - s.cdist) with
      | none => .fault (.noValue .obuf (s.olen - s.cdist))
      | some v => copyBytes p n { s.appendByte v with clen := n }

/-- `LIT b` under the parameters `p` (R115). -/
def litIn (p : Config.Params) (b : Byte) (s : State) : Outcome :=
  inRun s fun _ =>
    if s.olen = p.ocap then endOverflow p s
    else .next { s.appendByte b with src := s.src + 1 }

/-- `REF length, distance` under the parameters `p` (R116): `TRUNCATED`, then `BAD_DISTANCE`, then `OVERRUN`, then capacity
during the copy. -/
def refIn (p : Config.Params) (length distance : Nat) (s : State) : Outcome :=
  inRun s fun kind =>
    if s.ilen < s.src + 2 then endFail p kind .truncated s.src s
    else if distance = 0 ∨ s.olen < distance then endFail p kind .badDistance s.src s
    else if overruns s.lim (s.olen + length) then endFail p kind .overrun s.src s
    else copyBytes p length
      { s with src := s.src + 2, clen := length, cdist := distance }

/-- FLAGS (R114). -/
def execFlags (f : Byte) (s : State) : Outcome :=
  inRun s fun _ => .next { s with flg := f, src := s.src + 1, fcnt := 0 }

/-- LIT (R115). -/
def execLit (b : Byte) (s : State) : Outcome := litIn sdb b s

/-- REF (R116, R117). -/
def execRef (length distance : Nat) (s : State) : Outcome := refIn sdb length distance s

end Sys2Proof.Machine
end

