-- ==== Sys2Proof/Machine/Dispatch.lean ====
section
/-! DEFINITION. One arm per instruction. -/

namespace Sys2Proof.Machine

def exec (i : Instr) (s : State) : Host.Outcome State Fault Refusal :=
  match i with
  -- buffer control (45_control.md)
  | .load data => Sys2Proof.Machine.execLoad data s
  | .adopt => Sys2Proof.Machine.execAdopt s
  -- BSQ (42_bytestream.md)
  | .rdb k => Sys2Proof.Machine.execRdb k s
  | .rda n => Sys2Proof.Machine.execRda n s
  | .rdu32 => Sys2Proof.Machine.execRdu32 s
  | .rdstr w => Sys2Proof.Machine.execRdstr w s
  | .ska t => Sys2Proof.Machine.execSka t s
  | .skr a => Sys2Proof.Machine.execSkr a s
  -- BFX (41_bitfield.md)
  | .pkbits byte lo hi => Sys2Proof.Machine.execPkbits byte lo hi s
  | .pkbit byte k => Sys2Proof.Machine.execPkbit byte k s
  -- CRC (44_crc32.md)
  | .crcrd k => Sys2Proof.Machine.execCrcrd k s
  | .crcvf x => Sys2Proof.Machine.execCrcvf x s
  -- LZD (43_lzss.md)
  | .decomp => Sys2Proof.Machine.execDecomp s
  | .decompif => Sys2Proof.Machine.execDecompif s
  | .flags f => Sys2Proof.Machine.execFlags f s
  | .lit b => Sys2Proof.Machine.execLit b s
  | .ref length distance => Sys2Proof.Machine.execRef length distance s

end Sys2Proof.Machine
end

