-- ==== Sys2Proof/Machine/Fetch.lean ====
section
/-! DEFINITION. Where an instruction comes from: a command from the host's port (45_control.md R150), an element of the stream
from IBUF at SRC (43_lzss.md R113), and the reset input (70_reset_and_hazards.md R200). -/

namespace Sys2Proof.Machine

/-- What runs an instruction: `exec`, or its form under other parameter values. -/
abbrev Executor := Instr → State → Outcome

/-- The reset input is asserted (R200): whatever the block was doing is abandoned, every register and memory takes its reset
value, and the transient registers are unspecified (free values, entry 3). The host's further inputs are not the block's
state and stay (entry 17). -/
def assertReset (p : Config.Params) (s : State) : State :=
  ({ State.resetIn p with port := s.port, draws := s.draws } : State).leaveRun p

/-- A presented command, as `step(c)` of R150: a legal command is executed (its meaning holds the faulted-state refusal);
an illegal word is refused while faulted and raises `IllegalCommand(op, 0)` otherwise (R65, R185); what is no word of
`40 + AW` bits, or comes with a data phase of the wrong length, has no meaning (R61, R66, entry 9). -/
def issue (p : Config.Params) (run : Executor) (word : Nat) (data : List Byte) (s : State) : Outcome :=
  match decodeIn p (.command word data) with
  | .ok i => run i s
  | .error (.illegalCommand op) => ifReady s (raise .illegalCommand op.toNat 0)
  | .error .wordWidth => .refused .wordWidth
  | .error .dataPhase => .refused .dataPhase
  | .error .elementLength => .refused .elementLength

/-- How many bytes an element of each kind has (R72). -/
def ElementKind.size : ElementKind → Nat
  | .flags => 1
  | .lit => 1
  | .ref => 2

/-- One pass of the run loop (R113): the end tests, then exactly one stream element, decoded from `IBUF` at `SRC` and
executed after its flag bit has been consumed. A token of which only one byte is present is `TRUNCATED` (R116). -/
def pass (p : Config.Params) (run : Executor) (kind : RunKind) (s : State) : Outcome :=
  if limitReached s.lim s.olen then endOk p kind s
  else if s.src = s.ilen then
    match s.lim with
    | none => endOk p kind s
    | some _ => endFail p kind .truncated s.src s
  else if s.ilen < s.src + ElementKind.size (nextKind p s) then endFail p kind .truncated s.src s
  else memRead .ibuf s.src (ElementKind.size (nextKind p s)) s fun bytes =>
    match decodeIn p (.element (nextKind p s) bytes) with
    | .ok i => run i (consumeFlag s)
    | .error _ => .refused .elementLength

/-- The step relation, over the parameters, what runs an instruction, and what the host does next, which are no state of the
block (R23). The reset input comes first; inside a run one pass of its loop is made (the host can issue nothing then, R19,
and an input given there is not taken); otherwise the command is executed (R150), and without one the block waits (R200,
entry 1). -/
def stepWith (p : Config.Params) (run : Executor) (input : Option HostInput) (s : State) : Outcome :=
  match input with
  | some .reset => .next (assertReset p s)
  | some (.command word data) =>
    match s.run with
    | some kind => pass p run kind s
    | none => issue p run word data s
  | none =>
    match s.run with
    | some kind => pass p run kind s
    | none => .next s

/-- One step of the machine: the step relation at the machine's parameters, its input taken from the head of the port (entry
1). A command waits there while a run is in progress. -/
def advance (s : State) : Outcome :=
  match s.port with
  | [] => stepWith sdb exec none s
  | .reset :: rest => stepWith sdb exec (some .reset) { s with port := rest }
  | .command word data :: rest =>
    match s.run with
    | some _ => stepWith sdb exec none s
    | none => stepWith sdb exec (some (.command word data)) { s with port := rest }

/-- A flag byte whose every bit selects a back-reference. -/
def allRefs (p : Config.Params) : Byte := if p.refBit then 0xFF else 0x00

/-- The state whose next step fetches the encoding `e` (entry 11): a command is put before every other input of the port,
outside a run; a stream element stands at `SRC` = 0 of the input buffer, inside a run of `DECOMP`, with the flag state that
selects its kind. -/
def placeEncoded (e : Encoded) (s : State) : State :=
  match e with
  | .command word data => { s with run := none, port := .command word data :: s.port }
  | .element kind bytes =>
    { s with
      ibuf := Memory.ofBytes bytes
      ilen := bytes.length
      src := 0
      lim := none
      fcnt := match kind with
        | .flags => 8
        | .lit => 0
        | .ref => 0
      flg := match kind with
        | .flags => s.flg
        | .lit => ~~~ allRefs sdb
        | .ref => allRefs sdb
      run := some .decomp
      port := [] }

/-- The state whose next step fetches the table word `w` of `nbits` bits (entry 11). -/
def placeWord (s : State) (nbits w : Nat) : State :=
  match tableEncoded nbits w with
  | some e => placeEncoded e s
  | none => s

end Sys2Proof.Machine
end

