-- ==== Sys2Proof/Machine/Relation.lean ====
section
/-! DEFINITION. The instructions and the step relation under any parameter values (00_scope.md R5, 10_state.md R23). -/

namespace Sys2Proof.Machine

/-- The instruction `i` under the parameters `p`; `exec` is this at the defaults. -/
def execIn (p : Config.Params) (i : Instr) (s : State) : Outcome :=
  match i with
  | .load data => loadIn p data s
  | .adopt => adoptIn p s
  | .rdb k => execRdb k s
  | .rda n => execRda n s
  | .rdu32 => execRdu32 s
  | .rdstr w => rdstrIn p w s
  | .ska t => execSka t s
  | .skr a => skrIn p a s
  | .pkbits byte lo hi => pkbitsIn p byte lo hi s
  | .pkbit byte k => pkbitIn p byte k s
  | .crcrd k => crcrdIn p k s
  | .crcvf x => execCrcvf x s
  | .decomp => expandIn p .decomp s
  | .decompif => expandIn p .decompif s
  | .flags f => execFlags f s
  | .lit b => litIn p b s
  | .ref length distance => refIn p length distance s

/-- The step relation of R150 (inside a run, one pass of R113): its parameters and the host's next input are arguments (R23). -/
def stepIn (p : Config.Params) (input : Option HostInput) (s : State) : Outcome :=
  stepWith p (execIn p) input s

end Sys2Proof.Machine
end

