-- ==== Sys2Proof/Machine/Sequences.lean ====
section
/-! DEFINITION. The host sequences of 46_host_sequences.md: programs of the host that drive the block command by command. They are
no part of the block's step (R160); each command goes through `execIn`. -/

namespace Sys2Proof.Machine

/-- Why a host sequence ends without a result. -/
inductive HostError where
  /-- An error code of R181: a command's, or the host's own `BadMagic`, 1. -/
  | code (c : BitVec 4)
  /-- An error of the host's own, outside R181: what an open error parameter may name (U13). -/
  | other (n : Nat)
  /-- A command did not answer a next state with a status; no sequence below reaches it from a state that meets the invariant. -/
  | stopped
  deriving DecidableEq, Repr

/-- A host sequence: it changes the block's state by commands and ends in a result or the first error (R160). -/
abbrev HostM := ExceptT HostError (StateM State)

/-- The outcome of one command as the host sees it: the result, or the returned code, on which the sequence stops (R160). -/
def issueCommand (p : Config.Params) (i : Instr) : HostM Result := fun s =>
  match execIn p i s with
  | .next t =>
    match t.status with
    | some (.ok r) => (.ok r, t)
    | some (.err c) => (.error (.code c), t)
    | none => (.error .stopped, t)
  | .fault _ => (.error .stopped, s)
  | .refused _ => (.error .stopped, s)

/-- The host's read of a register or memory between commands (R20). -/
def hostRead {α : Type} (f : State → α) : HostM α := fun s => (.ok (f s), s)

/-- The sequence ends with an error of its own. -/
def hostFail {α : Type} (e : HostError) : HostM α := fun s => (.error e, s)

/-- A command whose result is a word. -/
def issueWord (p : Config.Params) (i : Instr) : HostM Word := do
  match ← issueCommand p i with
  | .word v => pure v
  | .unit => hostFail .stopped
  | .bytes _ => hostFail .stopped

/-- A command whose result is a byte list. -/
def issueBytes (p : Config.Params) (i : Instr) : HostM (List Byte) := do
  match ← issueCommand p i with
  | .bytes s => pure s
  | .unit => hostFail .stopped
  | .word _ => hostFail .stopped

/-- A command run for its effect. -/
def issueUnit (p : Config.Params) (i : Instr) : HostM Unit := do
  let _ ← issueCommand p i
  pure ()

/-! ## The container (R161 to R167) -/

/-- `has_magic`: at least 4 bytes and the tag at index 0, read by the host (R162). -/
def hasMagic (p : Config.Params) (s : State) : Bool :=
  decide (4 ≤ s.ilen) && (s.ibuf.read 0 4 == some p.magic)

/-- Step 1 (R162): the magic, and decompression when it is absent. -/
def openContainer (p : Config.Params) (buf : List Byte) : HostM Unit := do
  issueUnit p (.load buf)
  if ← hostRead (hasMagic p) then pure ()
  else
    issueUnit p .decomp
    issueUnit p .adopt
    if ← hostRead (hasMagic p) then pure () else hostFail (.code 1)

/-- A block header (R161, R163). -/
structure BlockHeader where
  offset : Word
  size : Word
  checksum : Word
  name : List Byte
  deriving DecidableEq, Repr

/-- One header at the cursor (R163). -/
def readHeader (p : Config.Params) : HostM BlockHeader := do
  let offset ← issueWord p .rdu32
  let size ← issueWord p .rdu32
  let checksum ← issueWord p .rdu32
  let name ← issueBytes p (.rdstr 8)
  pure ⟨offset, size, checksum, name⟩

/-- `n` headers (R163). -/
def readHeaders (p : Config.Params) : Nat → HostM (List BlockHeader)
  | 0 => pure []
  | n + 1 => do
    let h ← readHeader p
    let rest ← readHeaders p n
    pure (h :: rest)

/-- One payload, read and verified at once (R164, R206). -/
def readPayload (p : Config.Params) (h : BlockHeader) : HostM (List Byte) := do
  issueUnit p (.ska h.offset.toNat)
  let payload ← issueBytes p (.crcrd h.size.toNat)
  issueUnit p (.crcvf h.checksum)
  pure payload

/-- The payloads in header order (R164). -/
def readPayloads (p : Config.Params) : List BlockHeader → HostM (List (List Byte × List Byte))
  | [] => pure []
  | h :: rest => do
    let payload ← readPayload p h
    let others ← readPayloads p rest
    pure ((h.name, payload) :: others)

/-- The container decode (R162 to R165): all headers before any payload; the result is the (name, payload) list. -/
def decodeContainer (p : Config.Params) (buf : List Byte) : HostM (List (List Byte × List Byte)) := do
  openContainer p buf
  issueUnit p (.ska 0)
  issueUnit p (.skr 4)
  let n ← issueWord p .rdu32
  issueUnit p (.skr 0x38)
  let headers ← readHeaders p n.toNat
  readPayloads p headers

/-- The generic grouping (R166): from a name to its payloads in insertion order. A function of the name, so that nothing can
depend on an order of distinct names (U11). -/
def groupings (blocks : List (List Byte × List Byte)) (name : List Byte) : List (List Byte) :=
  (blocks.filter (fun b => b.1 == name)).map Prod.snd

/-- Entry point: container bytes to groupings (R167). -/
def decodeGroupings (p : Config.Params) (buf : List Byte) : HostM (List Byte → List (List Byte)) := do
  let blocks ← decodeContainer p buf
  pure (groupings blocks)

/-- The host's read of `OBUF[0..OLEN)`. -/
def readOutput : HostM (List Byte) := do
  match ← hostRead (fun s => s.obuf.read 0 s.olen) with
  | some out => pure out
  | none => hostFail .stopped

/-- Entry point `decompress(x)` (R167). -/
def decompress (p : Config.Params) (x : List Byte) : HostM (List Byte) := do
  issueUnit p (.load x)
  issueUnit p .decomp
  readOutput

/-- Entry point `decompress_if_compressed(x)` (R167). -/
def decompressIfCompressed (p : Config.Params) (x : List Byte) : HostM (List Byte) := do
  issueUnit p (.load x)
  issueUnit p .decompif
  readOutput

/-! ## Record decoders (R168 to R170) -/

/-- One stroke (R170); `x` and `y` are unsigned bytes. -/
structure Stroke where
  x : Byte
  y : Byte
  draw : Bool
  color : BitVec 3
  effect3d : Bool
  bold : Bool
  deriving DecidableEq, Repr

/-- The host's `(high << 4) or low`, an 8-bit result (R170). -/
def joinNibbles (high low : Word) : Byte := ((high <<< 4) ||| low).setWidth 8

/-- The stroke decoder (R170), literally: the low nibble of `b1` is used twice. -/
def decodeStroke (p : Config.Params) (b0 b1 b2 b3 : Byte) : HostM Stroke := do
  let xh ← issueWord p (.pkbits b2 0 3)
  let xl ← issueWord p (.pkbits b1 0 3)
  let yh ← issueWord p (.pkbits b1 0 3)
  let yl ← issueWord p (.pkbits b0 0 3)
  let draw ← issueWord p (.pkbit b2 6)
  let color ← issueWord p (.pkbits b3 0 2)
  let effect3d ← issueWord p (.pkbit b3 5)
  let bold ← issueWord p (.pkbit b3 4)
  pure ⟨joinNibbles xh xl, joinNibbles yh yl, draw == 1, color.setWidth 3, effect3d == 1, bold == 1⟩

/-- One stroke record at the cursor (R169). -/
def readStroke (p : Config.Params) : HostM Stroke := do
  match ← issueBytes p (.rda 4) with
  | [b0, b1, b2, b3] => decodeStroke p b0 b1 b2 b3
  | _ => hostFail .stopped

/-- `n` strokes, in drawing order (R169). -/
def readStrokes (p : Config.Params) : Nat → HostM (List Stroke)
  | 0 => pure []
  | n + 1 => do
    let s ← readStroke p
    let rest ← readStrokes p n
    pure (s :: rest)

/-- The sheet decoder (R169). -/
def decodeSheet (p : Config.Params) (payload : List Byte) : HostM (List Stroke) := do
  issueUnit p (.load payload)
  issueUnit p (.skr 4)
  let count ← issueWord p .rdu32
  issueUnit p (.ska 0x40)
  readStrokes p count.toNat

/-- What the Letter assembler takes as arguments (R168): the open names and span width (D26, U14), the external decoders
(U15), the errors that a too short profile payload and a failing profile decoder report (U13), whether the host takes the profile span by
commands, and which of repeated singleton blocks wins (U12). Nothing is assumed of any of them (entry 15). -/
structure LetterParams (π σ : Type) where
  nameThumb : List Byte
  nameMii : List Byte
  nameStationery : List Byte
  nameSheet : List Byte
  miiSpan : Nat
  profile : List Byte → Option π
  stationery : List Byte → (List Byte → List (List Byte)) → Option σ
  /-- The span is taken by `LOAD payload ; RDA MII_SPAN`; otherwise by the host from its own copy of the payload. -/
  spanByCommands : Bool
  /-- The error of a too short payload when the span is taken without a command. -/
  shortProfile : HostError
  failedProfile : HostError
  lastProfileWins : Bool
  lastStationeryWins : Bool

/-- The Letter (R168). Absent optional parts are `none`. -/
structure Letter (π σ : Type) where
  thumbnails : List (List Byte)
  profile : Option π
  /-- `none` when there is no stationery block; else what the external decoder made of it, a descriptor or nothing. -/
  stationery : Option (Option σ)
  sheets : List (List Stroke)
  groups : List Byte → List (List Byte)

/-- Of what an earlier block gave, if there was one, and what a new block gives, the one that is kept (U12). -/
def keepPart {α : Type} (lastWins : Bool) (old : Option α) (new : α) : Option α :=
  match old with
  | none => some new
  | some v => some (if lastWins then new else v)

/-- The payload's first `MII_SPAN` bytes (R168). The rule leaves open how the host takes them (DESIGN CHOICE, entry 15: both ways
are modelled): by commands the payload becomes the input buffer and a too short one is the block's `UnexpectedEof`; by the
host's own copy the block is neither loaded nor faulted, and a too short payload ends with the open error. -/
def takeSpan {π σ : Type} (p : Config.Params) (q : LetterParams π σ) (payload : List Byte) : HostM (List Byte) := do
  if q.spanByCommands then
    issueUnit p (.load payload)
    issueBytes p (.rda q.miiSpan)
  else if payload.length < q.miiSpan then hostFail q.shortProfile
  else pure (payload.take q.miiSpan)

/-- The dispatch of one block on its name (R168); an unknown name is no error. -/
def assembleBlock {π σ : Type} (p : Config.Params) (q : LetterParams π σ) (letter : Letter π σ)
    (block : List Byte × List Byte) : HostM (Letter π σ) := do
  if block.1 = q.nameThumb then
    pure { letter with thumbnails := letter.thumbnails ++ [block.2] }
  else if block.1 = q.nameMii then do
    let span ← takeSpan p q block.2
    match q.profile span with
    | none => hostFail q.failedProfile
    | some v => pure { letter with profile := keepPart q.lastProfileWins letter.profile v }
  else if block.1 = q.nameStationery then
    pure { letter with
      stationery := keepPart q.lastStationeryWins letter.stationery (q.stationery block.2 letter.groups) }
  else if block.1 = q.nameSheet then do
    let sheet ← decodeSheet p block.2
    pure { letter with sheets := letter.sheets ++ [sheet] }
  else pure letter

/-- The blocks in list order (R168). -/
def assembleBlocks {π σ : Type} (p : Config.Params) (q : LetterParams π σ) :
    List (List Byte × List Byte) → Letter π σ → HostM (Letter π σ)
  | [], letter => pure letter
  | b :: rest, letter => do
    let next ← assembleBlock p q letter b
    assembleBlocks p q rest next

/-- The Letter assembler (R168). -/
def assembleLetter {π σ : Type} (p : Config.Params) (q : LetterParams π σ) (blocks : List (List Byte × List Byte)) :
    HostM (Letter π σ) :=
  assembleBlocks p q blocks ⟨[], none, none, [], groupings blocks⟩

/-- Entry point: container bytes to a Letter (R167). -/
def decodeLetter {π σ : Type} (p : Config.Params) (q : LetterParams π σ) (buf : List Byte) : HostM (Letter π σ) := do
  let blocks ← decodeContainer p buf
  assembleLetter p q blocks

end Sys2Proof.Machine
end

