-- ==== Sys2Proof/Safety.lean ====
section
/-! DEFINITION. The invariant of the machine (10_state.md R22) and what a safe step is. -/

namespace Sys2Proof.Machine

/-- The memory holds a value at exactly the indices `0` to `n - 1` (R11, R12, R24), in its canonical form. -/
abbrev Memory.Filled (m : Memory) (n : Nat) : Prop := m.map Prod.fst = List.range n

/-- The codes `ERR` can hold (R21; code 1 is never written by the block). -/
def legalErr : List (BitVec 4) := [0, 2, 3, 4, 5, 6, 7]

/-- The invariants of R22 and R21 under the parameters `p`, and those of a run in progress (R14, R16, R113): nothing is faulted
inside a run, `SRC` has not passed the end of the input, and the output has not passed an exact length. With `Params.Ok`
every position and length register fits its `AW` bits (R21). -/
structure State.InvIn (p : Config.Params) (s : State) : Prop where
  ibuf_filled : s.ibuf.Filled s.ilen
  obuf_filled : s.obuf.Filled s.olen
  pos_le : s.pos ≤ s.ilen
  ilen_le : s.ilen ≤ p.icap
  olen_le : s.olen ≤ p.ocap
  rlen_eq : s.rlen = s.rbytes.length
  rlen_le : s.rlen ≤ p.icap
  err_legal : s.err ∈ legalErr
  src_lt : s.src < 2 ^ p.aw
  lim_lt : ∀ l ∈ s.lim, l < 2 ^ p.aw
  cdist_lt : s.cdist < 2 ^ p.aw
  run_ready : s.run ≠ none → s.err = 0
  run_src : s.run ≠ none → s.src ≤ s.ilen
  run_lim : s.run ≠ none → overruns s.lim s.olen = false

/-- The invariant of the machine. -/
abbrev State.Inv (s : State) : Prop := s.InvIn sdb

/-- The bytes of the input buffer, index order (`IBUF[0..ILEN)` in a state that meets the invariant). -/
def State.input (s : State) : List Byte := s.ibuf.map Prod.snd

/-- The bytes of the output buffer, index order (`OBUF[0..OLEN)` in a state that meets the invariant). -/
def State.output (s : State) : List Byte := s.obuf.map Prod.snd

/-- The outcome is no fault: no byte without a value was read (R24, R41). -/
def Outcome.safe : Outcome → Bool
  | .next _ => true
  | .fault _ => false
  | .refused _ => true

end Sys2Proof.Machine
end

