-- ==== Sys2Proof/Certificates/Slice0/Obligations.lean ====
section
/-! DEFINITION. The statements for the provers, each from the numbered rules of spec/. -/

namespace Sys2Proof.Spec

open Sys2Proof.Machine

/-- `s` after `raise E(a, b)` with code `c`, and nothing else changed (R184): the two context words modulo 2^32. -/
def raised (s : State) (c : BitVec 4) (a b : Nat) : State :=
  { s with err := c, erra := BitVec.ofNat 32 a, errb := BitVec.ofNat 32 b, status := some (.err c) }

/-- `t` holds exactly the output `out`: `OLEN` is its length, index `j` holds `out[j]`, no other index holds a value. -/
def HoldsOutput (t : State) (out : List Byte) : Prop :=
  t.olen = out.length ∧ ∀ j, t.obuf.readByte j = out[j]?

/-- What DECOMP and DECOMPIF never write (R110, R122, R123); no run is in progress after them. -/
def OutsideLzdKept (s t : State) : Prop :=
  (∀ a, t.ibuf.readByte a = s.ibuf.readByte a) ∧ t.ilen = s.ilen ∧ t.pos = s.pos ∧ t.rbytes = s.rbytes ∧
  t.rlen = s.rlen ∧ t.crcacc = s.crcacc ∧ t.port = s.port ∧ t.run = none

/-- The bytes of a read at `POS` of `n` bytes (R41). -/
def BytesAtCursor (s : State) (n : Nat) (bytes : List Byte) : Prop :=
  bytes.length = n ∧ ∀ j, j < n → s.ibuf.readByte (s.pos + j) = bytes[j]?

/-- No reset is asserted. -/
def NoReset (s : State) : Prop := ∀ rest, s.port ≠ .reset :: rest

/-- `s` and `t` differ at most in the LZD transient registers and the free-value counter, and neither is inside a run. -/
def SameForHost (s t : State) : Prop :=
  s.run = none ∧
  t = { s with src := t.src, flg := t.flg, fcnt := t.fcnt, lim := t.lim, clen := t.clen, cdist := t.cdist,
               draws := t.draws }

/-- What the host sees of an outcome. -/
def viewOf : Outcome → Host.Outcome HostView Fault Refusal
  | .next t => .next t.hostView
  | .fault f => .fault f
  | .refused r => .refused r

/-- The mnemonic a decoded word stands for. -/
def headerMnemonic : Header → String
  | .load _ => "LOAD"
  | .plain i => mnemonic i

/-- The rows of the table of R95: the range of each byte of a sequence. -/
def utf8Table : List (List (Nat × Nat)) :=
  [[(0x00, 0x7F)],
   [(0xC2, 0xDF), (0x80, 0xBF)],
   [(0xE0, 0xE0), (0xA0, 0xBF), (0x80, 0xBF)],
   [(0xE1, 0xEC), (0x80, 0xBF), (0x80, 0xBF)],
   [(0xED, 0xED), (0x80, 0x9F), (0x80, 0xBF)],
   [(0xEE, 0xEF), (0x80, 0xBF), (0x80, 0xBF)],
   [(0xF0, 0xF0), (0x90, 0xBF), (0x80, 0xBF), (0x80, 0xBF)],
   [(0xF1, 0xF3), (0x80, 0xBF), (0x80, 0xBF), (0x80, 0xBF)],
   [(0xF4, 0xF4), (0x80, 0x8F), (0x80, 0xBF), (0x80, 0xBF)]]

/-- `q` is a sequence of the table of R95. -/
def Utf8Sequence (q : List Byte) : Prop :=
  ∃ row ∈ utf8Table, List.Forall₂ (fun (r : Nat × Nat) (b : Byte) => r.1 ≤ b.toNat ∧ b.toNat ≤ r.2) row q

/-- One message bit into a bit-serial CRC register: the bit is compared with the bit shifted out. -/
def crcBit (poly c : Word) (bit : Bool) : Word :=
  if c.msb != bit then (c <<< 1) ^^^ poly else c <<< 1

/-- The bits of a byte, most significant first. -/
def bitsMsbFirst (b : Byte) : List Bool := [7, 6, 5, 4, 3, 2, 1, 0].map b.getLsbD

/-- The errors each command can raise on a legal word (R182); its own codes, 0 for none. -/
def raisable : Instr → List (BitVec 4)
  | .load _ => [7]
  | .adopt => [7]
  | .rdb _ => [3]
  | .rda _ => [3]
  | .rdu32 => [3]
  | .rdstr _ => [3, 4]
  | .ska _ => [3]
  | .skr _ => [3]
  | .pkbits _ _ _ => []
  | .pkbit _ _ => []
  | .crcrd _ => [3]
  | .crcvf _ => [2]
  | .decomp => [5, 7]
  | .decompif => [7]
  | .flags _ => []
  | .lit _ => [7]
  | .ref _ _ => [5, 7]

/-- The four bytes of a little-endian word. -/
def leBytes (n : Nat) : List Byte :=
  [BitVec.ofNat 8 n, BitVec.ofNat 8 (n / 2 ^ 8), BitVec.ofNat 8 (n / 2 ^ 16), BitVec.ofNat 8 (n / 2 ^ 24)]

/-- A name padded with nulls to 8 bytes (R161). -/
def padName (name : List Byte) : List Byte := name ++ List.replicate (8 - name.length) 0

/-- The headers of blocks whose payloads lie one after the other from `offset` on (R161). -/
def buildHeaders (offset : Nat) : List (List Byte × List Byte) → List Byte
  | [] => []
  | (name, payload) :: rest =>
    leBytes offset ++ leBytes payload.length ++ leBytes (crc32v sdb payload).toNat ++ padName name ++
      buildHeaders (offset + payload.length) rest

/-- A container built by hand from blocks (R161): magic, count, 56 reserved bytes, headers, payloads. -/
def buildContainer (blocks : List (List Byte × List Byte)) : List Byte :=
  [0x42, 0x50, 0x4B, 0x31] ++ leBytes blocks.length ++ List.replicate 0x38 0 ++
    buildHeaders (0x40 + 20 * blocks.length) blocks ++ blocks.flatMap Prod.snd

/-- The values R200 and R21 give the registers, with no byte of either memory readable (R24). -/
def ResetValues (t : State) : Prop :=
  t.ilen = 0 ∧ t.pos = 0 ∧ t.olen = 0 ∧ t.res = 0 ∧ t.rbytes = [] ∧ t.rlen = 0 ∧ t.crcacc = 0x04C11DB7 ∧ t.err = 0 ∧
  t.erra = 0 ∧ t.errb = 0 ∧ ∀ a, t.ibuf.readByte a = none ∧ t.obuf.readByte a = none

/-- An illegal command word of the default `AW` (R65): (a) an `op` that is none of the 14, (b) a reserved bit of its format that
is 1 (R62), or (c) `PKBITS` with `lo > hi`. -/
def IllegalWord (w : Nat) : Prop :=
  opField sdb w ∉ [0x10, 0x11, 0x20, 0x21, 0x22, 0x23, 0x24, 0x25, 0x30, 0x31, 0x40, 0x41, 0x50, 0x51] ∨
  (opField sdb w ∈ [0x11, 0x22, 0x50, 0x51] ∧ (aField sdb w ≠ 0 ∨ bField w ≠ 0)) ∨
  (opField sdb w ∈ [0x10, 0x20, 0x21, 0x23, 0x24, 0x25, 0x40, 0x41] ∧ bField w ≠ 0) ∨
  (opField sdb w = 0x30 ∧ aField sdb w ≥ 2 ^ 8) ∨
  (opField sdb w = 0x30 ∧ ((bField w).getLsbD 3 = true ∨ (bField w).toNat ≥ 2 ^ 7)) ∨
  (opField sdb w = 0x31 ∧ (aField sdb w ≥ 2 ^ 8 ∨ (bField w).toNat ≥ 2 ^ 3)) ∨
  (opField sdb w = 0x30 ∧ (bField w).extractLsb' 4 3 < (bField w).extractLsb' 0 3)

/-- The command `i` succeeds in `s`: its status is `ok`, and the block is not faulted after it. -/
def Succeeds (i : Instr) (s : State) : Prop :=
  ∃ t r, exec i s = .next t ∧ t.status = some (.ok r) ∧ t.err = 0

/-- The commands of BSQ (R90). -/
def isByteStream (i : Instr) : Bool := ["RDB", "RDA", "RDU32", "RDSTR", "SKA", "SKR"].contains (mnemonic i)

end Sys2Proof.Spec

open Sys2Proof Sys2Proof.Machine Sys2Proof.Spec

/-! ## Reset, the step, the invariant -/

/-- R200: the state after reset; asserting the reset input, between commands or inside a run, abandons what the block was doing
and leaves the same values; and `LOAD []` differs from it only in keeping `RES`, `RBYTES`, `RLEN`. -/
def Obligations.ResetLeavesEmptyUnfaultedBlock : Prop :=
  ResetValues State.reset ∧ State.reset.run = none ∧
  (∀ (s : State) (rest : List HostInput), s.port = .reset :: rest →
    ∃ t, step s = .next t ∧ ResetValues t ∧ t.run = none) ∧
  (∀ s : State, ∃ t, exec (.load []) s = .next t ∧ ResetValues { t with res := 0, rbytes := [], rlen := 0 } ∧
    t.res = s.res ∧ t.rbytes = s.rbytes ∧ t.rlen = s.rlen)

/-- After an asserted reset the host sees what it sees of the state after reset, the status included (R200); that the status is
then none and that the host's further inputs stay is the model's choice (entries 1, 2). -/
def Obligations.ResetInputIsSeenAsReset : Prop :=
  ∀ (s : State) (rest : List HostInput), s.port = .reset :: rest →
    ∃ t, step s = .next t ∧ t.hostView = State.reset.hostView ∧ t.port = rest

/-- R201: the state after reset is that of a decode call over the empty buffer: what succeeds there, and what raises
`UnexpectedEof`. -/
def Obligations.EmptyBufferAfterReset : Prop :=
  (∃ t, exec (.load []) State.reset = .next t ∧ { t with status := State.reset.status } = State.reset) ∧
  (∀ i ∈ [.rdb 0, .rda 0, .rdstr 0, .ska 0, .skr 0, .crcrd 0, .adopt, .decomp, .decompif, .crcvf 0x04C11DB7],
    Succeeds i State.reset) ∧
  (∀ (byte : Byte) (lo hi : BitVec 3), lo ≤ hi → Succeeds (.pkbits byte lo hi) State.reset) ∧
  (∀ (byte : Byte) (k : BitVec 3), Succeeds (.pkbit byte k) State.reset) ∧
  (∀ i ∈ [Instr.adopt, .decomp, .decompif], ∀ t, exec i State.reset = .next t → t.ilen = 0 ∧ t.olen = 0) ∧
  (∀ t, exec .decompif State.reset = .next t → t.res = 1) ∧
  (∀ (k : Word) (i : Instr), k ≠ 0 →
    i ∈ [.rdb k.toNat, .rda k.toNat, .rdstr k.toNat, .crcrd k.toNat, .ska k.toNat, .skr k.toNat, .rdu32] →
    ∃ t, exec i State.reset = .next t ∧ t.err = 3 ∧ t.status = some (.err 3))

/-- R22: the invariants hold after reset. -/
def Obligations.ResetMeetsInvariant : Prop := State.reset.Inv

/-- R22: every step keeps the invariants, from every state that meets them. -/
def Obligations.StepKeepsInvariant : Prop :=
  ∀ s t : State, s.Inv → step s = .next t → t.Inv

/-- The canonical form of both memories is kept by every step, from every state in which they have it. -/
def Obligations.StepKeepsMemoriesCanonical : Prop :=
  ∀ s t : State, s.ibuf.wf → s.obuf.wf → step s = .next t → t.ibuf.wf ∧ t.obuf.wf

/-- R24, R41: no step from a state that meets the invariant reads a byte that holds no value. -/
def Obligations.NoStepReadsOutsideTheBuffers : Prop :=
  ∀ (s : State) (f : Fault), s.Inv → step s ≠ .fault f

/-- R150: outside a run the step is the command at the head of the port, its word taken from the port. -/
def Obligations.StepExecutesThePresentedCommand : Prop :=
  ∀ (s : State) (word : Nat) (data : List Byte) (rest : List HostInput) (i : Instr),
    s.run = none → s.port = .command word data :: rest → decode (.command word data) = .ok i →
    step s = exec i { s with port := rest }

/-- R23, R150: the step is the step relation at the machine's parameters, its input the head of the port (entry 1), where a
command waits while a run is in progress. -/
def Obligations.StepIsTheRelationAtTheDefaults : Prop :=
  ∀ s : State,
    (∀ rest, s.port = .reset :: rest → step s = stepIn sdb (some .reset) { s with port := rest }) ∧
    (∀ word data rest, s.port = .command word data :: rest → s.run = none →
      step s = stepIn sdb (some (.command word data)) { s with port := rest }) ∧
    ((∀ rest, s.port ≠ .reset :: rest) → (s.port = [] ∨ s.run ≠ none) → step s = stepIn sdb none s)

/-- R5, R22, R23: under any legal parameter values, `AW` among them, whatever the host does next, the step relation keeps the
invariant; and no step reads a byte that holds no value. -/
def Obligations.RelationKeepsInvariant : Prop :=
  ∀ (p : Config.Params) (input : Option HostInput) (s : State), p.Ok → s.InvIn p →
    (∀ t, stepIn p input s = .next t → t.InvIn p) ∧ ∀ f, stepIn p input s ≠ .fault f

/-- R113, R68, R70, R72: inside a run, before the end of the input and of an exact length, the step is the stream element at
`SRC`, executed after its flag bit is consumed. -/
def Obligations.StepExecutesTheNextStreamElement : Prop :=
  ∀ (s : State) (kind : RunKind), s.run = some kind → NoReset s → s.src ≠ s.ilen →
    (∀ l, s.lim = some l → l ≠ s.olen) →
    (∀ f, s.fcnt = 8 → s.src + 1 ≤ s.ilen → s.ibuf.readByte s.src = some f →
      step s = exec (.flags f) s) ∧
    (∀ (k : Fin 9) (b : Byte), k.val = s.fcnt.val + 1 → s.flg.getLsbD (7 - s.fcnt.val) = false →
      s.src + 1 ≤ s.ilen → s.ibuf.readByte s.src = some b →
      step s = exec (.lit b) { s with fcnt := k }) ∧
    (∀ (k : Fin 9) (t0 t1 : Byte), k.val = s.fcnt.val + 1 → s.flg.getLsbD (7 - s.fcnt.val) = true →
      s.src + 2 ≤ s.ilen → s.ibuf.readByte s.src = some t0 →
      s.ibuf.readByte (s.src + 1) = some t1 →
      step s = exec (.ref (t0.toNat / 16 + 3) (t0.toNat % 16 * 256 + t1.toNat + 1)) { s with fcnt := k })

/-- R113, R118: a run whose input is exhausted at an element boundary, without an exact length, ends well; one whose exact
length is reached ends well, whatever input remains. DECOMPIF then sets `RES` to 1 (R123). -/
def Obligations.RunEndsWellAtElementBoundary : Prop :=
  ∀ (s : State) (kind : RunKind), s.run = some kind → NoReset s →
    ((s.lim = none ∧ s.src = s.ilen) ∨ s.lim = some s.olen) →
    ∃ t, step s = .next t ∧ OutsideLzdKept s t ∧ t.status = some (.ok .unit) ∧
      t.olen = s.olen ∧ (∀ a, t.obuf.readByte a = s.obuf.readByte a) ∧
      t.err = s.err ∧ t.erra = s.erra ∧ t.errb = s.errb ∧
      (kind = .decomp → t.res = s.res) ∧ (kind = .decompif → t.res = 1)

/-- R113, R118: with an exact length not yet reached, exhausted input is the failure `TRUNCATED` at `SRC`. -/
def Obligations.ExhaustedInputBeforeExactLengthFails : Prop :=
  ∀ (s : State) (l : Nat), s.run = some .decomp → NoReset s → s.lim = some l → l ≠ s.olen → s.src = s.ilen →
    ∃ t, step s = .next t ∧ OutsideLzdKept s t ∧ t.err = 5 ∧ t.erra = BitVec.ofNat 32 s.src ∧ t.errb = 2 ∧ HoldsOutput t [] ∧
      t.res = s.res ∧ t.status = some (.err 5)

/-- R14, R124 item 1: each pass of a run ends it or moves `SRC` on by 1 or 2, never past the end of the input. -/
def Obligations.RunAlwaysProgresses : Prop :=
  ∀ s t : State, s.Inv → s.run ≠ none → NoReset s → step s = .next t →
    t.run = none ∨
    (t.run = s.run ∧ s.src < t.src ∧ t.src ≤ s.src + 2 ∧ t.src ≤ t.ilen)

/-- The block waits for a command (R200); that this is a step that changes nothing is the model's choice (entry 1). -/
def Obligations.BlockWaitsForACommand : Prop :=
  ∀ s : State, s.run = none → s.port = [] → step s = .next s

/-! ## Encodings -/

/-- R61 to R70: decoding the encoding of a well-formed instruction gives it back, under any legal parameter values. -/
def Obligations.DecodeOfEncodeIsIdentity : Prop :=
  ∀ (p : Config.Params) (i : Instr), p.Ok → i.wellFormedIn p = true → decodeIn p (encodeIn p i) = .ok i

/-- Every encoding the decoder accepts is that of one well-formed instruction: nothing of it is dropped. -/
def Obligations.EncodeOfDecodeIsIdentity : Prop :=
  ∀ (e : Encoded) (i : Instr), decode e = .ok i → i.wellFormedIn sdb = true ∧ encode i = e

/-- R63, R65: the rows of the opcode map are disjoint; a word is legal exactly when it selects one of them (and, for PKBITS,
`lo ≤ hi`), and then it decodes to that row's command. -/
def Obligations.DecoderFollowsTheOpcodeMap : Prop :=
  ∀ w : CommandWord,
    (∀ r ∈ opcodeMap, ∀ r' ∈ opcodeMap, r.selects w = true → r'.selects w = true → r = r') ∧
    (∀ r ∈ opcodeMap, r.selects w = true →
      (r.mnemonic = "PKBITS" → w.extractLsb' 0 3 ≤ w.extractLsb' 4 3) →
      ∃ h, decodeWord w.toNat = some h ∧ headerMnemonic h = r.mnemonic) ∧
    ((∀ r ∈ opcodeMap, r.selects w = false) → decodeWord w.toNat = none) ∧
    (w.extractLsb' 64 8 = 0x30 → w.extractLsb' 4 3 < w.extractLsb' 0 3 → decodeWord w.toNat = none)

/-- Words of 95_test_vectors.md decode to the instructions they stand for. -/
def Obligations.WrittenWordsDecode : Prop :=
  decode (.command 0x100000000400000000 [0x42, 0x50, 0x4B, 0x31]) = .ok (.load [0x42, 0x50, 0x4B, 0x31]) ∧
  decode (.command 0x25FFFFFFFB00000000 []) = .ok (.skr 0xFFFFFFFB) ∧
  decode (.command 0x300000007800000063 []) = .ok (.pkbits 0x78 3 6) ∧
  decode (.command 0x310000005600000006 []) = .ok (.pkbit 0x56 6) ∧
  decode (.command 0x41D0EF7B5E00000000 []) = .ok (.crcvf 0xD0EF7B5E) ∧
  decode (.command 0x510000000000000000 []) = .ok .decompif ∧
  decode (.element .ref [0x20, 0x13]) = .ok (.ref 5 20) ∧
  decode (.element .flags [0x40]) = .ok (.flags 0x40) ∧
  decode (.element .lit [0x41]) = .ok (.lit 0x41)

/-- R65: an illegal command word presented to an unfaulted block raises `IllegalCommand` with `ERRA = op`, `ERRB = 0` and has
no other effect; every other word is legal. -/
def Obligations.IllegalWordRaisesIllegalCommand : Prop :=
  (∀ (s : State) (word : Nat) (data : List Byte) (rest : List HostInput),
    s.run = none → s.port = .command word data :: rest → word < 2 ^ 72 → IllegalWord word → s.err = 0 →
    step s = .next (raised { s with port := rest } 6 (opField sdb word).toNat 0)) ∧
  (∀ word : Nat, ¬ IllegalWord word → decodeWord word ≠ none)

/-! ## Errors -/

/-- R186: while faulted, every command but a legal LOAD is refused with the existing code and changes no state; so is an illegal
word. -/
def Obligations.FaultedBlockRefusesAllButLoad : Prop :=
  (∀ (i : Instr) (s : State), s.err ≠ 0 → mnemonic i ∉ ["LOAD", "FLAGS", "LIT", "REF"] →
    exec i s = .next { s with status := some (.err s.err) }) ∧
  (∀ (s : State) (word : Nat) (data : List Byte) (rest : List HostInput), s.err ≠ 0 → s.run = none →
    s.port = .command word data :: rest → word < 2 ^ 72 → IllegalWord word →
    step s = .next { s with port := rest, status := some (.err s.err) })

/-- R184, R193: a command that raises an error changes nothing but `ERR`, `ERRA`, `ERRB` and the status, but for LOAD, DECOMP,
DECOMPIF (and the elements of their runs). -/
def Obligations.ErrorsChangeNothingElse : Prop :=
  ∀ (i : Instr) (s t : State), mnemonic i ∉ ["LOAD", "DECOMP", "DECOMPIF", "FLAGS", "LIT", "REF"] → s.err = 0 →
    exec i s = .next t → t.err ≠ 0 → t = raised s t.err t.erra.toNat t.errb.toNat

/-- R182: the errors each command, given by a legal word, can raise, and no other. -/
def Obligations.CommandsRaiseOnlyTheirErrors : Prop :=
  ∀ (i : Instr) (s t : State), i.wellFormedIn sdb = true → s.err = 0 → exec i s = .next t →
    t.err = 0 ∨ t.err ∈ raisable i

/-- R10 to R13, R17, R43: which instruction writes which state; every other instruction leaves it as it was. -/
def Obligations.OnlyTheNamedInstructionsWrite : Prop :=
  ∀ (i : Instr) (s t : State), exec i s = .next t →
    (mnemonic i ∉ ["LOAD", "ADOPT"] →
      t.ilen = s.ilen ∧ ∀ a, t.ibuf.readByte a = s.ibuf.readByte a) ∧
    (mnemonic i ∉ ["LOAD", "ADOPT", "DECOMP", "DECOMPIF", "LIT", "REF"] →
      t.olen = s.olen ∧ ∀ a, t.obuf.readByte a = s.obuf.readByte a) ∧
    (mnemonic i ∉ ["LOAD", "ADOPT", "RDB", "RDA", "RDU32", "RDSTR", "SKA", "SKR", "CRCRD"] → t.pos = s.pos) ∧
    (mnemonic i ∉ ["RDU32", "PKBITS", "PKBIT", "CRCRD", "DECOMPIF", "REF"] → t.res = s.res) ∧
    (mnemonic i ∉ ["RDB", "RDA", "RDSTR", "CRCRD"] → t.rbytes = s.rbytes ∧ t.rlen = s.rlen) ∧
    (mnemonic i ∉ ["LOAD", "ADOPT", "CRCRD"] → t.crcacc = s.crcacc) ∧
    (mnemonic i ∉ ["DECOMP", "DECOMPIF", "FLAGS", "LIT", "REF"] →
      t.run = s.run ∧ t.src = s.src ∧ t.flg = s.flg ∧ t.fcnt = s.fcnt ∧ t.lim = s.lim ∧ t.clen = s.clen ∧
      t.cdist = s.cdist ∧ t.draws = s.draws) ∧
    t.port = s.port

/-- R14 to R16, R20, U2: what the host sees of a step does not depend on the transient registers outside a run. -/
def Obligations.TransientsInvisibleToHost : Prop :=
  ∀ s t : State, SameForHost s t → viewOf (step s) = viewOf (step t)

/-! ## Buffer control -/

/-- R151: LOAD, faulted or not, clears the error, takes the bytes as the new input and starts a new decode call; `RES`,
`RBYTES`, `RLEN` are kept. Over capacity it leaves an empty buffer and raises CapacityExceeded(0, ICAP). -/
def Obligations.LoadStartsANewDecodeCall : Prop :=
  (∀ (s : State) (data : List Byte), data.length < 2 ^ 32 →
    ∃ m, exec (.load data) s = .next { s with
        ibuf := m, ilen := data.length, pos := 0, obuf := [], olen := 0, crcacc := 0x04C11DB7, err := 0, erra := 0, errb := 0,
        status := some (.ok .unit) } ∧
      ∀ j, m.readByte j = data[j]?) ∧
  (∀ (p : Config.Params) (s : State) (data : List Byte), p.icap < data.length →
    loadIn p data s = .next (raised { s with
        ibuf := [], ilen := 0, pos := 0, obuf := [], olen := 0, crcacc := p.crcInit } 7 0 p.icap))

/-- R152: ADOPT makes the decompressed output the input buffer; an output that does not fit `IBUF` raises. -/
def Obligations.AdoptMakesTheOutputTheInput : Prop :=
  (∀ s : State, s.Inv → s.err = 0 →
    ∃ m, exec .adopt s = .next { s with
        ibuf := m, ilen := s.olen, pos := 0, obuf := [], olen := 0, crcacc := 0x04C11DB7,
        status := some (.ok .unit) } ∧
      ∀ a, m.readByte a = s.obuf.readByte a) ∧
  (∀ (p : Config.Params) (s : State), s.err = 0 → p.icap < s.olen →
    adoptIn p s = .next (raised s 7 0 p.icap))

/-! ## BSQ -/

/-- R91, R92: RDB and RDA read exactly `k` bytes at `POS`, or raise UnexpectedEof and change nothing else. -/
def Obligations.RdbAndRdaReadExactly : Prop :=
  ∀ (i : Instr) (k : Nat) (s : State), i = .rdb k ∨ i = .rda k → s.Inv → s.err = 0 →
    (s.pos + k ≤ s.ilen →
      ∃ bytes, BytesAtCursor s k bytes ∧
        exec i s = .next { s with
          rbytes := bytes, rlen := k, pos := s.pos + k, status := some (.ok (.bytes bytes)) }) ∧
    (s.ilen < s.pos + k → exec i s = .next (raised s 3 s.pos k))

/-- R93, R44: RDU32 reads four bytes, the lowest index least significant. -/
def Obligations.Rdu32ReadsLittleEndian : Prop :=
  ∀ s : State, s.Inv → s.err = 0 →
    (s.pos + 4 ≤ s.ilen →
      ∃ b0 b1 b2 b3 : Byte, BytesAtCursor s 4 [b0, b1, b2, b3] ∧
        exec .rdu32 s = .next { s with
          res := (b3 ++ b2 ++ b1 ++ b0 : BitVec 32), pos := s.pos + 4,
          status := some (.ok (.word (b3 ++ b2 ++ b1 ++ b0 : BitVec 32))) }) ∧
    (s.ilen < s.pos + 4 → exec .rdu32 s = .next (raised s 3 s.pos 4))

/-- R94: RDSTR delivers the text before the first null (all `W` bytes if there is none) and moves by `W`; a short read comes
before invalid text. -/
def Obligations.RdstrReadsPaddedText : Prop :=
  ∀ (w : Nat) (s : State), s.Inv → s.err = 0 →
    (s.ilen < s.pos + w → exec (.rdstr w) s = .next (raised s 3 s.pos w)) ∧
    (s.pos + w ≤ s.ilen →
      ∃ field, BytesAtCursor s w field ∧
        ∀ n, n ≤ w → (∀ j, j < n → field[j]? ≠ some 0) → (n < w → field[n]? = some 0) →
          (sdb.textValid (field.take n) = true →
            exec (.rdstr w) s = .next { s with
              rbytes := field.take n, rlen := n, pos := s.pos + w,
              status := some (.ok (.bytes (field.take n))) }) ∧
          (sdb.textValid (field.take n) = false → exec (.rdstr w) s = .next (raised s 4 s.pos w)))

/-- R95: the default `TEXT_VALID` accepts exactly the concatenations of sequences of the table. -/
def Obligations.TextValidIsWellFormedUtf8 : Prop :=
  ∀ s : List Byte, utf8Valid s = true ↔ ∃ parts : List (List Byte), s = parts.flatten ∧ ∀ q ∈ parts, Utf8Sequence q

/-- R96: SKA seeks to an absolute offset in `[0, ILEN]`, or raises UnexpectedEof(POS, T). -/
def Obligations.SkaSeeksAbsolute : Prop :=
  ∀ (t : Nat) (s : State), s.err = 0 →
    (t ≤ s.ilen → exec (.ska t) s = .next { s with pos := t, status := some (.ok .unit) }) ∧
    (s.ilen < t → exec (.ska t) s = .next (raised s 3 s.pos t))

/-- R97: SKR seeks relative to `POS` by a two's-complement delta, without wrap-around, or raises UnexpectedEof(POS, A). -/
def Obligations.SkrSeeksRelative : Prop :=
  ∀ (d : Word) (s : State), s.err = 0 →
    (∀ q : Nat, (q : Int) = s.pos + d.toInt → q ≤ s.ilen →
      exec (.skr d.toNat) s = .next { s with pos := q, status := some (.ok .unit) }) ∧
    ((s.pos : Int) + d.toInt < 0 ∨ (s.ilen : Int) < s.pos + d.toInt →
      exec (.skr d.toNat) s = .next (raised s 3 s.pos d.toNat))

/-- R98: the laws of BSQ. -/
def Obligations.ByteStreamLaws : Prop :=
  (∀ (a b : Nat) (s : State), s.Inv → s.err = 0 → s.pos + a + b ≤ s.ilen →
    ∃ t₁ t₂ t, exec (.rdb a) s = .next t₁ ∧ exec (.rdb b) t₁ = .next t₂ ∧ exec (.rdb (a + b)) s = .next t ∧
      t.rbytes = t₁.rbytes ++ t₂.rbytes ∧ t.pos = t₂.pos) ∧
  (∀ s : State, s.Inv → s.err = 0 → s.pos + 4 ≤ s.ilen →
    ∃ t u, exec (.rda 4) s = .next t ∧ exec .rdu32 s = .next u ∧ u.res = u32le t.rbytes ∧ u.pos = t.pos) ∧
  (∀ (p k : Nat) (s : State), s.Inv → s.err = 0 → p + k ≤ s.ilen →
    ∃ t u, exec (.ska p) s = .next t ∧ exec (.rdb k) t = .next u ∧ u.rbytes.length = k ∧
      ∀ j, j < k → s.ibuf.readByte (p + j) = u.rbytes[j]?) ∧
  (∀ (a : Word) (s : State), s.err = 0 → a.toNat < 2 ^ 31 → s.pos + a.toNat ≤ s.ilen →
    ∃ t u, exec (.skr a.toNat) s = .next t ∧ t.pos = s.pos + a.toNat ∧ exec (.skr (-a).toNat) t = .next u ∧
      u.pos = s.pos) ∧
  (∀ (i : Instr) (s t : State), isByteStream i = true → s.pos ≤ s.ilen → exec i s = .next t → t.pos ≤ t.ilen) ∧
  (∀ (i : Instr) (s t : State) (c : BitVec 4), isByteStream i = true → exec i s = .next t →
    t.status = some (.err c) → t.pos = s.pos) ∧
  (∀ (i : Instr) (s t : State), isByteStream i = true → exec i s = .next t →
    t.ibuf = s.ibuf ∧ t.ilen = s.ilen ∧ t.obuf = s.obuf ∧ t.olen = s.olen ∧ t.crcacc = s.crcacc)

/-! ## BFX -/

/-- R82: PKBITS right-aligns the inclusive range `lo` to `hi` in `RES`; under `msb0` the range is numbered from the other end;
`lo > hi` raises IllegalCommand(0x30, 0). -/
def Obligations.PkbitsExtractsTheRange : Prop :=
  ∀ (byte : Byte) (lo hi : BitVec 3) (s : State), s.err = 0 →
    (lo ≤ hi → ∃ v : Word,
      (∀ k, v.getLsbD k = (decide (k ≤ hi.toNat - lo.toNat) && byte.getLsbD (lo.toNat + k))) ∧
      exec (.pkbits byte lo hi) s = .next { s with res := v, status := some (.ok (.word v)) }) ∧
    (hi < lo → exec (.pkbits byte lo hi) s = .next (raised s 6 0x30 0)) ∧
    (∀ p : Config.Params, p.bitNum = .msb0 → lo ≤ hi → ∃ v : Word,
      (∀ k, v.getLsbD k = (decide (k ≤ hi.toNat - lo.toNat) && byte.getLsbD (7 - hi.toNat + k))) ∧
      pkbitsIn p byte lo hi s = .next { s with res := v, status := some (.ok (.word v)) })

/-- R83: PKBIT puts the single bit `i` in `RES`; under `msb0` it is physical bit `7 - i`. -/
def Obligations.PkbitExtractsTheBit : Prop :=
  ∀ (byte : Byte) (i : BitVec 3) (s : State), s.err = 0 →
    (∃ v : Word, v = (if byte.getLsbD i.toNat then 1 else 0) ∧
      exec (.pkbit byte i) s = .next { s with res := v, status := some (.ok (.word v)) }) ∧
    (∀ p : Config.Params, p.bitNum = .msb0 →
      ∃ v : Word, v = (if byte.getLsbD (7 - i.toNat) then 1 else 0) ∧
        pkbitIn p byte i s = .next { s with res := v, status := some (.ok (.word v)) })

/-- R84: the laws of BFX, for both numberings where the rule gives them for both. -/
def Obligations.BitFieldLaws : Prop :=
  ∀ (p : Config.Params) (byte : Byte) (lo hi i : BitVec 3),
    pickBit p byte i = pickRange p byte i i ∧ pickRange p byte 0 7 = byte.toNat ∧
    (lo ≤ hi → pickRange p byte lo hi < 2 ^ (hi.toNat - lo.toNat + 1)) ∧
    (p.bitNum = .lsb0 → byte.toNat = pickRange p byte 4 7 * 16 + pickRange p byte 0 3) ∧
    (p.bitNum = .lsb0 → pickRange p byte 0 3 = (byte &&& 0x0F).toNat ∧ pickRange p byte 0 2 = (byte &&& 0x07).toNat)

/-! ## CRC -/

/-- R142: CRCRD reads exactly `k` bytes at `POS` and sums them afresh into `CRCACC` and `RES`; a short read changes nothing. -/
def Obligations.CrcrdReadsAndSums : Prop :=
  ∀ (k : Nat) (s : State), s.Inv → s.err = 0 →
    (s.pos + k ≤ s.ilen →
      ∃ bytes, BytesAtCursor s k bytes ∧
        exec (.crcrd k) s = .next { s with
          rbytes := bytes, rlen := k, pos := s.pos + k, crcacc := crc32v sdb bytes, res := crc32v sdb bytes,
          status := some (.ok (.bytes bytes)) }) ∧
    (s.ilen < s.pos + k → exec (.crcrd k) s = .next (raised s 3 s.pos k))

/-- R143: CRCVF compares all 32 bits of the accumulator with the declared checksum. -/
def Obligations.CrcvfVerifiesTheAccumulator : Prop :=
  ∀ (x : Word) (s : State), s.err = 0 →
    (s.crcacc = x → exec (.crcvf x) s = .next { s with status := some (.ok .unit) }) ∧
    (s.crcacc ≠ x → exec (.crcvf x) s = .next (raised s 2 s.crcacc.toNat x.toNat))

/-- R141, R45: the checksum is the bit-serial division by the polynomial from the initial value, each byte most significant bit
first, without reflection or final XOR. -/
def Obligations.CrcIsBitSerialMsbFirst : Prop :=
  ∀ s : List Byte, crc32v sdb s = (s.flatMap bitsMsbFirst).foldl (crcBit 0x04C11DB7) 0x04C11DB7

/-- R144 item 2: flipping any single bit of a byte list changes its checksum. -/
def Obligations.CrcDetectsEverySingleBitFlip : Prop :=
  ∀ (s : List Byte) (i k : Nat) (b : Byte), k < 8 → s[i]? = some b →
    crc32v sdb (s.set i (b ^^^ (1 <<< k))) ≠ crc32v sdb s

/-! ## LZD -/

/-- R122: DECOMP puts the expansion of the whole input in the output buffer, or empties it and raises; the capacity error is
stated for every capacity. -/
def Obligations.DecompExpandsTheInput : Prop :=
  (∀ s : State, s.Inv → s.err = 0 →
    ∃ t, exec .decomp s = .next t ∧ OutsideLzdKept s t ∧ t.res = s.res ∧
      match lzExpand sdb s.input with
      | .ok out => HoldsOutput t out ∧ t.err = 0 ∧ t.erra = s.erra ∧ t.errb = s.errb ∧ t.status = some (.ok .unit)
      | .fail cause index =>
        HoldsOutput t [] ∧ t.err = 5 ∧ t.erra = BitVec.ofNat 32 index ∧ t.errb = BitVec.ofNat 32 cause.sub ∧
          t.status = some (.err 5)
      | .overflow => HoldsOutput t [] ∧ t.err = 7 ∧ t.erra = 1 ∧ t.errb = BitVec.ofNat 32 sdb.ocap ∧
          t.status = some (.err 7)) ∧
  (∀ (p : Config.Params) (s : State), s.Inv → s.err = 0 → lzExpand p s.input = .overflow →
    ∃ t, expandIn p .decomp s = .next t ∧ OutsideLzdKept s t ∧ HoldsOutput t [] ∧ t.res = s.res ∧ t.err = 7 ∧
      t.erra = 1 ∧ t.errb = BitVec.ofNat 32 p.ocap ∧ t.status = some (.err 7))

/-- R123: DECOMPIF swallows a failed run and returns the whole input; only capacity raises, stated for every capacity. -/
def Obligations.DecompifFallsBackToTheInput : Prop :=
  (∀ s : State, s.Inv → s.err = 0 →
    ∃ t, exec .decompif s = .next t ∧ OutsideLzdKept s t ∧
      match lzExpand sdb s.input with
      | .ok out => HoldsOutput t out ∧ t.res = 1 ∧ t.err = 0 ∧ t.erra = s.erra ∧ t.errb = s.errb ∧
          t.status = some (.ok .unit)
      | .fail _ _ => HoldsOutput t s.input ∧ t.res = 0 ∧ t.err = 0 ∧ t.erra = s.erra ∧ t.errb = s.errb ∧
          t.status = some (.ok .unit)
      | .overflow => HoldsOutput t [] ∧ t.res = s.res ∧ t.err = 7 ∧ t.erra = 1 ∧
          t.errb = BitVec.ofNat 32 sdb.ocap ∧ t.status = some (.err 7)) ∧
  (∀ (p : Config.Params) (s : State), s.Inv → s.err = 0 →
    (lzExpand p s.input = .overflow ∨
      (∃ cause index, lzExpand p s.input = .fail cause index) ∧ p.ocap < s.ilen) →
    ∃ t, expandIn p .decompif s = .next t ∧ OutsideLzdKept s t ∧ HoldsOutput t [] ∧ t.res = s.res ∧ t.err = 7 ∧
      t.erra = 1 ∧ t.errb = BitVec.ofNat 32 p.ocap ∧ t.status = some (.err 7))

/-- R110, R121: DECOMP and DECOMPIF, each one command, are what LZD does element by element: from the start of a run, at most
`ILEN + 1` steps end it in a state the host cannot tell from the command's own. -/
def Obligations.RunByElementsIsTheCommand : Prop :=
  ∀ (s : State) (kind : RunKind), s.Inv → s.err = 0 → s.run = none → s.port = [] →
    ∃ r n t u, startRun sdb kind s = .next r ∧ n ≤ s.ilen + 1 ∧
      Sys2Proof.core.run n r = .next u ∧
      exec (match kind with | .decomp => .decomp | .decompif => .decompif) s = .next t ∧
      u.run = none ∧ u.hostView = t.hostView

/-- R114: FLAGS takes the flag byte and makes all its eight bits available. -/
def Obligations.FlagsTakesTheFlagByte : Prop :=
  ∀ (f : Byte) (s : State), s.run ≠ none →
    exec (.flags f) s = .next { s with flg := f, src := s.src + 1, fcnt := 0 }

/-- R115: LIT appends its byte at `OLEN`; every other index is as it was. At capacity the run ends in `CapacityExceeded`
(R120). -/
def Obligations.LitAppendsItsByte : Prop :=
  ∀ (b : Byte) (s : State), s.run ≠ none →
    (s.olen < sdb.ocap →
      ∃ m, exec (.lit b) s = .next { s with obuf := m, olen := s.olen + 1, src := s.src + 1 } ∧
        m.readByte s.olen = some b ∧ ∀ a, a ≠ s.olen → m.readByte a = s.obuf.readByte a) ∧
    (s.olen = sdb.ocap →
      ∃ t, exec (.lit b) s = .next t ∧ OutsideLzdKept s t ∧ HoldsOutput t [] ∧ t.res = s.res ∧ t.err = 7 ∧ t.erra = 1 ∧
        t.errb = BitVec.ofNat 32 sdb.ocap ∧ t.status = some (.err 7))

/-- R116, R117: a valid back-reference appends `length` bytes, the `j`-th being the last `distance` bytes of the output
repeated cyclically; every other index is as it was. What `CLEN` and `CDIST` hold after the copy is the model's (entry 19). -/
def Obligations.RefCopiesCyclically : Prop :=
  ∀ (length distance : Nat) (s : State), s.Inv → s.run ≠ none → s.src + 2 ≤ s.ilen →
    1 ≤ distance → distance ≤ s.olen → overruns s.lim (s.olen + length) = false →
    s.olen + length ≤ sdb.ocap →
    ∃ m, exec (.ref length distance) s = .next { s with
        obuf := m, olen := s.olen + length, src := s.src + 2, clen := 0,
        cdist := distance } ∧
      (∀ j, j < length →
        m.readByte (s.olen + j) = s.obuf.readByte (s.olen - distance + j % distance)) ∧
      (∀ a, a < s.olen ∨ s.olen + length ≤ a → m.readByte a = s.obuf.readByte a)

/-- R117, R120: a valid back-reference that would pass the capacity ends the run, of either command, in `CapacityExceeded`,
whatever the capacity is. -/
def Obligations.RefStopsAtCapacity : Prop :=
  ∀ (p : Config.Params) (length distance : Nat) (s : State), p.Ok → s.Inv → s.run ≠ none →
    s.src + 2 ≤ s.ilen → 1 ≤ distance → distance ≤ s.olen →
    overruns s.lim (s.olen + length) = false → s.olen ≤ p.ocap → p.ocap < s.olen + length →
    ∃ t, refIn p length distance s = .next t ∧ OutsideLzdKept s t ∧ HoldsOutput t [] ∧ t.res = s.res ∧ t.err = 7 ∧
      t.erra = 1 ∧ t.errb = BitVec.ofNat 32 p.ocap ∧ t.status = some (.err 7)

/-- R116: the failures of a back-reference in a run of DECOMP, in their order, each at `SRC`: the cut token, the bad distance,
the overrun of an exact length. -/
def Obligations.RefFailsInOrder : Prop :=
  ∀ (length distance : Nat) (s : State), s.run = some .decomp →
    (s.ilen < s.src + 2 ∨ distance = 0 ∨ s.olen < distance ∨
      overruns s.lim (s.olen + length) = true) →
    ∃ t, exec (.ref length distance) s = .next t ∧ OutsideLzdKept s t ∧ HoldsOutput t [] ∧ t.res = s.res ∧ t.err = 5 ∧
      t.erra = BitVec.ofNat 32 s.src ∧ t.status = some (.err 5) ∧
      t.errb = (if s.ilen < s.src + 2 then 2
        else if distance = 0 ∨ s.olen < distance then 3 else 4)

/-- R123, R188: the same failures in a run of DECOMPIF end it with the whole input as output and no error. -/
def Obligations.RefFailureInDecompifFallsBack : Prop :=
  ∀ (length distance : Nat) (s : State), s.Inv → s.run = some .decompif →
    (s.ilen < s.src + 2 ∨ distance = 0 ∨ s.olen < distance ∨
      overruns s.lim (s.olen + length) = true) →
    ∃ t, exec (.ref length distance) s = .next t ∧ OutsideLzdKept s t ∧ HoldsOutput t s.input ∧ t.res = 0 ∧
      t.err = 0 ∧ t.status = some (.ok .unit)

/-- R117: the closed form of the copy of `lz_expand`. -/
def Obligations.CopyRepeatsTheTail : Prop :=
  ∀ (p : Config.Params) (distance length : Nat) (out r : List Byte), 1 ≤ distance → distance ≤ out.length →
    lzCopy p distance length out = some r →
    r.length = out.length + length ∧ out <+: r ∧
    ∀ j, j < length → r[out.length + j]? = out[out.length - distance + j % distance]?

/-- R124 item 2: the output is at most nine times as long as the input. -/
def Obligations.ExpansionIsAtMostNinefold : Prop :=
  ∀ s out : List Byte, lzExpand sdb s = .ok out → out.length ≤ 9 * s.length

/-- R124 item 3: a stream whose consumed flag bits all select literals expands to itself without its flag bytes. -/
def Obligations.LiteralStreamsLoseTheirFlagBytes : Prop :=
  ∀ s : List Byte, s.length < 2 ^ 32 →
    (∀ (k j : Nat) (b : Byte), j < 8 → s[9 * k]? = some b → 9 * k + 1 + j < s.length → b.getLsbD (7 - j) = false) →
    lzExpand sdb s = .ok (((List.range s.length).filter (fun i => i % 9 != 0)).filterMap (fun i => s[i]?))

/-- R124 item 4: if a stream and a prefix of it both expand, the expansion of the prefix is a prefix of the other. -/
def Obligations.PrefixExpandsToPrefix : Prop :=
  ∀ (s out out' : List Byte) (n : Nat), lzExpand sdb s = .ok out → lzExpand sdb (s.take n) = .ok out' → out' <+: out

/-- R124 item 5: no stream begins with the magic tag, whatever the flag order and polarity; so DECOMPIF returns such a buffer
unchanged, with `RES` 0. -/
def Obligations.MagicBufferIsReturnedUnchanged : Prop :=
  (∀ (msbFirst ref : Bool) (rest : List Byte), ∃ index,
    lzExpand { sdb with flagMsbFirst := msbFirst, refBit := ref } (0x42 :: 0x50 :: 0x4B :: 0x31 :: rest) =
      .fail .badDistance index) ∧
  (∀ (s : State) (rest : List Byte), rest.length + 4 < 2 ^ 32 →
    ∃ t u, exec (.load (0x42 :: 0x50 :: 0x4B :: 0x31 :: rest)) s = .next t ∧ exec .decompif t = .next u ∧
      HoldsOutput u (0x42 :: 0x50 :: 0x4B :: 0x31 :: rest) ∧ u.res = 0 ∧ u.err = 0)

/-- A stream element outside a run is no command (R2, R60); that it is refused is the model's choice (entry 10). -/
def Obligations.ElementsOutsideARunAreRefused : Prop :=
  ∀ (i : Instr) (s : State), mnemonic i ∈ ["FLAGS", "LIT", "REF"] → s.run = none →
    exec i s = .refused .elementOutsideRun

/-! ## Host sequences -/

/-- R170: the stroke decoder, from any unfaulted state; it changes no register but `RES`. -/
def Obligations.StrokeDecodesItsFourBytes : Prop :=
  ∀ (b0 b1 b2 b3 : Byte) (s : State), s.err = 0 →
    ∃ v st, decodeStroke sdb b0 b1 b2 b3 s =
      (.ok { x := (b2.extractLsb' 0 4 ++ b1.extractLsb' 0 4 : BitVec 8)
             y := (b1.extractLsb' 0 4 ++ b0.extractLsb' 0 4 : BitVec 8)
             draw := b2.getLsbD 6
             color := b3.extractLsb' 0 3
             effect3d := b3.getLsbD 5
             bold := b3.getLsbD 4 },
       { s with res := v, status := st })

/-- R165 (the round-trip property of SDU): a container built by hand from blocks decodes to exactly those blocks, whatever
state the block was in. Names are at most 8 bytes of valid text without a null. -/
def Obligations.ContainerRoundTrips : Prop :=
  ∀ (blocks : List (List Byte × List Byte)) (s : State),
    (∀ b ∈ blocks, b.1.length ≤ 8 ∧ (0 : Byte) ∉ b.1 ∧ utf8Valid b.1 = true) →
    (buildContainer blocks).length < 2 ^ 32 →
    (decodeContainer sdb (buildContainer blocks) s).1 = .ok blocks

/-- R166: the grouping of a name holds the payloads of the blocks of that name, in insertion order; a name no block has gets
none. -/
def Obligations.GroupingKeepsInsertionOrder : Prop :=
  ∀ (blocks : List (List Byte × List Byte)) (name : List Byte) (payload : List Byte),
    groupings (blocks ++ [(name, payload)]) name = groupings blocks name ++ [payload] ∧
    (∀ other, other ≠ name → groupings (blocks ++ [(name, payload)]) other = groupings blocks other) ∧
    ((∀ b ∈ blocks, b.1 ≠ name) → groupings blocks name = [])
end

