-- ==== Sys2Proof/Laws/Encoding.lean ====
section
/-! SUPPORT. The fields of a command word: taking them apart, putting them together, and masking those of the default AW. -/

namespace Sys2Proof

open Config

/-- The bits of a command word above `B` are `op` and `A`. -/
theorem commandWord_eq (p : Params) (op : Byte) (a : Nat) (b : Word) :
    commandWord p op a b = (op.toNat * 2 ^ p.aw + a % 2 ^ p.aw) * 2 ^ 32 + b.toNat := by
  rw [commandWord, pow_add]
  ring

theorem commandWord_high (p : Params) (op : Byte) (a : Nat) (b : Word) :
    commandWord p op a b / 2 ^ 32 = op.toNat * 2 ^ p.aw + a % 2 ^ p.aw := by
  have hb := b.isLt
  rw [commandWord_eq]
  omega

@[simp] theorem opField_commandWord (p : Params) (op : Byte) (a : Nat) (b : Word) :
    opField p (commandWord p op a b) = op := by
  rw [opField, pow_add, ← Nat.div_div_eq_div_mul, commandWord_high, mul_comm,
    Nat.mul_add_div (Nat.two_pow_pos _), Nat.div_eq_of_lt (Nat.mod_lt _ (Nat.two_pow_pos _))]
  simp

@[simp] theorem aField_commandWord (p : Params) (op : Byte) (a : Nat) (b : Word) :
    aField p (commandWord p op a b) = a % 2 ^ p.aw := by
  rw [aField, commandWord_high, mul_comm, Nat.mul_add_mod, Nat.mod_mod]

@[simp] theorem bField_commandWord (p : Params) (op : Byte) (a : Nat) (b : Word) :
    bField (commandWord p op a b) = b := by
  have hb := b.isLt
  apply BitVec.eq_of_toNat_eq
  rw [bField, commandWord_eq, BitVec.toNat_ofNat]
  omega

/-- A command word has `40 + AW` bits (R61). -/
theorem commandWord_lt (p : Params) (op : Byte) (a : Nat) (b : Word) : commandWord p op a b < 2 ^ (40 + p.aw) := by
  have ho : op.toNat < 2 ^ 8 := op.isLt
  have hb := b.isLt
  have ha := Nat.mod_lt a (Nat.two_pow_pos p.aw)
  have h : (op.toNat + 1) * 2 ^ p.aw ≤ 2 ^ 8 * 2 ^ p.aw := Nat.mul_le_mul_right _ ho
  rw [commandWord_eq, show 40 + p.aw = 8 + p.aw + 32 by omega, pow_add, pow_add]
  rw [add_mul, one_mul] at h
  omega

/-- A command word is its three fields (R61). -/
theorem commandWord_fields {p : Params} {w : Nat} (h : w < 2 ^ (40 + p.aw)) :
    commandWord p (opField p w) (aField p w) (bField w) = w := by
  have ho : w / 2 ^ 32 / 2 ^ p.aw < 2 ^ 8 := by
    rw [Nat.div_div_eq_div_mul]
    apply Nat.div_lt_of_lt_mul
    rwa [← pow_add, ← pow_add, show 32 + p.aw + 8 = 40 + p.aw by omega]
  rw [commandWord_eq, opField, aField, bField, Nat.mod_mod, pow_add, ← Nat.div_div_eq_div_mul, BitVec.toNat_ofNat,
    Nat.mod_eq_of_lt ho, Nat.div_add_mod', BitVec.toNat_ofNat, Nat.div_add_mod']

/-! ## The 72-bit words of the default AW -/

/-- The three fields of a 72-bit word side by side (R61). -/
def joinFields (op : Byte) (a b : Word) : CommandWord := op ++ a ++ b

theorem joinFields_toNat (op : Byte) (a b : Word) :
    (joinFields op a b).toNat = (op.toNat * 2 ^ 32 + a.toNat) * 2 ^ 32 + b.toNat := by
  rw [joinFields, BitVec.toNat_append, BitVec.toNat_append, ← Nat.shiftLeft_add_eq_or_of_lt a.isLt,
    ← Nat.shiftLeft_add_eq_or_of_lt b.isLt, Nat.shiftLeft_eq, Nat.shiftLeft_eq]

theorem joinFields_inj {op op' : Byte} {a a' b b' : Word} :
    joinFields op a b = joinFields op' a' b' ↔ op = op' ∧ a = a' ∧ b = b' := by
  constructor
  · intro h
    have h := congrArg BitVec.toNat h
    have := a.isLt; have := a'.isLt; have := b.isLt; have := b'.isLt
    rw [joinFields_toNat, joinFields_toNat] at h
    exact ⟨BitVec.eq_of_toNat_eq (by omega), BitVec.eq_of_toNat_eq (by omega), BitVec.eq_of_toNat_eq (by omega)⟩
  · rintro ⟨rfl, rfl, rfl⟩
    rfl

/-- Masking a word masks its fields. -/
theorem joinFields_and (op op' : Byte) (a a' b b' : Word) :
    joinFields op a b &&& joinFields op' a' b' = joinFields (op &&& op') (a &&& a') (b &&& b') := by
  unfold joinFields
  rw [BitVec.and_append, BitVec.and_append]

/-- A default command word is its fields side by side. -/
theorem commandWord_default (op : Byte) (a : Nat) (b : Word) :
    BitVec.ofNat 72 (commandWord Machine.sdb op a b) = joinFields op (BitVec.ofNat 32 a) b := by
  apply BitVec.eq_of_toNat_eq
  have h : commandWord Machine.sdb op a b < 2 ^ 72 := commandWord_lt Machine.sdb op a b
  rw [joinFields_toNat, BitVec.toNat_ofNat, Nat.mod_eq_of_lt h, commandWord_eq, BitVec.toNat_ofNat]
  rfl

/-- A word of fields selects a row whose mask and match are given by their fields exactly when each field does. -/
theorem selects_joinFields {r : OpcodeRow} {mo vo op : Byte} {ma va a mb vb b : Word}
    (hm : r.mask = joinFields mo ma mb) (hv : r.bits = joinFields vo va vb) :
    r.selects (joinFields op a b) = true ↔ op &&& mo = vo ∧ a &&& ma = va ∧ b &&& mb = vb := by
  rw [OpcodeRow.selects, hm, hv, joinFields_and, beq_iff_eq, joinFields_inj]

end Sys2Proof
end

