-- ==== Sys2Proof/Laws/Memory.lean ====
section
/-! SUPPORT. The laws of the byte memories: read after write, canonical form, and the content of a filled memory. -/

namespace Sys2Proof.Machine

/-! ## One byte -/

@[simp] theorem Memory.readByte_nil (a : Nat) : Memory.readByte [] a = none := rfl

theorem Memory.readByte_cons (c : Host.Cell) (m : Memory) (a : Nat) :
    Memory.readByte (c :: m) a = if a = c.1 then some c.2 else Memory.readByte m a := by
  obtain ⟨k, b⟩ := c
  by_cases h : a = k
  · simp [Memory.readByte, List.lookup, h]
  · have hk : (a == k) = false := by simpa using h
    simp [Memory.readByte, List.lookup, h, hk]

/-- An index at which no entry stands holds no value. -/
theorem Memory.readByte_eq_none (m : Memory) (a : Nat) (h : a ∉ m.map Prod.fst) : m.readByte a = none := by
  induction m with
  | nil => rfl
  | cons c m ih =>
    simp only [List.map_cons, List.mem_cons, not_or] at h
    rw [Memory.readByte_cons, if_neg h.1, ih h.2]

/-- A read after a write to the same index gives the byte written (R42). -/
@[simp] theorem Memory.readByte_writeByte_same (m : Memory) (a : Nat) (b : Byte) :
    (m.writeByte a b).readByte a = some b := by
  induction m with
  | nil => simp [Memory.writeByte, Memory.readByte_cons]
  | cons c m ih =>
    unfold Memory.writeByte
    split
    · simp [Memory.readByte_cons]
    · split
      · simp [Memory.readByte_cons]
      · rename_i h; simp [Memory.readByte_cons, h, ih]

/-- A write leaves every other index as it was (R42). -/
theorem Memory.readByte_writeByte_other (m : Memory) (a a' : Nat) (b : Byte) (h : a' ≠ a) :
    (m.writeByte a b).readByte a' = m.readByte a' := by
  induction m with
  | nil => simp [Memory.writeByte, Memory.readByte_cons, h]
  | cons c m ih =>
    unfold Memory.writeByte
    split
    · simp [Memory.readByte_cons, h]
    · split
      · rename_i h2; simp [Memory.readByte_cons, h, ← h2]
      · simp [Memory.readByte_cons, ih]

/-! ## The canonical form -/

theorem Memory.mem_keys_writeByte (m : Memory) (a k : Nat) (b : Byte) (h : k ∈ (m.writeByte a b).map Prod.fst) :
    k = a ∨ k ∈ m.map Prod.fst := by
  induction m with
  | nil => simpa [Memory.writeByte] using h
  | cons c m ih =>
    unfold Memory.writeByte at h
    split at h
    · simpa using h
    · split at h
      · rename_i h2
        simp only [List.map_cons, List.mem_cons] at h ⊢
        exact h.elim .inl (fun h => .inr (.inr h))
      · simp only [List.map_cons, List.mem_cons] at h ⊢
        rcases h with h | h
        · exact .inr (.inl h)
        · exact (ih h).imp id .inr

/-- A write keeps the canonical form. -/
theorem Memory.wf_writeByte (m : Memory) (a : Nat) (b : Byte) (h : m.wf) : (m.writeByte a b).wf := by
  induction m with
  | nil => simp [Memory.writeByte, Memory.wf]
  | cons c m ih =>
    have hc : (∀ k ∈ m.map Prod.fst, c.1 < k) ∧ (m.map Prod.fst).Pairwise (· < ·) := List.pairwise_cons.mp h
    unfold Memory.writeByte
    split
    · rename_i h1
      refine List.pairwise_cons.mpr ⟨fun k hk => ?_, h⟩
      rcases List.mem_cons.mp hk with rfl | hk
      · exact h1
      · exact Nat.lt_trans h1 (hc.1 k hk)
    · split
      · rename_i h1 h2
        exact List.pairwise_cons.mpr ⟨fun k hk => h2 ▸ hc.1 k hk, hc.2⟩
      · rename_i h1 h2
        refine List.pairwise_cons.mpr ⟨fun k hk => ?_, ih hc.2⟩
        rcases Memory.mem_keys_writeByte m a k b hk with rfl | hk
        · omega
        · exact hc.1 k hk

theorem Memory.keys_ofBytesFrom (s : List Byte) (a : Nat) :
    (Memory.ofBytesFrom a s).map Prod.fst = List.range' a s.length := by
  induction s generalizing a with
  | nil => rfl
  | cons b s ih => simp [Memory.ofBytesFrom, ih, List.range']

/-- A memory of exactly `s` holds a value at exactly the indices of `s`. -/
theorem Memory.filled_ofBytes (s : List Byte) : (Memory.ofBytes s).Filled s.length := by
  rw [Memory.Filled, Memory.ofBytes, Memory.keys_ofBytesFrom, List.range_eq_range']

/-- A filled memory is in canonical form. -/
theorem Memory.Filled.wf {m : Memory} {n : Nat} (h : m.Filled n) : m.wf := by
  rw [Memory.wf, h]
  exact List.pairwise_lt_range

theorem Memory.wf_ofBytes (s : List Byte) : (Memory.ofBytes s).wf := (Memory.filled_ofBytes s).wf

theorem Memory.Filled.length {m : Memory} {n : Nat} (h : m.Filled n) : m.length = n := by
  have := congrArg List.length h
  simpa using this

/-! ## The content of a filled memory -/

theorem Memory.ofBytesFrom_of_keys (m : Memory) (a : Nat) (h : m.map Prod.fst = List.range' a m.length) :
    m = Memory.ofBytesFrom a (m.map Prod.snd) := by
  induction m generalizing a with
  | nil => rfl
  | cons c m ih =>
    simp only [List.map_cons, List.length_cons, List.range'_succ, List.cons.injEq] at h
    obtain ⟨h1, h2⟩ := h
    obtain ⟨k, b⟩ := c
    simp only at h1
    subst h1
    simp only [List.map_cons, Memory.ofBytesFrom]
    rw [← ih (k + 1) h2]

/-- A filled memory is the memory of its bytes. -/
theorem Memory.Filled.eq_ofBytes {m : Memory} {n : Nat} (h : m.Filled n) : m = Memory.ofBytes (m.map Prod.snd) := by
  refine Memory.ofBytesFrom_of_keys m 0 ?_
  rw [h.length, ← List.range_eq_range']
  exact h

theorem Memory.readByte_ofBytesFrom (s : List Byte) (a j : Nat) :
    (Memory.ofBytesFrom a s).readByte (a + j) = s[j]? := by
  induction s generalizing a j with
  | nil => simp [Memory.ofBytesFrom]
  | cons b s ih =>
    cases j with
    | zero => simp [Memory.ofBytesFrom, Memory.readByte_cons]
    | succ j =>
      have := ih (a + 1) j
      rw [show a + 1 + j = a + (j + 1) by omega] at this
      simp [Memory.ofBytesFrom, Memory.readByte_cons, this]

/-- Index `j` of the memory of `s` holds `s[j]`, and no value at or after `|s|`. -/
@[simp] theorem Memory.readByte_ofBytes (s : List Byte) (j : Nat) : (Memory.ofBytes s).readByte j = s[j]? := by
  simpa [Memory.ofBytes] using Memory.readByte_ofBytesFrom s 0 j

theorem Memory.readByte_filled {m : Memory} {n : Nat} (h : m.Filled n) (j : Nat) :
    m.readByte j = (m.map Prod.snd)[j]? := by
  conv => lhs; rw [h.eq_ofBytes]
  exact Memory.readByte_ofBytes _ j

/-- `MemRead` of indices that all hold a value answers the bytes there, in index order (R41). -/
theorem Memory.read_ofBytes (s : List Byte) (n a : Nat) (h : a + n ≤ s.length) :
    (Memory.ofBytes s).read a n = some ((s.drop a).take n) := by
  induction n generalizing a with
  | zero => simp [Memory.read]
  | succ n ih =>
    have ha : a < s.length := by omega
    rw [Memory.read, Memory.readByte_ofBytes, List.getElem?_eq_getElem ha]
    simp only [ih (a + 1) (by omega)]
    rw [List.drop_eq_getElem_cons ha, List.take_succ_cons]

theorem Memory.Filled.read {m : Memory} {n : Nat} (h : m.Filled n) (a k : Nat) (hk : a + k ≤ n) :
    m.read a k = some (((m.map Prod.snd).drop a).take k) := by
  conv => lhs; rw [h.eq_ofBytes]
  exact Memory.read_ofBytes _ _ _ (by simpa [h.length] using hk)

theorem Memory.Filled.read_all {m : Memory} {n : Nat} (h : m.Filled n) : m.read 0 n = some (m.map Prod.snd) := by
  rw [h.read 0 n (by omega)]
  simp [List.take_of_length_le, h.length]

theorem Memory.writeByte_ofBytesFrom (s : List Byte) (a : Nat) (b : Byte) :
    (Memory.ofBytesFrom a s).writeByte (a + s.length) b = Memory.ofBytesFrom a (s ++ [b]) := by
  induction s generalizing a with
  | nil => rfl
  | cons c s ih =>
    have := ih (a + 1)
    rw [show a + 1 + s.length = a + (s.length + 1) by omega] at this
    simp [Memory.ofBytesFrom, Memory.writeByte, this]

/-- Appending one byte at the end of a memory of `s` gives the memory of `s ++ [b]` (R42). -/
theorem Memory.writeByte_ofBytes (s : List Byte) (b : Byte) :
    (Memory.ofBytes s).writeByte s.length b = Memory.ofBytes (s ++ [b]) := by
  simpa [Memory.ofBytes] using Memory.writeByte_ofBytesFrom s 0 b

/-- Appending one byte keeps a memory filled. -/
theorem Memory.Filled.writeByte {m : Memory} {n : Nat} (h : m.Filled n) (b : Byte) : (m.writeByte n b).Filled (n + 1) := by
  have e : m.writeByte n b = Memory.ofBytes (m.map Prod.snd ++ [b]) := by
    rw [← Memory.writeByte_ofBytes, ← h.eq_ofBytes]
    simp [h.length]
  rw [e]
  simpa [h.length] using Memory.filled_ofBytes (m.map Prod.snd ++ [b])

end Sys2Proof.Machine
end

