-- ==== Sys2Proof/Laws/State.lean ====
section
/-! SUPPORT. What each named update of the state does to each field. -/

namespace Sys2Proof.Machine

/-! `State.leaveRun` -/

@[simp] theorem State.leaveRun_ibuf (p : Config.Params) (s : State) : (s.leaveRun p).ibuf = s.ibuf := rfl
@[simp] theorem State.leaveRun_ilen (p : Config.Params) (s : State) : (s.leaveRun p).ilen = s.ilen := rfl
@[simp] theorem State.leaveRun_pos (p : Config.Params) (s : State) : (s.leaveRun p).pos = s.pos := rfl
@[simp] theorem State.leaveRun_obuf (p : Config.Params) (s : State) : (s.leaveRun p).obuf = s.obuf := rfl
@[simp] theorem State.leaveRun_olen (p : Config.Params) (s : State) : (s.leaveRun p).olen = s.olen := rfl
@[simp] theorem State.leaveRun_res (p : Config.Params) (s : State) : (s.leaveRun p).res = s.res := rfl
@[simp] theorem State.leaveRun_rbytes (p : Config.Params) (s : State) : (s.leaveRun p).rbytes = s.rbytes := rfl
@[simp] theorem State.leaveRun_rlen (p : Config.Params) (s : State) : (s.leaveRun p).rlen = s.rlen := rfl
@[simp] theorem State.leaveRun_crcacc (p : Config.Params) (s : State) : (s.leaveRun p).crcacc = s.crcacc := rfl
@[simp] theorem State.leaveRun_err (p : Config.Params) (s : State) : (s.leaveRun p).err = s.err := rfl
@[simp] theorem State.leaveRun_erra (p : Config.Params) (s : State) : (s.leaveRun p).erra = s.erra := rfl
@[simp] theorem State.leaveRun_errb (p : Config.Params) (s : State) : (s.leaveRun p).errb = s.errb := rfl
@[simp] theorem State.leaveRun_src (p : Config.Params) (s : State) : (s.leaveRun p).src = (Config.freeSrc p.aw s.draws).toNat := rfl
@[simp] theorem State.leaveRun_flg (p : Config.Params) (s : State) : (s.leaveRun p).flg = Config.freeFlg s.draws := rfl
@[simp] theorem State.leaveRun_fcnt (p : Config.Params) (s : State) : (s.leaveRun p).fcnt = Config.freeFcnt s.draws := rfl
@[simp] theorem State.leaveRun_lim (p : Config.Params) (s : State) : (s.leaveRun p).lim = (Config.freeLim p.aw s.draws).map BitVec.toNat := rfl
@[simp] theorem State.leaveRun_clen (p : Config.Params) (s : State) : (s.leaveRun p).clen = Config.freeClen s.draws := rfl
@[simp] theorem State.leaveRun_cdist (p : Config.Params) (s : State) : (s.leaveRun p).cdist = (Config.freeCdist p.aw s.draws).toNat := rfl
@[simp] theorem State.leaveRun_run (p : Config.Params) (s : State) : (s.leaveRun p).run = none := rfl
@[simp] theorem State.leaveRun_status (p : Config.Params) (s : State) : (s.leaveRun p).status = s.status := rfl
@[simp] theorem State.leaveRun_port (p : Config.Params) (s : State) : (s.leaveRun p).port = s.port := rfl
@[simp] theorem State.leaveRun_draws (p : Config.Params) (s : State) : (s.leaveRun p).draws = s.draws + 1 := rfl

/-! `State.emptyObuf` -/

@[simp] theorem State.emptyObuf_ibuf (s : State) : s.emptyObuf.ibuf = s.ibuf := rfl
@[simp] theorem State.emptyObuf_ilen (s : State) : s.emptyObuf.ilen = s.ilen := rfl
@[simp] theorem State.emptyObuf_pos (s : State) : s.emptyObuf.pos = s.pos := rfl
@[simp] theorem State.emptyObuf_obuf (s : State) : s.emptyObuf.obuf = [] := rfl
@[simp] theorem State.emptyObuf_olen (s : State) : s.emptyObuf.olen = 0 := rfl
@[simp] theorem State.emptyObuf_res (s : State) : s.emptyObuf.res = s.res := rfl
@[simp] theorem State.emptyObuf_rbytes (s : State) : s.emptyObuf.rbytes = s.rbytes := rfl
@[simp] theorem State.emptyObuf_rlen (s : State) : s.emptyObuf.rlen = s.rlen := rfl
@[simp] theorem State.emptyObuf_crcacc (s : State) : s.emptyObuf.crcacc = s.crcacc := rfl
@[simp] theorem State.emptyObuf_err (s : State) : s.emptyObuf.err = s.err := rfl
@[simp] theorem State.emptyObuf_erra (s : State) : s.emptyObuf.erra = s.erra := rfl
@[simp] theorem State.emptyObuf_errb (s : State) : s.emptyObuf.errb = s.errb := rfl
@[simp] theorem State.emptyObuf_src (s : State) : s.emptyObuf.src = s.src := rfl
@[simp] theorem State.emptyObuf_flg (s : State) : s.emptyObuf.flg = s.flg := rfl
@[simp] theorem State.emptyObuf_fcnt (s : State) : s.emptyObuf.fcnt = s.fcnt := rfl
@[simp] theorem State.emptyObuf_lim (s : State) : s.emptyObuf.lim = s.lim := rfl
@[simp] theorem State.emptyObuf_clen (s : State) : s.emptyObuf.clen = s.clen := rfl
@[simp] theorem State.emptyObuf_cdist (s : State) : s.emptyObuf.cdist = s.cdist := rfl
@[simp] theorem State.emptyObuf_run (s : State) : s.emptyObuf.run = s.run := rfl
@[simp] theorem State.emptyObuf_status (s : State) : s.emptyObuf.status = s.status := rfl
@[simp] theorem State.emptyObuf_port (s : State) : s.emptyObuf.port = s.port := rfl
@[simp] theorem State.emptyObuf_draws (s : State) : s.emptyObuf.draws = s.draws := rfl

/-! `State.setObuf` -/

@[simp] theorem State.setObuf_ibuf (s : State) (out : List Byte) : (s.setObuf out).ibuf = s.ibuf := rfl
@[simp] theorem State.setObuf_ilen (s : State) (out : List Byte) : (s.setObuf out).ilen = s.ilen := rfl
@[simp] theorem State.setObuf_pos (s : State) (out : List Byte) : (s.setObuf out).pos = s.pos := rfl
@[simp] theorem State.setObuf_obuf (s : State) (out : List Byte) : (s.setObuf out).obuf = Memory.ofBytes out := rfl
@[simp] theorem State.setObuf_olen (s : State) (out : List Byte) : (s.setObuf out).olen = out.length := rfl
@[simp] theorem State.setObuf_res (s : State) (out : List Byte) : (s.setObuf out).res = s.res := rfl
@[simp] theorem State.setObuf_rbytes (s : State) (out : List Byte) : (s.setObuf out).rbytes = s.rbytes := rfl
@[simp] theorem State.setObuf_rlen (s : State) (out : List Byte) : (s.setObuf out).rlen = s.rlen := rfl
@[simp] theorem State.setObuf_crcacc (s : State) (out : List Byte) : (s.setObuf out).crcacc = s.crcacc := rfl
@[simp] theorem State.setObuf_err (s : State) (out : List Byte) : (s.setObuf out).err = s.err := rfl
@[simp] theorem State.setObuf_erra (s : State) (out : List Byte) : (s.setObuf out).erra = s.erra := rfl
@[simp] theorem State.setObuf_errb (s : State) (out : List Byte) : (s.setObuf out).errb = s.errb := rfl
@[simp] theorem State.setObuf_src (s : State) (out : List Byte) : (s.setObuf out).src = s.src := rfl
@[simp] theorem State.setObuf_flg (s : State) (out : List Byte) : (s.setObuf out).flg = s.flg := rfl
@[simp] theorem State.setObuf_fcnt (s : State) (out : List Byte) : (s.setObuf out).fcnt = s.fcnt := rfl
@[simp] theorem State.setObuf_lim (s : State) (out : List Byte) : (s.setObuf out).lim = s.lim := rfl
@[simp] theorem State.setObuf_clen (s : State) (out : List Byte) : (s.setObuf out).clen = s.clen := rfl
@[simp] theorem State.setObuf_cdist (s : State) (out : List Byte) : (s.setObuf out).cdist = s.cdist := rfl
@[simp] theorem State.setObuf_run (s : State) (out : List Byte) : (s.setObuf out).run = s.run := rfl
@[simp] theorem State.setObuf_status (s : State) (out : List Byte) : (s.setObuf out).status = s.status := rfl
@[simp] theorem State.setObuf_port (s : State) (out : List Byte) : (s.setObuf out).port = s.port := rfl
@[simp] theorem State.setObuf_draws (s : State) (out : List Byte) : (s.setObuf out).draws = s.draws := rfl

/-! `State.newInput` -/

@[simp] theorem State.newInput_ibuf (s : State) (p : Config.Params) (data : List Byte) : (s.newInput p data).ibuf = Memory.ofBytes data := rfl
@[simp] theorem State.newInput_ilen (s : State) (p : Config.Params) (data : List Byte) : (s.newInput p data).ilen = data.length := rfl
@[simp] theorem State.newInput_pos (s : State) (p : Config.Params) (data : List Byte) : (s.newInput p data).pos = 0 := rfl
@[simp] theorem State.newInput_obuf (s : State) (p : Config.Params) (data : List Byte) : (s.newInput p data).obuf = [] := rfl
@[simp] theorem State.newInput_olen (s : State) (p : Config.Params) (data : List Byte) : (s.newInput p data).olen = 0 := rfl
@[simp] theorem State.newInput_res (s : State) (p : Config.Params) (data : List Byte) : (s.newInput p data).res = s.res := rfl
@[simp] theorem State.newInput_rbytes (s : State) (p : Config.Params) (data : List Byte) : (s.newInput p data).rbytes = s.rbytes := rfl
@[simp] theorem State.newInput_rlen (s : State) (p : Config.Params) (data : List Byte) : (s.newInput p data).rlen = s.rlen := rfl
@[simp] theorem State.newInput_crcacc (s : State) (p : Config.Params) (data : List Byte) : (s.newInput p data).crcacc = p.crcInit := rfl
@[simp] theorem State.newInput_err (s : State) (p : Config.Params) (data : List Byte) : (s.newInput p data).err = s.err := rfl
@[simp] theorem State.newInput_erra (s : State) (p : Config.Params) (data : List Byte) : (s.newInput p data).erra = s.erra := rfl
@[simp] theorem State.newInput_errb (s : State) (p : Config.Params) (data : List Byte) : (s.newInput p data).errb = s.errb := rfl
@[simp] theorem State.newInput_src (s : State) (p : Config.Params) (data : List Byte) : (s.newInput p data).src = s.src := rfl
@[simp] theorem State.newInput_flg (s : State) (p : Config.Params) (data : List Byte) : (s.newInput p data).flg = s.flg := rfl
@[simp] theorem State.newInput_fcnt (s : State) (p : Config.Params) (data : List Byte) : (s.newInput p data).fcnt = s.fcnt := rfl
@[simp] theorem State.newInput_lim (s : State) (p : Config.Params) (data : List Byte) : (s.newInput p data).lim = s.lim := rfl
@[simp] theorem State.newInput_clen (s : State) (p : Config.Params) (data : List Byte) : (s.newInput p data).clen = s.clen := rfl
@[simp] theorem State.newInput_cdist (s : State) (p : Config.Params) (data : List Byte) : (s.newInput p data).cdist = s.cdist := rfl
@[simp] theorem State.newInput_run (s : State) (p : Config.Params) (data : List Byte) : (s.newInput p data).run = s.run := rfl
@[simp] theorem State.newInput_status (s : State) (p : Config.Params) (data : List Byte) : (s.newInput p data).status = s.status := rfl
@[simp] theorem State.newInput_port (s : State) (p : Config.Params) (data : List Byte) : (s.newInput p data).port = s.port := rfl
@[simp] theorem State.newInput_draws (s : State) (p : Config.Params) (data : List Byte) : (s.newInput p data).draws = s.draws := rfl

/-! `State.enterError` -/

@[simp] theorem State.enterError_ibuf (s : State) (e : Error) (a b : Nat) : (s.enterError e a b).ibuf = s.ibuf := rfl
@[simp] theorem State.enterError_ilen (s : State) (e : Error) (a b : Nat) : (s.enterError e a b).ilen = s.ilen := rfl
@[simp] theorem State.enterError_pos (s : State) (e : Error) (a b : Nat) : (s.enterError e a b).pos = s.pos := rfl
@[simp] theorem State.enterError_obuf (s : State) (e : Error) (a b : Nat) : (s.enterError e a b).obuf = s.obuf := rfl
@[simp] theorem State.enterError_olen (s : State) (e : Error) (a b : Nat) : (s.enterError e a b).olen = s.olen := rfl
@[simp] theorem State.enterError_res (s : State) (e : Error) (a b : Nat) : (s.enterError e a b).res = s.res := rfl
@[simp] theorem State.enterError_rbytes (s : State) (e : Error) (a b : Nat) : (s.enterError e a b).rbytes = s.rbytes := rfl
@[simp] theorem State.enterError_rlen (s : State) (e : Error) (a b : Nat) : (s.enterError e a b).rlen = s.rlen := rfl
@[simp] theorem State.enterError_crcacc (s : State) (e : Error) (a b : Nat) : (s.enterError e a b).crcacc = s.crcacc := rfl
@[simp] theorem State.enterError_err (s : State) (e : Error) (a b : Nat) : (s.enterError e a b).err = e.code := rfl
@[simp] theorem State.enterError_erra (s : State) (e : Error) (a b : Nat) : (s.enterError e a b).erra = BitVec.ofNat 32 a := rfl
@[simp] theorem State.enterError_errb (s : State) (e : Error) (a b : Nat) : (s.enterError e a b).errb = BitVec.ofNat 32 b := rfl
@[simp] theorem State.enterError_src (s : State) (e : Error) (a b : Nat) : (s.enterError e a b).src = s.src := rfl
@[simp] theorem State.enterError_flg (s : State) (e : Error) (a b : Nat) : (s.enterError e a b).flg = s.flg := rfl
@[simp] theorem State.enterError_fcnt (s : State) (e : Error) (a b : Nat) : (s.enterError e a b).fcnt = s.fcnt := rfl
@[simp] theorem State.enterError_lim (s : State) (e : Error) (a b : Nat) : (s.enterError e a b).lim = s.lim := rfl
@[simp] theorem State.enterError_clen (s : State) (e : Error) (a b : Nat) : (s.enterError e a b).clen = s.clen := rfl
@[simp] theorem State.enterError_cdist (s : State) (e : Error) (a b : Nat) : (s.enterError e a b).cdist = s.cdist := rfl
@[simp] theorem State.enterError_run (s : State) (e : Error) (a b : Nat) : (s.enterError e a b).run = s.run := rfl
@[simp] theorem State.enterError_status (s : State) (e : Error) (a b : Nat) : (s.enterError e a b).status = some (.err e.code) := rfl
@[simp] theorem State.enterError_port (s : State) (e : Error) (a b : Nat) : (s.enterError e a b).port = s.port := rfl
@[simp] theorem State.enterError_draws (s : State) (e : Error) (a b : Nat) : (s.enterError e a b).draws = s.draws := rfl

/-! `State.clearError` -/

@[simp] theorem State.clearError_ibuf (s : State) : s.clearError.ibuf = s.ibuf := rfl
@[simp] theorem State.clearError_ilen (s : State) : s.clearError.ilen = s.ilen := rfl
@[simp] theorem State.clearError_pos (s : State) : s.clearError.pos = s.pos := rfl
@[simp] theorem State.clearError_obuf (s : State) : s.clearError.obuf = s.obuf := rfl
@[simp] theorem State.clearError_olen (s : State) : s.clearError.olen = s.olen := rfl
@[simp] theorem State.clearError_res (s : State) : s.clearError.res = s.res := rfl
@[simp] theorem State.clearError_rbytes (s : State) : s.clearError.rbytes = s.rbytes := rfl
@[simp] theorem State.clearError_rlen (s : State) : s.clearError.rlen = s.rlen := rfl
@[simp] theorem State.clearError_crcacc (s : State) : s.clearError.crcacc = s.crcacc := rfl
@[simp] theorem State.clearError_err (s : State) : s.clearError.err = 0 := rfl
@[simp] theorem State.clearError_erra (s : State) : s.clearError.erra = 0 := rfl
@[simp] theorem State.clearError_errb (s : State) : s.clearError.errb = 0 := rfl
@[simp] theorem State.clearError_src (s : State) : s.clearError.src = s.src := rfl
@[simp] theorem State.clearError_flg (s : State) : s.clearError.flg = s.flg := rfl
@[simp] theorem State.clearError_fcnt (s : State) : s.clearError.fcnt = s.fcnt := rfl
@[simp] theorem State.clearError_lim (s : State) : s.clearError.lim = s.lim := rfl
@[simp] theorem State.clearError_clen (s : State) : s.clearError.clen = s.clen := rfl
@[simp] theorem State.clearError_cdist (s : State) : s.clearError.cdist = s.cdist := rfl
@[simp] theorem State.clearError_run (s : State) : s.clearError.run = s.run := rfl
@[simp] theorem State.clearError_status (s : State) : s.clearError.status = s.status := rfl
@[simp] theorem State.clearError_port (s : State) : s.clearError.port = s.port := rfl
@[simp] theorem State.clearError_draws (s : State) : s.clearError.draws = s.draws := rfl

/-! `State.appendByte` -/

@[simp] theorem State.appendByte_ibuf (s : State) (b : Byte) : (s.appendByte b).ibuf = s.ibuf := rfl
@[simp] theorem State.appendByte_ilen (s : State) (b : Byte) : (s.appendByte b).ilen = s.ilen := rfl
@[simp] theorem State.appendByte_pos (s : State) (b : Byte) : (s.appendByte b).pos = s.pos := rfl
@[simp] theorem State.appendByte_obuf (s : State) (b : Byte) : (s.appendByte b).obuf = s.obuf.writeByte s.olen b := rfl
@[simp] theorem State.appendByte_olen (s : State) (b : Byte) : (s.appendByte b).olen = s.olen + 1 := rfl
@[simp] theorem State.appendByte_res (s : State) (b : Byte) : (s.appendByte b).res = s.res := rfl
@[simp] theorem State.appendByte_rbytes (s : State) (b : Byte) : (s.appendByte b).rbytes = s.rbytes := rfl
@[simp] theorem State.appendByte_rlen (s : State) (b : Byte) : (s.appendByte b).rlen = s.rlen := rfl
@[simp] theorem State.appendByte_crcacc (s : State) (b : Byte) : (s.appendByte b).crcacc = s.crcacc := rfl
@[simp] theorem State.appendByte_err (s : State) (b : Byte) : (s.appendByte b).err = s.err := rfl
@[simp] theorem State.appendByte_erra (s : State) (b : Byte) : (s.appendByte b).erra = s.erra := rfl
@[simp] theorem State.appendByte_errb (s : State) (b : Byte) : (s.appendByte b).errb = s.errb := rfl
@[simp] theorem State.appendByte_src (s : State) (b : Byte) : (s.appendByte b).src = s.src := rfl
@[simp] theorem State.appendByte_flg (s : State) (b : Byte) : (s.appendByte b).flg = s.flg := rfl
@[simp] theorem State.appendByte_fcnt (s : State) (b : Byte) : (s.appendByte b).fcnt = s.fcnt := rfl
@[simp] theorem State.appendByte_lim (s : State) (b : Byte) : (s.appendByte b).lim = s.lim := rfl
@[simp] theorem State.appendByte_clen (s : State) (b : Byte) : (s.appendByte b).clen = s.clen := rfl
@[simp] theorem State.appendByte_cdist (s : State) (b : Byte) : (s.appendByte b).cdist = s.cdist := rfl
@[simp] theorem State.appendByte_run (s : State) (b : Byte) : (s.appendByte b).run = s.run := rfl
@[simp] theorem State.appendByte_status (s : State) (b : Byte) : (s.appendByte b).status = s.status := rfl
@[simp] theorem State.appendByte_port (s : State) (b : Byte) : (s.appendByte b).port = s.port := rfl
@[simp] theorem State.appendByte_draws (s : State) (b : Byte) : (s.appendByte b).draws = s.draws := rfl

/-! `consumeFlag` writes `FCNT` alone -/

@[simp] theorem consumeFlag_ibuf (s : State) : (consumeFlag s).ibuf = s.ibuf := by unfold consumeFlag; split <;> rfl
@[simp] theorem consumeFlag_ilen (s : State) : (consumeFlag s).ilen = s.ilen := by unfold consumeFlag; split <;> rfl
@[simp] theorem consumeFlag_pos (s : State) : (consumeFlag s).pos = s.pos := by unfold consumeFlag; split <;> rfl
@[simp] theorem consumeFlag_obuf (s : State) : (consumeFlag s).obuf = s.obuf := by unfold consumeFlag; split <;> rfl
@[simp] theorem consumeFlag_olen (s : State) : (consumeFlag s).olen = s.olen := by unfold consumeFlag; split <;> rfl
@[simp] theorem consumeFlag_res (s : State) : (consumeFlag s).res = s.res := by unfold consumeFlag; split <;> rfl
@[simp] theorem consumeFlag_rbytes (s : State) : (consumeFlag s).rbytes = s.rbytes := by unfold consumeFlag; split <;> rfl
@[simp] theorem consumeFlag_rlen (s : State) : (consumeFlag s).rlen = s.rlen := by unfold consumeFlag; split <;> rfl
@[simp] theorem consumeFlag_crcacc (s : State) : (consumeFlag s).crcacc = s.crcacc := by unfold consumeFlag; split <;> rfl
@[simp] theorem consumeFlag_err (s : State) : (consumeFlag s).err = s.err := by unfold consumeFlag; split <;> rfl
@[simp] theorem consumeFlag_erra (s : State) : (consumeFlag s).erra = s.erra := by unfold consumeFlag; split <;> rfl
@[simp] theorem consumeFlag_errb (s : State) : (consumeFlag s).errb = s.errb := by unfold consumeFlag; split <;> rfl
@[simp] theorem consumeFlag_src (s : State) : (consumeFlag s).src = s.src := by unfold consumeFlag; split <;> rfl
@[simp] theorem consumeFlag_flg (s : State) : (consumeFlag s).flg = s.flg := by unfold consumeFlag; split <;> rfl
theorem consumeFlag_fcnt (s : State) (h : s.fcnt.val < 8) : (consumeFlag s).fcnt.val = s.fcnt.val + 1 := by
  simp [consumeFlag, h]
@[simp] theorem consumeFlag_lim (s : State) : (consumeFlag s).lim = s.lim := by unfold consumeFlag; split <;> rfl
@[simp] theorem consumeFlag_clen (s : State) : (consumeFlag s).clen = s.clen := by unfold consumeFlag; split <;> rfl
@[simp] theorem consumeFlag_cdist (s : State) : (consumeFlag s).cdist = s.cdist := by unfold consumeFlag; split <;> rfl
@[simp] theorem consumeFlag_run (s : State) : (consumeFlag s).run = s.run := by unfold consumeFlag; split <;> rfl
@[simp] theorem consumeFlag_status (s : State) : (consumeFlag s).status = s.status := by unfold consumeFlag; split <;> rfl
@[simp] theorem consumeFlag_port (s : State) : (consumeFlag s).port = s.port := by unfold consumeFlag; split <;> rfl
@[simp] theorem consumeFlag_draws (s : State) : (consumeFlag s).draws = s.draws := by unfold consumeFlag; split <;> rfl

end Sys2Proof.Machine
end

