-- ==== Sys2Proof/Laws/Ops.lean ====
section
/-! SUPPORT. What each shared operation can do, said once. -/

namespace Sys2Proof.Machine

/-! ## Faulted or ready -/

theorem ifReady_of_ready {s : State} (h : s.err = 0) (act : State → Outcome) : ifReady s act = act s := if_pos h

theorem ifReady_of_faulted {s : State} (h : s.err ≠ 0) (act : State → Outcome) :
    ifReady s act = .next { s with status := some (.err s.err) } := if_neg h

/-- The two ways a guarded command can answer. -/
theorem ifReady_cases (s : State) (act : State → Outcome) :
    (s.err = 0 ∧ ifReady s act = act s) ∨
    (s.err ≠ 0 ∧ ifReady s act = .next { s with status := some (.err s.err) }) := by
  by_cases h : s.err = 0
  · exact .inl ⟨h, ifReady_of_ready h act⟩
  · exact .inr ⟨h, ifReady_of_faulted h act⟩

/-! ## Memory reads inside a rule -/

theorem memRead_ibuf {s : State} (h : s.ibuf.Filled s.ilen) (a n : Nat) (hn : a + n ≤ s.ilen)
    (act : List Byte → Outcome) : memRead .ibuf a n s act = act ((s.input.drop a).take n) := by
  simp only [memRead, State.space, h.read a n hn, State.input]

theorem memRead_obuf {s : State} (h : s.obuf.Filled s.olen) (a n : Nat) (hn : a + n ≤ s.olen)
    (act : List Byte → Outcome) : memRead .obuf a n s act = act ((s.output.drop a).take n) := by
  simp only [memRead, State.space, h.read a n hn, State.output]

/-- A read inside a rule goes on with bytes or stops at an index without a value. -/
theorem memRead_cases (sp : Space) (a n : Nat) (s : State) (act : List Byte → Outcome) :
    (∃ bytes, (s.space sp).read a n = some bytes ∧ memRead sp a n s act = act bytes) ∨
    memRead sp a n s act = .fault (.noValue sp a) := by
  unfold memRead
  split
  · exact .inl ⟨_, ‹_›, rfl⟩
  · exact .inr rfl

theorem Memory.read_length {m : Memory} {n : Nat} {a : Nat} {bytes : List Byte} (h : m.read a n = some bytes) :
    bytes.length = n := by
  induction n generalizing a bytes with
  | zero => simp [Memory.read] at h; simp [← h]
  | succ n ih =>
    unfold Memory.read at h
    split at h
    · cases h
    · split at h
      · cases h
      · rename_i h2
        cases h
        simp [ih h2]

/-! ## BSQ -/

/-- An exact read that is short raises and changes nothing else (R90). -/
theorem readExact_short {k : Nat} {s : State} (h : s.ilen < s.pos + k)
    (deliver : List Byte → State → Outcome) :
    readExact k s deliver = .next (s.enterError .unexpectedEof s.pos k) := by
  simp [readExact, h, raise]

/-- An exact read that fits delivers the bytes at the cursor and moves it (R90). -/
theorem readExact_fits {k : Nat} {s : State} (hf : s.ibuf.Filled s.ilen)
    (h : s.pos + k ≤ s.ilen) (deliver : List Byte → State → Outcome) :
    readExact k s deliver =
      deliver ((s.input.drop s.pos).take k) { s with pos := s.pos + k } := by
  simp only [readExact, if_neg (Nat.not_lt.mpr h)]
  exact memRead_ibuf hf _ _ h _

/-- The three ways an exact read can answer. -/
theorem readExact_cases (k : Nat) (s : State) (deliver : List Byte → State → Outcome) :
    (s.ilen < s.pos + k ∧
      readExact k s deliver = .next (s.enterError .unexpectedEof s.pos k)) ∨
    (∃ bytes, s.pos + k ≤ s.ilen ∧ bytes.length = k ∧
      readExact k s deliver = deliver bytes { s with pos := s.pos + k }) ∨
    readExact k s deliver = .fault (.noValue .ibuf s.pos) := by
  by_cases h : s.ilen < s.pos + k
  · exact .inl ⟨h, readExact_short h deliver⟩
  · right
    simp only [readExact, if_neg h]
    rcases memRead_cases .ibuf s.pos k s fun bytes => deliver bytes { s with pos := s.pos + k } with
      ⟨bytes, hb, e⟩ | e
    · exact .inl ⟨bytes, Nat.not_lt.mp h, Memory.read_length hb, e⟩
    · exact .inr e

/-- A seek raises or moves the cursor into `[0, ILEN]` (R96, R97). -/
theorem seekTo_cases (target : Int) (operand : Nat) (s : State) :
    ((target < 0 ∨ (s.ilen : Int) < target) ∧
      seekTo target operand s = .next (s.enterError .unexpectedEof s.pos operand)) ∨
    (∃ n : Nat, target = n ∧ n ≤ s.ilen ∧
      seekTo target operand s = .next { s with pos := n, status := some (.ok .unit) }) := by
  by_cases h : target < 0 ∨ (s.ilen : Int) < target
  · exact .inl ⟨h, by simp [seekTo, h, raise]⟩
  · right
    refine ⟨target.toNat, by omega, by omega, ?_⟩
    simp [seekTo, h, succeed]

/-! ## The end of a run -/

/-- The three ways a run's end can answer, besides an index without a value. -/
theorem endFail_cases (p : Config.Params) (kind : RunKind) (cause : FailCause) (index : Nat) (s : State) :
    (kind = .decomp ∧ endFail p kind cause index s =
      .next ((s.leaveRun p).emptyObuf.enterError .decompressionFailed index cause.sub)) ∨
    (kind = .decompif ∧ p.ocap < s.ilen ∧ endFail p kind cause index s =
      .next ((s.leaveRun p).emptyObuf.enterError .capacityExceeded 1 p.ocap)) ∨
    (∃ input, kind = .decompif ∧ s.ilen ≤ p.ocap ∧ s.ibuf.read 0 s.ilen = some input ∧
      endFail p kind cause index s =
        .next { (s.leaveRun p).setObuf input with res := 0, status := some (.ok .unit) }) ∨
    endFail p kind cause index s = .fault (.noValue .ibuf 0) := by
  cases kind with
  | decomp => exact .inl ⟨rfl, rfl⟩
  | decompif =>
    right
    by_cases h : p.ocap < s.ilen
    · exact .inl ⟨rfl, h, by simp [endFail, h, endOverflow, raise]⟩
    · right
      simp only [endFail, if_neg h]
      rcases memRead_cases .ibuf 0 s.ilen s
        fun input => succeed .unit { (s.leaveRun p).setObuf input with res := 0 } with ⟨input, hi, e⟩ | e
      · exact .inl ⟨input, trivial, Nat.not_lt.mp h, hi, e⟩
      · exact .inr e

theorem inRun_some {s : State} {kind : RunKind} (h : s.run = some kind) (act : RunKind → Outcome) :
    inRun s act = act kind := by
  simp [inRun, h]

end Sys2Proof.Machine
end

