-- ==== Sys2Proof/Laws/PerInstr.lean ====
section
/-! SUPPORT. Per instruction: its encoding is one of its own row of spec/opcode_table.json. -/

namespace Sys2Proof.Laws.EncodesToItsRow

/-- The mnemonic of a kind of stream element. -/
def kindMnemonic : ElementKind → String
  | .flags => "FLAGS"
  | .lit => "LIT"
  | .ref => "REF"

/-- The encoding of `i` is a 72-bit command word that selects the row of `i`'s mnemonic (R63), or the bytes of a stream element
of the kind `i` is. -/
def Statement (i : Instr) : Prop :=
  match encode i with
  | .command w _ => w < 2 ^ 72 ∧ ∃ r ∈ opcodeMap, r.mnemonic = mnemonic i ∧ r.selects (BitVec.ofNat 72 w) = true
  | .element kind _ => kindMnemonic kind = mnemonic i

/-- A command word has 72 bits. -/
theorem word_lt (op : Byte) (a : Nat) (b : Word) : commandWord Machine.sdb op a b < 2 ^ 72 :=
  commandWord_lt Machine.sdb op a b

/-- A word selects a row when each of its fields does. -/
theorem selects_fields {r : OpcodeRow} {mo vo op : Byte} {ma va mb vb b : Word} {a : Nat}
    (hm : r.mask = joinFields mo ma mb) (hv : r.bits = joinFields vo va vb)
    (h : op &&& mo = vo ∧ BitVec.ofNat 32 a &&& ma = va ∧ b &&& mb = vb) :
    r.selects (BitVec.ofNat 72 (commandWord Machine.sdb op a b)) = true := by
  rw [commandWord_default]
  exact (selects_joinFields hm hv).mpr h

/-- A word of format `A` selects its row. -/
theorem selects_formatA {r : OpcodeRow} {op : Byte} (hm : r.mask = joinFields 0xFF 0 0xFFFFFFFF)
    (hv : r.bits = joinFields op 0 0) (a : Nat) :
    r.selects (BitVec.ofNat 72 (commandWord Machine.sdb op a 0)) = true :=
  selects_fields hm hv ⟨BitVec.and_allOnes, by simp, by simp⟩

theorem load (data : List Byte) : Statement (.load data) :=
  ⟨word_lt _ _ _, ⟨"LOAD", 0x100000000000000000, 0xFF00000000FFFFFFFF⟩, by decide, rfl, selects_formatA (by decide) (by decide) _⟩

theorem adopt : Statement .adopt :=
  ⟨word_lt _ _ _, ⟨"ADOPT", 0x110000000000000000, 0xFFFFFFFFFFFFFFFFFF⟩, by decide, rfl, by decide⟩

theorem rdb (k : Nat) : Statement (.rdb k) :=
  ⟨word_lt _ _ _, ⟨"RDB", 0x200000000000000000, 0xFF00000000FFFFFFFF⟩, by decide, rfl, selects_formatA (by decide) (by decide) _⟩

theorem rda (n : Nat) : Statement (.rda n) :=
  ⟨word_lt _ _ _, ⟨"RDA", 0x210000000000000000, 0xFF00000000FFFFFFFF⟩, by decide, rfl, selects_formatA (by decide) (by decide) _⟩

theorem rdu32 : Statement .rdu32 :=
  ⟨word_lt _ _ _, ⟨"RDU32", 0x220000000000000000, 0xFFFFFFFFFFFFFFFFFF⟩, by decide, rfl, by decide⟩

theorem rdstr (w : Nat) : Statement (.rdstr w) :=
  ⟨word_lt _ _ _, ⟨"RDSTR", 0x230000000000000000, 0xFF00000000FFFFFFFF⟩, by decide, rfl, selects_formatA (by decide) (by decide) _⟩

theorem ska (t : Nat) : Statement (.ska t) :=
  ⟨word_lt _ _ _, ⟨"SKA", 0x240000000000000000, 0xFF00000000FFFFFFFF⟩, by decide, rfl, selects_formatA (by decide) (by decide) _⟩

theorem skr (a : Nat) : Statement (.skr a) :=
  ⟨word_lt _ _ _, ⟨"SKR", 0x250000000000000000, 0xFF00000000FFFFFFFF⟩, by decide, rfl, selects_formatA (by decide) (by decide) _⟩

/-- No bit of a zero-extended byte lies in the reserved bits `A[31:8]`. -/
theorem byte_reserved (byte : Byte) : BitVec.ofNat 32 byte.toNat &&& (0xFFFFFF00 : Word) = 0 := by
  revert byte
  decide +kernel

/-- No bit of the range field lies in the reserved bits of `B` of format `XR`. -/
theorem range_reserved (lo hi : BitVec 3) : rangeField lo hi &&& (0xFFFFFF88 : Word) = 0 := by
  revert lo hi
  decide +kernel

/-- No bit of a zero-extended index lies in the reserved bits of `B` of format `XB`. -/
theorem index_reserved (i : BitVec 3) : i.setWidth 32 &&& (0xFFFFFFF8 : Word) = 0 := by
  revert i
  decide +kernel

theorem pkbits (byte : Byte) (lo hi : BitVec 3) : Statement (.pkbits byte lo hi) :=
  ⟨word_lt _ _ _, ⟨"PKBITS", 0x300000000000000000, 0xFFFFFFFF00FFFFFF88⟩, by decide, rfl,
    selects_fields (mo := 0xFF) (vo := 0x30) (ma := 0xFFFFFF00) (va := 0) (mb := 0xFFFFFF88) (vb := 0)
      (by decide) (by decide) ⟨by decide, byte_reserved byte, range_reserved lo hi⟩⟩

theorem pkbit (byte : Byte) (i : BitVec 3) : Statement (.pkbit byte i) :=
  ⟨word_lt _ _ _, ⟨"PKBIT", 0x310000000000000000, 0xFFFFFFFF00FFFFFFF8⟩, by decide, rfl,
    selects_fields (mo := 0xFF) (vo := 0x31) (ma := 0xFFFFFF00) (va := 0) (mb := 0xFFFFFFF8) (vb := 0)
      (by decide) (by decide) ⟨by decide, byte_reserved byte, index_reserved i⟩⟩

theorem crcrd (k : Nat) : Statement (.crcrd k) :=
  ⟨word_lt _ _ _, ⟨"CRCRD", 0x400000000000000000, 0xFF00000000FFFFFFFF⟩, by decide, rfl, selects_formatA (by decide) (by decide) _⟩

theorem crcvf (x : Word) : Statement (.crcvf x) :=
  ⟨word_lt _ _ _, ⟨"CRCVF", 0x410000000000000000, 0xFF00000000FFFFFFFF⟩, by decide, rfl, selects_formatA (by decide) (by decide) _⟩

theorem decomp : Statement .decomp :=
  ⟨word_lt _ _ _, ⟨"DECOMP", 0x500000000000000000, 0xFFFFFFFFFFFFFFFFFF⟩, by decide, rfl, by decide⟩

theorem decompif : Statement .decompif :=
  ⟨word_lt _ _ _, ⟨"DECOMPIF", 0x510000000000000000, 0xFFFFFFFFFFFFFFFFFF⟩, by decide, rfl, by decide⟩

theorem flags (f : Byte) : Statement (.flags f) := rfl

theorem lit (b : Byte) : Statement (.lit b) := rfl

theorem ref (length distance : Nat) : Statement (.ref length distance) := rfl

end Sys2Proof.Laws.EncodesToItsRow
end

