-- ==== Sys2Proof/Laws/Relation.lean ====
section
/-! SUPPORT. The machine's instructions are the parametric ones at the default parameters. -/

namespace Sys2Proof.Machine

/-- Every instruction of the machine is the parametric one at the defaults. -/
theorem exec_eq_execIn (i : Instr) (s : State) : exec i s = execIn sdb i s := by
  cases i <;> rfl

theorem exec_eq : exec = execIn sdb := by
  funext i s
  exact exec_eq_execIn i s

/-- The relation takes a command outside a run (R150). -/
theorem stepIn_command {s : State} (h : s.run = none) (p : Config.Params) (word : Nat) (data : List Byte) :
    stepIn p (some (.command word data)) s = issue p (execIn p) word data s := by
  simp [stepIn, stepWith, h]

/-- The relation makes one pass of a run, whatever command the host presents (R19, R113). -/
theorem stepIn_run {s : State} {kind : RunKind} (h : s.run = some kind) (p : Config.Params) {input : Option HostInput}
    (hi : input ≠ some .reset) : stepIn p input s = pass p (execIn p) kind s := by
  rcases input with _ | (_ | _)
  · simp [stepIn, stepWith, h]
  · simp [stepIn, stepWith, h]
  · exact absurd rfl hi

/-- Without an input the relation leaves a block that runs nothing as it is (R200). -/
theorem stepIn_wait {s : State} (h : s.run = none) (p : Config.Params) : stepIn p none s = .next s := by
  simp [stepIn, stepWith, h]

/-- The legal command a word stands for is executed; an illegal word raises, or is refused while faulted (R65, R150). -/
theorem issue_legal {p : Config.Params} {word : Nat} {data : List Byte} {i : Instr}
    (h : decodeIn p (.command word data) = .ok i) (run : Executor) (s : State) : issue p run word data s = run i s := by
  simp [issue, h]

theorem issue_illegal {p : Config.Params} {word : Nat} {data : List Byte} {op : Byte}
    (h : decodeIn p (.command word data) = .error (.illegalCommand op)) (run : Executor) (s : State) :
    issue p run word data s = ifReady s (raise .illegalCommand op.toNat 0) := by
  simp [issue, h]

end Sys2Proof.Machine
end

