-- ==== Sys2Proof/Machine/Assembler.lean ====
section
/-! DEFINITION. The assembler syntax and the pseudo-instructions of 30_encoding.md R73 and R74 (notation only, at the default AW, D23, entry 16). -/

namespace Sys2Proof.Machine

/-! ## Pseudo-instructions (R74) -/

/-- `SKIP n` = `SKR +n`. -/
def skip (n : Word) : List Instr := [.skr n.toNat]
/-- `REWIND` = `SKA 0`. -/
def rewind : List Instr := [.ska 0]
/-- `RDNAME` = `RDSTR 8`. -/
def rdname : List Instr := [.rdstr 8]
/-- `RDCHK K, X` = `CRCRD K` then `CRCVF X`. -/
def rdchk (k x : Word) : List Instr := [.crcrd k.toNat, .crcvf x]
/-- `LONIB byte` = `PKBITS byte, 0, 3`. -/
def lonib (byte : Byte) : List Instr := [.pkbits byte 0 3]

/-! ## Numbers and operands (R73): decimal, `0x` hexadecimal, and the `0b` form of a flag byte -/

/-- The value of a digit in a base up to 16. -/
def digitValue (base : Nat) (c : Char) : Option Nat :=
  let v :=
    if '0' ≤ c ∧ c ≤ '9' then c.toNat - 48
    else if 'a' ≤ c ∧ c ≤ 'f' then c.toNat - 87
    else if 'A' ≤ c ∧ c ≤ 'F' then c.toNat - 55
    else 16
  if v < base then some v else none

/-- The value of a digit string read after the value `acc`. -/
def digitsValue (base acc : Nat) : List Char → Option Nat
  | [] => some acc
  | c :: rest =>
    match digitValue base c with
    | none => none
    | some v => digitsValue base (acc * base + v) rest

/-- A number: at least one digit. -/
def parseNumber (s : List Char) : Option Nat :=
  match s with
  | [] => none
  | '0' :: 'x' :: d :: rest => digitsValue 16 0 (d :: rest)
  | '0' :: 'b' :: d :: rest => digitsValue 2 0 (d :: rest)
  | d :: rest => digitsValue 10 0 (d :: rest)

/-- A number below `2^n`. -/
def parseField (n : Nat) (s : List Char) : Option (BitVec n) :=
  match parseNumber s with
  | some v => if v < 2 ^ n then some (BitVec.ofNat n v) else none
  | none => none

/-- The signed operand of `SKR`, as its two's-complement field. -/
def parseDelta : List Char → Option Word
  | '+' :: rest =>
    match parseNumber rest with
    | some v => if v < 2 ^ 31 then some (BitVec.ofNat 32 v) else none
    | none => none
  | '-' :: rest =>
    match parseNumber rest with
    | some v => if v ≤ 2 ^ 31 then some (-(BitVec.ofNat 32 v)) else none
    | none => none
  | _ => none

/-- The double quote. -/
def quote : Char := Char.ofNat 34

/-- A line without its comment: everything before the first `;` that stands outside a quoted string. -/
def dropComment (quoted : Bool) : List Char → List Char
  | [] => []
  | c :: rest =>
    if c = quote then c :: dropComment (!quoted) rest
    else if c = ';' ∧ quoted = false then []
    else c :: dropComment quoted rest

/-- A text without the spaces at its ends. -/
def trim (s : List Char) : List Char :=
  ((s.dropWhile (· == ' ')).reverse.dropWhile (· == ' ')).reverse

/-- The parts of a text between separators. -/
def splitAt (sep : Char) : List Char → List (List Char)
  | [] => [[]]
  | c :: rest =>
    match splitAt sep rest with
    | [] => [[c]]
    | part :: parts => if c = sep then [] :: part :: parts else (c :: part) :: parts

/-- Two hex digits as a byte. -/
def parseHexByte (s : List Char) : Option Byte :=
  match s with
  | [a, b] => (digitsValue 16 0 [a, b]).map (BitVec.ofNat 8)
  | _ => none

/-- Every part of a list, or nothing. -/
def parseAll {α β : Type} (f : α → Option β) : List α → Option (List β)
  | [] => some []
  | a :: rest =>
    match f a, parseAll f rest with
    | some b, some bs => some (b :: bs)
    | _, _ => none

/-- An ASCII character as its byte. -/
def parseAscii (c : Char) : Option Byte :=
  if c.toNat < 128 then some (BitVec.ofNat 8 c.toNat) else none

/-- The byte list of `LOAD`: hex bytes, or a quoted ASCII string (R73). A quote inside the string is not accepted: R73 does not
say whether one may stand there (DESIGN CHOICE, entry 16). -/
def parseBytes (s : List Char) : Option (List Byte) :=
  match s with
  | [] => some []
  | c :: rest =>
    if c = quote then
      match rest.reverse with
      | d :: inner => if d = quote ∧ quote ∉ inner then parseAll parseAscii inner.reverse else none
      | [] => none
    else parseAll parseHexByte ((splitAt ' ' (c :: rest)).filter (· ≠ []))

/-- The instructions of a mnemonic and its operand texts; `none` when the line is none of R63, R73 and R74. -/
def assembleOperands (name : List Char) (text : List Char) : Option (List Instr) :=
  match name, (splitAt ',' text).map trim with
  | ['L', 'O', 'A', 'D'], _ => (parseBytes text).map fun s => [.load s]
  | ['A', 'D', 'O', 'P', 'T'], [[]] => some [.adopt]
  | ['R', 'D', 'B'], [k] => (parseField 32 k).map fun v => [.rdb v.toNat]
  | ['R', 'D', 'A'], [n] => (parseField 32 n).map fun v => [.rda v.toNat]
  | ['R', 'D', 'U', '3', '2'], [[]] => some [.rdu32]
  | ['R', 'D', 'S', 'T', 'R'], [w] => (parseField 32 w).map fun v => [.rdstr v.toNat]
  | ['S', 'K', 'A'], [t] => (parseField 32 t).map fun v => [.ska v.toNat]
  | ['S', 'K', 'R'], [d] => (parseDelta d).map fun v => [.skr v.toNat]
  | ['P', 'K', 'B', 'I', 'T', 'S'], [byte, lo, hi] =>
    match parseField 8 byte, parseField 3 lo, parseField 3 hi with
    | some b, some l, some h => some [.pkbits b l h]
    | _, _, _ => none
  | ['P', 'K', 'B', 'I', 'T'], [byte, i] =>
    match parseField 8 byte, parseField 3 i with
    | some b, some j => some [.pkbit b j]
    | _, _ => none
  | ['C', 'R', 'C', 'R', 'D'], [k] => (parseField 32 k).map fun v => [.crcrd v.toNat]
  | ['C', 'R', 'C', 'V', 'F'], [x] => (parseField 32 x).map fun v => [.crcvf v]
  | ['D', 'E', 'C', 'O', 'M', 'P'], [[]] => some [.decomp]
  | ['D', 'E', 'C', 'O', 'M', 'P', 'I', 'F'], [[]] => some [.decompif]
  | ['F', 'L', 'A', 'G', 'S'], [f] => (parseField 8 f).map fun v => [.flags v]
  | ['L', 'I', 'T'], [b] => (parseField 8 b).map fun v => [.lit v]
  | ['R', 'E', 'F'], [length, distance] =>
    match parseNumber length, parseNumber distance with
    | some l, some d => some [.ref l d]
    | _, _ => none
  | ['S', 'K', 'I', 'P'], [n] => (parseDelta ('+' :: n)).map skip
  | ['R', 'E', 'W', 'I', 'N', 'D'], [[]] => some rewind
  | ['R', 'D', 'N', 'A', 'M', 'E'], [[]] => some rdname
  | ['R', 'D', 'C', 'H', 'K'], [k, x] =>
    match parseField 32 k, parseField 32 x with
    | some a, some b => some (rdchk a b)
    | _, _ => none
  | ['L', 'O', 'N', 'I', 'B'], [byte] => (parseField 8 byte).map lonib
  | _, _ => none

/-- One line of assembler text (R73): a mnemonic, then operands separated by commas, then an optional comment. Only
well-formed instructions are assembled. -/
def assembleLine (line : List Char) : Option (List Instr) :=
  let text := trim (dropComment false line)
  match assembleOperands (text.takeWhile (· != ' ')) (trim (text.dropWhile (· != ' '))) with
  | some is => if is.all (Instr.wellFormedIn sdb) then some is else none
  | none => none

end Sys2Proof.Machine
end

