-- ==== Sys2Proof/Tests/Slice0.lean ====
section
/-! SUPPORT. Tests: the spec's own words and vectors (95_test_vectors.md), and a witness for the hypotheses of each statement. -/

namespace Sys2Proof.Tests

open Sys2Proof.Machine Sys2Proof.Spec

/-! ## Helpers -/

/-- The reset state with the bytes `data` in `IBUF`. -/
def loaded (data : List Byte) : State :=
  { State.reset with ibuf := Memory.ofBytes data, ilen := data.length }

/-- `V20`'s buffer, with the cursor at `pos`. -/
def abcde (pos : Nat) : State := { loaded [0x41, 0x42, 0x43, 0x44, 0x45] with pos := pos }

/-- `s` faulted by `ChecksumMismatched`. -/
def faulted (s : State) : State := { s with err := 2, erra := 7, errb := 8 }

/-- A run over `data` at `src`, with `out` produced so far and `fcnt` bits of the flag byte `flg` consumed. -/
def running (kind : RunKind) (data : List Byte) (src : Nat) (flg : Byte) (fcnt : Fin 9) (lim : Option Nat)
    (out : List Byte) : State :=
  { loaded data with
    obuf := Memory.ofBytes out
    olen := out.length
    src := src
    flg := flg
    fcnt := fcnt
    lim := lim
    run := some kind }

/-- What a test looks at in a next state. -/
def look {α : Type} (f : State → α) : Outcome → Option α
  | .next t => some (f t)
  | .fault _ => none
  | .refused _ => none

/-- The error registers and the status of a next state. -/
def errorOf (o : Outcome) : Option (BitVec 4 × Word × Word × Option Status) :=
  look (fun t => (t.err, t.erra, t.errb, t.status)) o

/-! ## Encodings: words written out from the spec -/

-- P4 step 20; R61, R63: op 0x10, A = 4
theorem test_decode_load :
    decode (.command 0x100000000400000000 [0x42, 0x50, 0x4B, 0x31]) = .ok (.load [0x42, 0x50, 0x4B, 0x31]) := by decide
-- P2 step 3
theorem test_decode_adopt : decode (.command 0x110000000000000000 []) = .ok .adopt := by decide
-- V20 line 3
theorem test_decode_rdb : decode (.command 0x200000000300000000 []) = .ok (.rdb 3) := by decide
-- V20 line 7
theorem test_decode_rda : decode (.command 0x210000000500000000 []) = .ok (.rda 5) := by decide
-- P1 step 4
theorem test_decode_rdu32 : decode (.command 0x220000000000000000 []) = .ok .rdu32 := by decide
-- V23
theorem test_decode_rdstr : decode (.command 0x230000000800000000 []) = .ok (.rdstr 8) := by decide
-- P1 step 14
theorem test_decode_ska : decode (.command 0x240000006800000000 []) = .ok (.ska 0x68) := by decide
-- V20 line 6: SKR -5
theorem test_decode_skr : decode (.command 0x25FFFFFFFB00000000 []) = .ok (.skr 0xFFFFFFFB) := by decide
-- V10: PKBITS 0x78, 3, 6
theorem test_decode_pkbits : decode (.command 0x300000007800000063 []) = .ok (.pkbits 0x78 3 6) := by decide
-- V11: PKBIT 0x56, 6
theorem test_decode_pkbit : decode (.command 0x310000005600000006 []) = .ok (.pkbit 0x56 6) := by decide
-- V41
theorem test_decode_crcrd : decode (.command 0x400000000500000000 []) = .ok (.crcrd 5) := by decide
-- V41
theorem test_decode_crcvf : decode (.command 0x41D0EF7B5E00000000 []) = .ok (.crcvf 0xD0EF7B5E) := by decide
-- P2 step 2
theorem test_decode_decomp : decode (.command 0x500000000000000000 []) = .ok .decomp := by decide
-- V3
theorem test_decode_decompif : decode (.command 0x510000000000000000 []) = .ok .decompif := by decide
-- P6
theorem test_decode_flags : decode (.element .flags [0x20]) = .ok (.flags 0x20) := by decide
-- P6
theorem test_decode_lit : decode (.element .lit [0x41]) = .ok (.lit 0x41) := by decide
-- P6: REF 4, 2 is 10 01; P2: REF 6, 40 is 30 27
theorem test_decode_ref :
    decode (.element .ref [0x10, 0x01]) = .ok (.ref 4 2) ∧ decode (.element .ref [0x30, 0x27]) = .ok (.ref 6 40) := by
  decide

-- V51: every word of the table, and its legal neighbours
theorem test_illegal_words :
    [0x000000000000000000, 0x120000000000000000, 0xFF0000000000000000, 0x220000000100000000, 0x220000000000000001,
     0x110000000100000000, 0x500000000080000000, 0x200000000300000001, 0x300000015600000030, 0x300000005600000038,
     0x3000000056000000B0, 0x300000005600000003, 0x310000005600000008, 0x310000010000000000].all
      (fun w => decodeWord w == none) = true := by decide
theorem test_legal_neighbours :
    decode (.command 0x300000005600000033 []) = .ok (.pkbits 0x56 3 3) ∧
    decode (.command 0x25FFFFFFFF00000000 []) = .ok (.skr 0xFFFFFFFF) := by decide

/-- A block with 16-bit positions, whose command words have 56 bits. -/
def sdb16 : Config.Params := { sdb with aw := 16, icap := 65535, ocap := 300 }
-- R61: the word of AW = 16 is op[55:48], A[47:32], B[31:0]; R64: A is signed for SKR
theorem test_decode_narrow :
    decodeIn sdb16 (.command 0x20000300000000 []) = .ok (.rdb 3) ∧
    decodeIn sdb16 (.command 0x25FFFB00000000 []) = .ok (.skr 0xFFFB) ∧
    decodeIn sdb16 (.command 0x30007800000063 []) = .ok (.pkbits 0x78 3 6) ∧
    decodeIn sdb16 (.command 0x200000000300000000 []) = .error .wordWidth := by decide
-- R61: the word of AW = 64 is op[103:96], A[95:32], B[31:0]; entry 6: CRCVF has 32 bits
theorem test_decode_wide :
    decodeIn { sdb with aw := 64 } (.command 0x20000000010000000300000000 []) = .ok (.rdb 0x100000003) ∧
    decodeIn { sdb with aw := 64 } (.command 0x4100000000D0EF7B5E00000000 []) = .ok (.crcvf 0xD0EF7B5E) ∧
    decodeIn { sdb with aw := 64 } (.command 0x4100000001D0EF7B5E00000000 []) = .error (.illegalCommand 0x41) := by decide

-- R66: a data phase of another length cannot be expressed
theorem test_data_phase_refused :
    decode (.command 0x100000000400000000 [0x42]) = .error .dataPhase ∧
    decode (.command 0x110000000000000000 [0x42]) = .error .dataPhase := by decide

/-! ## WellFormed: an ill-formed term for each check -/

-- R65 (c): lo > hi
theorem test_wellFormed_pkbits :
    (Instr.pkbits 0x56 3 0).wellFormedIn sdb = false ∧ (Instr.pkbits 0x56 3 3).wellFormedIn sdb = true := by decide
-- R70: length 3 to 18
theorem test_wellFormed_ref_length :
    (Instr.ref 2 1).wellFormedIn sdb = false ∧ (Instr.ref 19 1).wellFormedIn sdb = false ∧
    (Instr.ref 3 1).wellFormedIn sdb = true ∧ (Instr.ref 18 1).wellFormedIn sdb = true := by decide
-- R70: distance 1 to 4096
theorem test_wellFormed_ref_distance :
    (Instr.ref 3 0).wellFormedIn sdb = false ∧ (Instr.ref 3 4097).wellFormedIn sdb = false ∧
    (Instr.ref 3 4096).wellFormedIn sdb = true := by decide
-- R64: an operand is a 32-bit field; R61: a 16-bit one with AW = 16
theorem test_wellFormed_operands :
    (([.rdb (2 ^ 32), .rda (2 ^ 32), .rdstr (2 ^ 32), .ska (2 ^ 32), .skr (2 ^ 32), .crcrd (2 ^ 32)] : List Instr).all
      fun i => !i.wellFormedIn sdb) = true ∧
    (Instr.rdb (2 ^ 32 - 1)).wellFormedIn sdb = true ∧
    (Instr.crcvf 0x10000).wellFormedIn { sdb with aw := 16 } = false := by decide
-- R64: the byte count is a 32-bit field
theorem test_wellFormed_load (data : List Byte) (h : data.length = 2 ^ 32) :
    (Instr.load data).wellFormedIn sdb = false := by simp [Instr.wellFormedIn, h, sdb]

/-! ## Buffer control -/

-- R151, P4 step 20: LOAD clears a fault and keeps RBYTES
theorem test_load_clears_fault :
    look (fun t => (t.ilen, t.pos, t.err, t.rbytes))
      (exec (.load [0x42, 0x50]) { faulted (abcde 3) with rbytes := [0x49] }) = some (2, 0, 0, [0x49]) := by decide
-- R151: over capacity
theorem test_load_over_capacity :
    look (fun t => (t.ilen, t.err, t.erra, t.errb)) (loadIn { sdb with icap := 2 } [1, 2, 3] (abcde 3)) =
      some (0, 7, 0, 2) := by decide
-- R152: LOAD 00 41 42 ; DECOMP ; ADOPT
theorem test_adopt :
    look (fun t => (t.ibuf, t.ilen, t.pos, t.olen))
      (exec .adopt (running .decomp [0x00, 0x41, 0x42] 3 0 2 none [0x41, 0x42])) =
      some ([(0, 0x41), (1, 0x42)], 2, 0, 0) := by decide
-- V63: refused while faulted
theorem test_adopt_refused : exec .adopt (faulted (abcde 1)) =
    .next { faulted (abcde 1) with status := some (.err 2) } := by rfl

/-! ## BSQ -/

-- V20 lines 3, 10
theorem test_rdb :
    look (fun t => (t.rbytes, t.rlen, t.pos)) (exec (.rdb 3) (abcde 1)) = some ([0x42, 0x43, 0x44], 3, 4) ∧
    errorOf (exec (.rdb 2) (abcde 4)) = some (3, 4, 2, some (.err 3)) := by decide
-- V20 line 5: at the end
theorem test_rdb_zero_at_end :
    look (fun t => (t.rbytes, t.pos, t.status)) (exec (.rdb 0) (abcde 5)) = some ([], 5, some (.ok (.bytes []))) := by
  decide
-- V20 line 7
theorem test_rda :
    look (fun t => (t.rbytes, t.pos)) (exec (.rda 5) (abcde 0)) = some ([0x41, 0x42, 0x43, 0x44, 0x45], 5) := by decide
-- V21
theorem test_rdu32 :
    look (fun t => (t.res, t.pos))
      (exec .rdu32 { loaded [0x00, 0x78, 0x56, 0x34, 0x12] with pos := 1 }) = some (0x12345678, 5) := by decide
theorem test_rdu32_short :
    errorOf (exec .rdu32 { loaded [0x78, 0x56, 0x34, 0x12, 0xFF, 0xFF, 0xFF, 0xFF, 0x01, 0x00, 0x00] with pos := 8 }) =
      some (3, 8, 4, some (.err 3)) := by decide
-- V23: bytes after the null are ignored; a cut sequence is invalid; UnexpectedEof comes before InvalidText
theorem test_rdstr :
    look (fun t => (t.rbytes, t.rlen, t.pos)) (exec (.rdstr 4) (loaded [0x41, 0x00, 0xFF, 0xFF])) =
      some ([0x41], 1, 4) := by decide
theorem test_rdstr_errors :
    errorOf (exec (.rdstr 4) (loaded [0xC3, 0x00, 0x00, 0x00])) = some (4, 0, 4, some (.err 4)) ∧
    errorOf (exec (.rdstr 4) (loaded [0x41, 0xFF])) = some (3, 0, 4, some (.err 3)) := by decide
-- V20 lines 8, 9; V22
theorem test_ska :
    look (fun t => t.pos) (exec (.ska 5) (abcde 0)) = some 5 ∧
    errorOf (exec (.ska 6) (abcde 0)) = some (3, 0, 6, some (.err 3)) := by decide
-- V20 line 6; V22
theorem test_skr :
    look (fun t => t.pos) (exec (.skr 0xFFFFFFFB) (abcde 5)) = some 0 ∧
    errorOf (exec (.skr 0xFFFFFFFF) (abcde 0)) = some (3, 0, 0xFFFFFFFF, some (.err 3)) := by decide
theorem test_skr_extremes :
    errorOf (exec (.skr 0x80000000) (abcde 0)) = some (3, 0, 0x80000000, some (.err 3)) ∧
    errorOf (exec (.skr 1) (abcde 5)) = some (3, 5, 1, some (.err 3)) := by decide

-- R97 with AW = 16: the field 0xFFFB is -5
theorem test_skr_narrow :
    look (fun t => t.pos) (skrIn sdb16 0xFFFB (abcde 5)) = some 0 ∧
    errorOf (skrIn sdb16 0xFFFA (abcde 5)) = some (3, 5, 0xFFFA, some (.err 3)) := by decide

/-! ## BFX -/

-- V10, both numberings
theorem test_pkbits :
    look (fun t => t.res) (exec (.pkbits 0x78 3 6) State.reset) = some 0xF ∧
    look (fun t => t.res) (exec (.pkbits 0xA5 4 7) State.reset) = some 0xA := by decide
theorem test_pkbits_msb0 :
    look (fun t => t.res) (pkbitsIn { sdb with bitNum := .msb0 } 0x78 3 6 State.reset) = some 0xC := by decide
-- V11, conflict C1
theorem test_pkbit :
    look (fun t => t.res) (exec (.pkbit 0x78 5) State.reset) = some 1 ∧
    look (fun t => t.res) (exec (.pkbit 0x78 7) State.reset) = some 0 := by decide
theorem test_pkbit_msb0 :
    look (fun t => t.res) (pkbitIn { sdb with bitNum := .msb0 } 0x78 5 State.reset) = some 0 := by decide

/-! ## CRC -/

-- V41, V40
theorem test_crcrd :
    look (fun t => (t.crcacc, t.res, t.rlen, t.pos)) (exec (.crcrd 5) (loaded [0x48, 0x45, 0x4C, 0x4C, 0x4F, 0x00])) =
      some (0xD0EF7B5E, 0xD0EF7B5E, 5, 5) := by decide +kernel
-- R144 item 3, R144 item 5 (the procedure from another initial value)
theorem test_crc32v :
    crc32v sdb [0x00] = 0xD219C1DC ∧
    crc32v { sdb with crcInit := 0xFFFFFFFF } [0x31, 0x32, 0x33, 0x34, 0x35, 0x36, 0x37, 0x38, 0x39] = 0x0376E6E7 := by
  decide +kernel
-- R143
theorem test_crcvf :
    look (fun t => t.status) (exec (.crcvf 0x04C11DB7) State.reset) = some (some (.ok .unit)) ∧
    errorOf (exec (.crcvf 0xD0EF7B5E) State.reset) = some (2, 0x04C11DB7, 0xD0EF7B5E, some (.err 2)) := by decide

/-! ## LZD -/

-- V30: overlap; V63
theorem test_decomp :
    look (fun t => (t.obuf.map Prod.snd, t.olen)) (exec .decomp (loaded [0x20, 0x41, 0x42, 0x10, 0x01])) =
      some ([0x41, 0x42, 0x41, 0x42, 0x41, 0x42], 6) := by decide
theorem test_decomp_fails :
    errorOf (exec .decomp (loaded [0x40, 0x41, 0x10, 0x01])) = some (5, 2, 3, some (.err 5)) ∧
    errorOf (exec .decomp (loaded [0x80, 0x00])) = some (5, 1, 2, some (.err 5)) := by decide
-- V3, R123
theorem test_decompif_falls_back :
    look (fun t => (t.obuf.map Prod.snd, t.olen, t.res, t.err))
      (exec .decompif (loaded [0x42, 0x50, 0x4B, 0x31])) = some ([0x42, 0x50, 0x4B, 0x31], 4, 0, 0) := by decide
theorem test_decompif_expands :
    look (fun t => (t.obuf.map Prod.snd, t.olen, t.res)) (exec .decompif (loaded [0x00, 0x41, 0x42])) =
      some ([0x41, 0x42], 2, 1) := by decide
-- V31 pass 1
theorem test_flags :
    look (fun t => (t.src, t.fcnt, t.flg, t.olen))
      (step (running .decomp [0x20, 0x41, 0x42, 0x10, 0x01] 0 0xAA 8 none [])) = some (1, 0, 0x20, 0) := by decide
-- V31 pass 3
theorem test_lit :
    look (fun t => (t.src, t.fcnt, t.obuf.map Prod.snd))
      (step (running .decomp [0x20, 0x41, 0x42, 0x10, 0x01] 2 0x20 1 none [0x41])) = some (3, 2, [0x41, 0x42]) := by decide
-- V31 pass 4
theorem test_ref :
    look (fun t => (t.src, t.fcnt, t.obuf.map Prod.snd, t.olen))
      (step (running .decomp [0x20, 0x41, 0x42, 0x10, 0x01] 3 0x20 2 none [0x41, 0x42])) =
      some (5, 3, [0x41, 0x42, 0x41, 0x42, 0x41, 0x42], 6) := by decide
-- V33: OVERRUN at 6, with the exact length 5
theorem test_ref_overrun :
    errorOf (step (running .decomp [0x10, 0x05, 0x00, 0x00, 0x40, 0x41, 0x20, 0x00] 6 0x40 1 (some 5) [0x41])) =
      some (5, 6, 4, some (.err 5)) := by decide

/-- The preamble of V33. -/
def v33 (s : List Byte) : Option Config.Preamble :=
  match s with
  | s0 :: s1 :: s2 :: s3 :: _ =>
    if s0 = 0x10 then some ⟨4, some (s1.toNat + s2.toNat * 256 + s3.toNat * 65536)⟩ else none
  | _ => none

-- V33: an exact length reached, trailing input ignored; and a failing preamble
theorem test_preamble :
    lzExpand { sdb with lzPreamble := v33 } [0x10, 0x01, 0x00, 0x00, 0x00, 0x41, 0x42] = .ok [0x41] ∧
    lzExpand { sdb with lzPreamble := v33 } [0x11, 0x06, 0x00, 0x00, 0x40] = .fail .preamble 0 := by decide
-- V32: the other flag order, polarity and token byte order
theorem test_stream_parameters :
    lzExpand { sdb with flagMsbFirst := false } [0x02, 0x41, 0x20, 0x00] = .ok [0x41, 0x41, 0x41, 0x41, 0x41, 0x41] ∧
    lzExpand { sdb with refBit := false } [0xFF, 0x41, 0x42] = .ok [0x41, 0x42] ∧
    lzExpand { sdb with tokBigEndian := false } [0x40, 0x41, 0x20, 0x00] = .fail .badDistance 2 := by decide
-- V24
theorem test_text_valid :
    utf8Valid [0xED, 0x9F, 0xBF] = true ∧ utf8Valid [0xED, 0xA0, 0x80] = false ∧
    utf8Valid [0xF4, 0x8F, 0xBF, 0xBF] = true ∧ utf8Valid [0xF4, 0x90, 0x80, 0x80] = false := by decide

/-! ## The step and the host's table view -/

-- P4 steps 17, 18: while faulted an illegal word is refused with the old code
theorem test_sticky_fault :
    errorOf (step { faulted (abcde 1) with port := [.command 0 []] }) = some (2, 7, 8, some (.err 2)) := by decide
-- V51
theorem test_illegal_step :
    errorOf (step { abcde 1 with port := [.command 0x120000000000000000 []] }) = some (6, 0x12, 0, some (.err 6)) := by
  decide
-- R61: a number of more than 72 bits is no command word
theorem test_word_width :
    step { abcde 1 with port := [.command 0x1000000000000000000 []] } = .refused .wordWidth := by rfl
-- R23: the step under other parameters, its command an argument
theorem test_step_relation :
    look (fun t => (t.pos, t.rbytes)) (stepIn sdb16 (some (.command 0x20000300000000 [])) (abcde 1)) =
      some (4, [0x42, 0x43, 0x44]) := by decide
-- R200: reset in the middle of a run
theorem test_reset_input :
    look (fun t => (t.ilen, t.olen, t.run, t.crcacc))
      (step { running .decomp [0x00, 0x41, 0x42] 2 0 1 none [0x41] with port := [.reset] }) =
      some (0, 0, none, 0x04C11DB7) := by decide
-- entry 11
theorem test_table_words :
    decodeTableWord 72 0x240000006800000000 = some (.ska 0x68) ∧ decodeTableWord 8 0x20 = some (.flags 0x20) ∧
    decodeTableWord 16 0x1001 = some (.ref 4 2) ∧ decodeTableWord 72 0 = none := by decide
theorem test_fetch_word :
    step (State.reset.withFetchWord 72 0x310000005600000006) = exec (.pkbit 0x56 6) State.reset ∧
    look (fun t => (t.flg, t.src)) (step (State.reset.withFetchWord 8 0x20)) = some (0x20, 1) := by
  exact ⟨rfl, by decide⟩

/-! ## Assembler text and host sequences -/

-- R73, R74
theorem test_assemble :
    assembleLine "PKBITS 0x78, 3, 6 ; V10".toList = some [.pkbits 0x78 3 6] ∧
    assembleLine "SKR -20".toList = some [.skr 0xFFFFFFEC] ∧
    assembleLine "FLAGS 0b00100000".toList = some [.flags 0x20] ∧
    assembleLine "REF 4, 2".toList = some [.ref 4 2] := by decide +kernel
theorem test_assemble_pseudo :
    assembleLine "RDCHK 5, 0xD0EF7B5E".toList = some [.crcrd 5, .crcvf 0xD0EF7B5E] ∧
    assembleLine "LOAD 41 42".toList = some [.load [0x41, 0x42]] ∧
    assembleLine "PKBITS 0x78, 6, 3".toList = none := by decide +kernel

-- entry 16: no quote inside a quoted string
theorem test_assemble_string :
    assembleLine "LOAD \"AB\"".toList = some [.load [0x41, 0x42]] ∧
    assembleLine "LOAD \"A\"B\"".toList = none ∧ assembleLine "LOAD \"\"".toList = some [.load []] := by
  decide +kernel

-- V1, R170
theorem test_stroke :
    (decodeStroke sdb 0x12 0x34 0x56 0x78 State.reset).1 = .ok ⟨0x64, 0x42, true, 0, true, true⟩ := by decide +kernel
-- V2: a sheet with no strokes, and one byte short
theorem test_sheet :
    (decodeSheet sdb (List.replicate 64 0) State.reset).1 = .ok [] ∧
    (decodeSheet sdb (List.replicate 63 0) State.reset).1 = .error (.code 3) := by decide +kernel
-- R162: no magic after decompression
theorem test_bad_magic :
    (decodeContainer sdb [0x00, 0x41, 0x42] State.reset).1 = .error (.code 1) := by decide +kernel

-- R168, U12: which of two singleton blocks wins, the first having given nothing
theorem test_keep_part :
    keepPart false (some none) (some 7) = some none ∧ keepPart true (some none) (some 7) = some (some 7) ∧
    keepPart false none (some 7) = some (some 7) := by decide

/-- Letter parameters with a profile span of 2 bytes, taken by commands or from the host's copy. -/
def miiParams (byCommands : Bool) : LetterParams (List Byte) Unit where
  nameThumb := [1]
  nameMii := [2]
  nameStationery := [3]
  nameSheet := [4]
  miiSpan := 2
  profile := some
  stationery := fun _ _ => none
  spanByCommands := byCommands
  shortProfile := .other 0
  failedProfile := .other 1
  lastProfileWins := true
  lastStationeryWins := true

-- R168: the span by either way; a too short payload is UnexpectedEof by commands, which fault the block
theorem test_take_span :
    (takeSpan sdb (miiParams true) [7, 8, 9] State.reset).1 = .ok [7, 8] ∧
    takeSpan sdb (miiParams false) [7, 8, 9] State.reset = (.ok [7, 8], State.reset) := by exact ⟨rfl, rfl⟩
theorem test_take_span_short :
    (takeSpan sdb (miiParams true) [7] State.reset).1 = .error (.code 3) ∧
    (takeSpan sdb (miiParams true) [7] State.reset).2.err = 3 ∧
    takeSpan sdb (miiParams false) [7] State.reset = (.error (.other 0), State.reset) := by exact ⟨rfl, rfl, rfl⟩

-- P1: the hand-built container of two blocks
theorem test_container :
    (decodeContainer sdb (buildContainer [([0x41, 0x41, 0x41], [0x48, 0x45, 0x4C, 0x4C, 0x4F]),
      ([0x42, 0x42], [0x12, 0x34, 0x56, 0x78])]) State.reset).1 =
      .ok [([0x41, 0x41, 0x41], [0x48, 0x45, 0x4C, 0x4C, 0x4F]), ([0x42, 0x42], [0x12, 0x34, 0x56, 0x78])] := by
  decide +kernel
-- P1: bytes 0x40 to 0x53 of the container, header 0
theorem test_container_header :
    ((buildContainer [([0x41, 0x41, 0x41], [0x48, 0x45, 0x4C, 0x4C, 0x4F]),
      ([0x42, 0x42], [0x12, 0x34, 0x56, 0x78])]).drop 0x40).take 20 =
      [0x68, 0x00, 0x00, 0x00, 0x05, 0x00, 0x00, 0x00, 0x5E, 0x7B, 0xEF, 0xD0, 0x41, 0x41, 0x41, 0x00, 0x00, 0x00,
       0x00, 0x00] := by decide +kernel

/-! ## Witnesses: a state and operands that meet the hypotheses of each statement, clause by clause -/

theorem inv_abcde_zero : (abcde 0).Inv := by
  constructor <;> decide

theorem inv_abcde (pos : Nat) (h : pos ≤ 5) : (abcde pos).Inv := { inv_abcde_zero with pos_le := h }

/-- A run in the middle of `V31`'s stream, before its reference. -/
def midRun (kind : RunKind) : State :=
  running kind [0x20, 0x41, 0x42, 0x10, 0x01] 3 0x20 2 none [0x41, 0x42]

theorem inv_midRun (kind : RunKind) : (midRun kind).Inv := by
  cases kind <;> (constructor <;> decide)

/-- The same run before its literal at `SRC` = 1, before its flag byte, and at its end. -/
def litRun : State := running .decomp [0x20, 0x41, 0x42, 0x10, 0x01] 1 0x20 0 none []
def flagRun : State := running .decomp [0x20, 0x41, 0x42, 0x10, 0x01] 0 0xAA 8 none []
def endRun (kind : RunKind) : State := running kind [0x00, 0x41] 2 0x00 1 none [0x41]

theorem witness_ResetLeavesEmptyUnfaultedBlock :
    ({ midRun .decomp with port := [.reset] } : State).port = .reset :: [] := rfl

theorem witness_ResetInputIsSeenAsReset :
    ({ faulted (abcde 5) with port := [.reset, .reset] } : State).port = .reset :: [.reset] := rfl

theorem witness_EmptyBufferAfterReset :
    (3 : BitVec 3) ≤ 3 ∧ (0 : BitVec 3) ≤ 7 ∧ (1 : Word) ≠ 0 ∧ (0xFFFFFFFF : Word) ≠ 0 ∧
    (∃ t, exec .adopt State.reset = .next t) ∧ (∃ t, exec .decomp State.reset = .next t) ∧
    (∃ t, exec .decompif State.reset = .next t) := by
  exact ⟨by decide, by decide, by decide, by decide, ⟨_, rfl⟩, ⟨_, rfl⟩, ⟨_, rfl⟩⟩

theorem witness_StepKeepsInvariant : (midRun .decompif).Inv ∧ ∃ t, step (midRun .decompif) = .next t :=
  ⟨inv_midRun _, _, rfl⟩

theorem witness_StepKeepsMemoriesCanonical :
    (midRun .decomp).ibuf.wf ∧ (midRun .decomp).obuf.wf ∧ ∃ t, step (midRun .decomp) = .next t :=
  ⟨by decide, by decide, _, rfl⟩

theorem witness_NoStepReadsOutsideTheBuffers :
    (midRun .decomp).Inv ∧ ({ abcde 5 with port := [.command 0x200000000100000000 []] } : State).Inv := by
  refine ⟨inv_midRun _, ?_⟩
  constructor <;> decide

theorem witness_StepExecutesThePresentedCommand :
    (abcde 1).run = none ∧ ({ abcde 1 with port := [.command 0x200000000300000000 [], .reset] } : State).port =
      .command 0x200000000300000000 [] :: [.reset] ∧ decode (.command 0x200000000300000000 []) = .ok (.rdb 3) := by
  decide

/-- A reset inside a run, a command, the port empty, and a command that waits for a run to end. -/
theorem witness_StepIsTheRelationAtTheDefaults :
    ({ midRun .decomp with port := [.reset] } : State).port = .reset :: [] ∧
    ({ abcde 1 with port := [.command 0 []] } : State).port = .command 0 [] :: [] ∧ (abcde 1).run = none ∧
    NoReset (abcde 1) ∧ (abcde 1).port = [] ∧ NoReset { midRun .decomp with port := [.command 0 []] } ∧
    ({ midRun .decomp with port := [.command 0 []] } : State).run ≠ none := by
  refine ⟨rfl, rfl, rfl, ?_, rfl, ?_, by decide⟩
  all_goals (intro _ h; cases h)

theorem sdb16_ok : sdb16.Ok where
  aw_ge := by decide
  icap_lt := by decide
  ocap_lt := by decide
  lenBits_le := by decide
  limit_lt := by intro _ _ _ h₁ h₂; cases h₁; cases h₂

theorem inv16_abcde : (abcde 1).InvIn sdb16 := by
  constructor <;> decide

theorem inv16_midRun : (midRun .decomp).InvIn sdb16 := by
  constructor <;> decide

/-- A block with 16-bit positions that takes a command, and one inside a run; and the default block. -/
theorem witness_RelationKeepsInvariant :
    (sdb16.Ok ∧ (abcde 1).InvIn sdb16 ∧
      ∃ t, stepIn sdb16 (some (.command 0x20000300000000 [])) (abcde 1) = .next t) ∧
    ((midRun .decomp).InvIn sdb16 ∧ ∃ t, stepIn sdb16 none (midRun .decomp) = .next t) ∧
    (midRun .decomp).InvIn sdb :=
  ⟨⟨sdb16_ok, inv16_abcde, _, rfl⟩, ⟨inv16_midRun, _, rfl⟩, inv_midRun _⟩

/-- Each of the three clauses: a flag byte, a literal, a reference that ends exactly at the end of the input. -/
theorem witness_StepExecutesTheNextStreamElement :
    (flagRun.run = some .decomp ∧ NoReset flagRun ∧ flagRun.src ≠ flagRun.ilen ∧
      (∀ l, flagRun.lim = some l → l ≠ flagRun.olen) ∧ flagRun.fcnt = 8 ∧ flagRun.src + 1 ≤ flagRun.ilen ∧
      flagRun.ibuf.readByte flagRun.src = some 0x20) ∧
    (litRun.run = some .decomp ∧ NoReset litRun ∧ litRun.src ≠ litRun.ilen ∧
      (∀ l, litRun.lim = some l → l ≠ litRun.olen) ∧ (1 : Fin 9).val = litRun.fcnt.val + 1 ∧
      litRun.flg.getLsbD (7 - litRun.fcnt.val) = false ∧ litRun.src + 1 ≤ litRun.ilen ∧
      litRun.ibuf.readByte litRun.src = some 0x41) ∧
    ((midRun .decomp).run = some .decomp ∧ NoReset (midRun .decomp) ∧ (midRun .decomp).src ≠ (midRun .decomp).ilen ∧
      (∀ l, (midRun .decomp).lim = some l → l ≠ (midRun .decomp).olen) ∧
      (3 : Fin 9).val = (midRun .decomp).fcnt.val + 1 ∧
      (midRun .decomp).flg.getLsbD (7 - (midRun .decomp).fcnt.val) = true ∧
      (midRun .decomp).src + 2 ≤ (midRun .decomp).ilen ∧
      (midRun .decomp).ibuf.readByte (midRun .decomp).src = some 0x10 ∧
      (midRun .decomp).ibuf.readByte ((midRun .decomp).src + 1) = some 0x01) := by
  refine ⟨⟨rfl, ?_, by decide, ?_, by decide, by decide, by decide⟩,
    ⟨rfl, ?_, by decide, ?_, by decide, by decide, by decide, by decide⟩,
    ⟨rfl, ?_, by decide, ?_, by decide, by decide, by decide, by decide, by decide⟩⟩
  all_goals (intro _ h; cases h)

/-- At the end of the input without an exact length, and at an exact length with input left. -/
theorem witness_RunEndsWellAtElementBoundary :
    ((endRun .decompif).run = some .decompif ∧ NoReset (endRun .decompif) ∧ (endRun .decompif).lim = none ∧
      (endRun .decompif).src = (endRun .decompif).ilen) ∧
    (({ litRun with lim := some 0 } : State).run = some .decomp ∧ NoReset { litRun with lim := some 0 } ∧
      ({ litRun with lim := some 0 } : State).lim = some ({ litRun with lim := some 0 } : State).olen) := by
  refine ⟨⟨rfl, ?_, rfl, by decide⟩, rfl, ?_, by decide⟩
  all_goals (intro _ h; cases h)

theorem witness_ExhaustedInputBeforeExactLengthFails :
    ({ endRun .decomp with lim := some 2 } : State).run = some .decomp ∧ NoReset { endRun .decomp with lim := some 2 } ∧
    ({ endRun .decomp with lim := some 2 } : State).lim = some 2 ∧ 2 ≠ (endRun .decomp).olen ∧
    (endRun .decomp).src = (endRun .decomp).ilen := by
  refine ⟨rfl, ?_, rfl, by decide, by decide⟩
  intro _ h; cases h

theorem witness_RunAlwaysProgresses :
    (midRun .decomp).Inv ∧ (midRun .decomp).run ≠ none ∧ NoReset (midRun .decomp) ∧
    ∃ t, step (midRun .decomp) = .next t := by
  refine ⟨inv_midRun _, by decide, ?_, _, rfl⟩
  intro _ h; cases h

theorem witness_BlockWaitsForACommand : (abcde 1).run = none ∧ (abcde 1).port = [] := ⟨rfl, rfl⟩

theorem sdb_ok : sdb.Ok where
  aw_ge := by decide
  icap_lt := by decide
  ocap_lt := by decide
  lenBits_le := by decide
  limit_lt := by intro _ _ _ h₁ h₂; cases h₁; cases h₂

theorem witness_DecodeOfEncodeIsIdentity :
    sdb.Ok ∧ (Instr.ref 18 4096).wellFormedIn sdb = true ∧ (Instr.ref 3 1).wellFormedIn sdb = true ∧
    (Instr.pkbits 0xFF 7 7).wellFormedIn sdb = true := ⟨sdb_ok, by decide, by decide, by decide⟩

theorem witness_EncodeOfDecodeIsIdentity :
    decode (.command 0x300000007800000063 []) = .ok (.pkbits 0x78 3 6) ∧
    decode (.element .ref [0xFF, 0xFF]) = .ok (.ref 18 4096) := by decide

/-- A word of a row, one of `PKBITS` with `lo = hi`, one of no row, one with `lo > hi`. -/
theorem witness_DecoderFollowsTheOpcodeMap :
    (⟨"RDB", 0x200000000000000000, 0xFF00000000FFFFFFFF⟩ : OpcodeRow) ∈ opcodeMap ∧
    OpcodeRow.selects ⟨"RDB", 0x200000000000000000, 0xFF00000000FFFFFFFF⟩ 0x20FFFFFFFF00000000 = true ∧
    (⟨"PKBITS", 0x300000000000000000, 0xFFFFFFFF00FFFFFF88⟩ : OpcodeRow) ∈ opcodeMap ∧
    OpcodeRow.selects ⟨"PKBITS", 0x300000000000000000, 0xFFFFFFFF00FFFFFF88⟩ 0x300000005600000033 = true ∧
    (0x300000005600000033 : CommandWord).extractLsb' 0 3 ≤ (0x300000005600000033 : CommandWord).extractLsb' 4 3 ∧
    (∀ r ∈ opcodeMap, r.selects 0x120000000000000000 = false) ∧
    (0x300000005600000003 : CommandWord).extractLsb' 64 8 = 0x30 ∧
    (0x300000005600000003 : CommandWord).extractLsb' 4 3 < (0x300000005600000003 : CommandWord).extractLsb' 0 3 := by
  decide

/-- An illegal word of each kind of R65, and a legal one. -/
theorem witness_IllegalWordRaisesIllegalCommand :
    (abcde 1).run = none ∧ (abcde 1).err = 0 ∧
    ({ abcde 1 with port := [.command 0 []] } : State).port = .command 0 [] :: [] ∧
    IllegalWord 0 ∧ IllegalWord 0x220000000100000000 ∧ IllegalWord 0x200000000300000001 ∧
    IllegalWord 0x300000015600000030 ∧ IllegalWord 0x300000005600000038 ∧ IllegalWord 0x310000005600000008 ∧
    0x300000005600000003 < 2 ^ 72 ∧ IllegalWord 0x300000005600000003 ∧ ¬ IllegalWord 0x300000005600000033 ∧
    ¬ IllegalWord 0x25FFFFFFFF00000000 := by
  refine ⟨rfl, rfl, rfl, ?_, ?_, ?_, ?_, ?_, ?_, by decide, ?_, ?_, ?_⟩ <;> (unfold IllegalWord; decide)

theorem witness_FaultedBlockRefusesAllButLoad :
    (faulted (abcde 1)).err ≠ 0 ∧ (faulted (abcde 1)).run = none ∧ mnemonic (.pkbits 0x56 3 0) ∉ ["LOAD", "FLAGS", "LIT", "REF"] ∧
    ({ faulted (abcde 1) with port := [.command 0 []] } : State).port = .command 0 [] :: [] ∧ 0 < 2 ^ 72 ∧ IllegalWord 0 := by
  refine ⟨by decide, rfl, by decide, rfl, by decide, ?_⟩
  unfold IllegalWord
  decide

theorem witness_ErrorsChangeNothingElse :
    mnemonic (.rdb 6) ∉ ["LOAD", "DECOMP", "DECOMPIF", "FLAGS", "LIT", "REF"] ∧ (abcde 0).err = 0 ∧
    ∃ t, exec (.rdb 6) (abcde 0) = .next t ∧ t.err ≠ 0 := ⟨by decide, rfl, _, rfl, by decide⟩

theorem witness_CommandsRaiseOnlyTheirErrors :
    (Instr.rdstr 6).wellFormedIn sdb = true ∧ (abcde 0).err = 0 ∧ ∃ t, exec (.rdstr 6) (abcde 0) = .next t :=
  ⟨rfl, rfl, _, rfl⟩

theorem witness_OnlyTheNamedInstructionsWrite :
    (∃ t, exec (.crcvf 0x04C11DB7) (abcde 0) = .next t) ∧ (∃ t, exec (.flags 0x20) flagRun = .next t) ∧
    ∃ t, exec (.ska 5) (abcde 0) = .next t := ⟨⟨_, rfl⟩, ⟨_, rfl⟩, _, rfl⟩

theorem witness_TransientsInvisibleToHost :
    SameForHost (abcde 1)
      { abcde 1 with src := 9, flg := 0xFF, fcnt := 8, lim := some 3, clen := 7, cdist := 4096, draws := 12 } :=
  ⟨rfl, rfl⟩

theorem witness_LoadStartsANewDecodeCall :
    ([] : List Byte).length < 2 ^ 32 ∧ ([0x42, 0x50] : List Byte).length < 2 ^ 32 ∧
    ({ sdb with icap := 1 } : Config.Params).icap < ([0x42, 0x50] : List Byte).length := by decide

/-- An output to adopt; and one a byte too long for the input buffer. -/
theorem witness_AdoptMakesTheOutputTheInput :
    ({ midRun .decomp with run := none } : State).Inv ∧ ({ midRun .decomp with run := none } : State).err = 0 ∧
    (midRun .decomp).err = 0 ∧ ({ sdb with icap := 1 } : Config.Params).icap < (midRun .decomp).olen := by
  refine ⟨?_, rfl, rfl, by decide⟩
  constructor <;> decide

/-- Exactly all the remaining bytes, and one more. -/
theorem witness_RdbAndRdaReadExactly :
    (Instr.rda 4 = .rdb 4 ∨ Instr.rda 4 = .rda 4) ∧ (abcde 1).Inv ∧ (abcde 1).err = 0 ∧
    (abcde 1).pos + 4 ≤ (abcde 1).ilen ∧
    (abcde 1).ilen < (abcde 1).pos + 5 :=
  ⟨.inr rfl, inv_abcde _ (by decide), rfl, by decide, by decide⟩

theorem witness_Rdu32ReadsLittleEndian :
    (abcde 1).Inv ∧ (abcde 1).err = 0 ∧ (abcde 1).pos + 4 ≤ (abcde 1).ilen ∧
    (abcde 2).Inv ∧ (abcde 2).err = 0 ∧ (abcde 2).ilen < (abcde 2).pos + 4 :=
  ⟨inv_abcde _ (by decide), rfl, by decide, inv_abcde _ (by decide), rfl, by decide⟩

/-- A short read; a text ended by a null; invalid text. -/
theorem witness_RdstrReadsPaddedText :
    ((abcde 2).Inv ∧ (abcde 2).err = 0 ∧ (abcde 2).ilen < (abcde 2).pos + 4) ∧
    ((loaded [0x41, 0x00, 0xFF]).Inv ∧ (loaded [0x41, 0x00, 0xFF]).err = 0 ∧
      (loaded [0x41, 0x00, 0xFF]).pos + 3 ≤ (loaded [0x41, 0x00, 0xFF]).ilen ∧
      BytesAtCursor (loaded [0x41, 0x00, 0xFF]) 3 [0x41, 0x00, 0xFF] ∧ 1 ≤ 3 ∧
      (∀ j, j < 1 → ([0x41, 0x00, 0xFF] : List Byte)[j]? ≠ some 0) ∧
      ([0x41, 0x00, 0xFF] : List Byte)[1]? = some 0 ∧ sdb.textValid (([0x41, 0x00, 0xFF] : List Byte).take 1) = true) ∧
    sdb.textValid (([0x41, 0xFF, 0x00] : List Byte).take 2) = false := by
  refine ⟨⟨inv_abcde _ (by decide), rfl, by decide⟩, ⟨?_, rfl, by decide, ⟨rfl, by decide⟩, by decide, by decide, rfl, rfl⟩, rfl⟩
  constructor <;> decide

theorem witness_SkaSeeksAbsolute : (abcde 1).err = 0 ∧ 5 ≤ (abcde 1).ilen ∧ (abcde 1).ilen < 6 := by
  decide

/-- A delta to the very end, one below the start, one past the end. -/
theorem witness_SkrSeeksRelative :
    (abcde 1).err = 0 ∧ (5 : Int) = (abcde 1).pos + (4 : Word).toInt ∧ 5 ≤ (abcde 1).ilen ∧
    ((abcde 1).pos : Int) + (0xFFFFFFFE : Word).toInt < 0 ∧
    ((abcde 1).ilen : Int) < (abcde 1).pos + (5 : Word).toInt := by decide

theorem witness_ByteStreamLaws :
    (abcde 1).Inv ∧ (abcde 1).err = 0 ∧ (abcde 1).pos + 3 + 1 ≤ (abcde 1).ilen ∧
    (abcde 1).pos + 4 ≤ (abcde 1).ilen ∧ 2 + 3 ≤ (abcde 1).ilen ∧
    4 < 2 ^ 31 ∧ (abcde 1).pos + 4 ≤ (abcde 1).ilen ∧
    isByteStream (.rdstr 4) = true ∧ (abcde 1).pos ≤ (abcde 1).ilen ∧ (∃ t, exec (.rdstr 4) (abcde 1) = .next t) ∧
    isByteStream (.ska 6) = true ∧ (∃ t, exec (.ska 6) (abcde 1) = .next t ∧ t.status = some (.err 3)) :=
  ⟨inv_abcde _ (by decide), rfl, by decide, by decide, by decide, by decide, by decide, rfl, by decide, ⟨_, rfl⟩, rfl,
    _, rfl, rfl⟩

theorem witness_PkbitsExtractsTheRange :
    (abcde 1).err = 0 ∧ (7 : BitVec 3) ≤ 7 ∧ (0 : BitVec 3) ≤ 7 ∧ (0 : BitVec 3) < 1 ∧
    ({ sdb with bitNum := .msb0 } : Config.Params).bitNum = .msb0 := by decide

theorem witness_PkbitExtractsTheBit :
    (abcde 1).err = 0 ∧ ({ sdb with bitNum := .msb0 } : Config.Params).bitNum = .msb0 := by decide

theorem witness_BitFieldLaws : (7 : BitVec 3) ≤ 7 ∧ (0 : BitVec 3) ≤ 7 ∧ sdb.bitNum = .lsb0 := by decide

theorem witness_CrcrdReadsAndSums :
    (abcde 1).Inv ∧ (abcde 1).err = 0 ∧ (abcde 1).pos + 4 ≤ (abcde 1).ilen ∧
    (abcde 1).ilen < (abcde 1).pos + 5 :=
  ⟨inv_abcde _ (by decide), rfl, by decide, by decide⟩

theorem witness_CrcvfVerifiesTheAccumulator :
    (abcde 1).err = 0 ∧ (abcde 1).crcacc = 0x04C11DB7 ∧ (abcde 1).crcacc ≠ 0x04C11DB6 := by decide

theorem witness_CrcDetectsEverySingleBitFlip :
    7 < 8 ∧ ([0x48, 0x45] : List Byte)[1]? = some 0x45 ∧ 0 < 8 ∧ ([0x48, 0x45] : List Byte)[0]? = some 0x48 := by decide

/-- A stream that expands, one that fails, and one that passes a capacity of 1. -/
theorem witness_DecompExpandsTheInput :
    ((loaded [0x00, 0x41, 0x42]).Inv ∧ (loaded [0x00, 0x41, 0x42]).err = 0 ∧
      lzExpand sdb (loaded [0x00, 0x41, 0x42]).input = .ok [0x41, 0x42] ∧
      lzExpand { sdb with ocap := 1 } (loaded [0x00, 0x41, 0x42]).input = .overflow) ∧
    ((abcde 1).Inv ∧ (abcde 1).err = 0 ∧ lzExpand sdb (abcde 1).input = .fail .badDistance 2) := by
  refine ⟨⟨?_, rfl, by decide, by decide⟩, inv_abcde _ (by decide), rfl, by decide⟩
  constructor <;> decide

theorem witness_DecompifFallsBackToTheInput :
    ((loaded [0x00, 0x41, 0x42]).Inv ∧ (loaded [0x00, 0x41, 0x42]).err = 0 ∧
      lzExpand sdb (loaded [0x00, 0x41, 0x42]).input = .ok [0x41, 0x42] ∧
      lzExpand { sdb with ocap := 1 } (loaded [0x00, 0x41, 0x42]).input = .overflow) ∧
    ((abcde 1).Inv ∧ (abcde 1).err = 0 ∧ lzExpand { sdb with ocap := 4 } (abcde 1).input = .fail .badDistance 2 ∧
      ({ sdb with ocap := 4 } : Config.Params).ocap < (abcde 1).ilen) := by
  refine ⟨⟨?_, rfl, by decide, by decide⟩, inv_abcde _ (by decide), rfl, by decide, by decide⟩
  constructor <;> decide

theorem witness_RunByElementsIsTheCommand :
    (abcde 1).Inv ∧ (abcde 1).err = 0 ∧ (abcde 1).run = none ∧ (abcde 1).port = [] :=
  ⟨inv_abcde _ (by decide), rfl, rfl, rfl⟩

theorem witness_FlagsTakesTheFlagByte : flagRun.run ≠ none := by decide

/-- Below the capacity, and exactly at it. -/
theorem witness_LitAppendsItsByte :
    litRun.run ≠ none ∧ litRun.olen < sdb.ocap ∧ ({ litRun with olen := 0xFFFFFFFF } : State).run ≠ none ∧
    ({ litRun with olen := 0xFFFFFFFF } : State).olen = sdb.ocap := by decide

/-- The smallest and the largest distance, up to an exact length. -/
theorem witness_RefCopiesCyclically :
    (midRun .decomp).Inv ∧ (midRun .decomp).run ≠ none ∧ (midRun .decomp).src + 2 ≤ (midRun .decomp).ilen ∧
    1 ≤ 1 ∧ 1 ≤ (midRun .decomp).olen ∧ 2 ≤ (midRun .decomp).olen ∧
    overruns (midRun .decomp).lim ((midRun .decomp).olen + 18) = false ∧ overruns (some 6) (2 + 4) = false ∧
    (midRun .decomp).olen + 18 ≤ sdb.ocap :=
  ⟨inv_midRun _, by decide, by decide, by decide, by decide, by decide, by decide, by decide, by decide⟩

/-- A capacity of 5, one byte less than the copy needs. -/
theorem witness_RefStopsAtCapacity :
    ({ sdb with ocap := 5 } : Config.Params).Ok ∧ (midRun .decompif).Inv ∧ (midRun .decompif).run ≠ none ∧
    (midRun .decompif).src + 2 ≤ (midRun .decompif).ilen ∧ 1 ≤ 2 ∧ 2 ≤ (midRun .decompif).olen ∧
    overruns (midRun .decompif).lim ((midRun .decompif).olen + 4) = false ∧
    (midRun .decompif).olen ≤ ({ sdb with ocap := 5 } : Config.Params).ocap ∧
    ({ sdb with ocap := 5 } : Config.Params).ocap < (midRun .decompif).olen + 4 := by
  exact ⟨{ sdb_ok with ocap_lt := by decide }, inv_midRun _, by decide, by decide, by decide, by decide, by decide, by decide,
    by decide⟩

/-- The cut token, the distance one past the start, and the exact length passed by one. -/
theorem witness_RefFailsInOrder :
    ({ midRun .decomp with src := 4 } : State).run = some .decomp ∧
    ({ midRun .decomp with src := 4 } : State).ilen < ({ midRun .decomp with src := 4 } : State).src + 2 ∧
    (midRun .decomp).run = some .decomp ∧ (midRun .decomp).olen < 3 ∧
    ({ midRun .decomp with lim := some 5 } : State).run = some .decomp ∧
    overruns ({ midRun .decomp with lim := some 5 } : State).lim ((midRun .decomp).olen + 4) = true := by decide

theorem witness_RefFailureInDecompifFallsBack :
    (midRun .decompif).Inv ∧ (midRun .decompif).run = some .decompif ∧ (midRun .decompif).olen < 3 :=
  ⟨inv_midRun _, rfl, by decide⟩

theorem witness_CopyRepeatsTheTail :
    1 ≤ 2 ∧ 2 ≤ ([0x41, 0x42] : List Byte).length ∧
    lzCopy sdb 2 4 [0x41, 0x42] = some [0x41, 0x42, 0x41, 0x42, 0x41, 0x42] := by decide

/-- The bound met exactly would need a stream of references alone; this is the longest token after one literal (V30). -/
theorem witness_ExpansionIsAtMostNinefold :
    lzExpand sdb [0x40, 0x41, 0xF0, 0x00] = .ok (List.replicate 19 0x41) := by decide

/-- Flag byte 0x00 before eight literals; flag bits without a token are free (0x7F after one literal). -/
theorem witness_LiteralStreamsLoseTheirFlagBytes :
    ([0x7F, 0x41] : List Byte).length < 2 ^ 32 ∧
    (∀ (k j : Nat) (b : Byte), j < 8 → ([0x7F, 0x41] : List Byte)[9 * k]? = some b →
      9 * k + 1 + j < ([0x7F, 0x41] : List Byte).length → b.getLsbD (7 - j) = false) := by
  refine ⟨by decide, fun k j b _ hb hk => ?_⟩
  obtain ⟨rfl, rfl⟩ : k = 0 ∧ j = 0 := by simp at hk; omega
  cases hb
  rfl

theorem witness_PrefixExpandsToPrefix :
    lzExpand sdb [0x40, 0x41, 0x20, 0x00] = .ok [0x41, 0x41, 0x41, 0x41, 0x41, 0x41] ∧
    lzExpand sdb (([0x40, 0x41, 0x20, 0x00] : List Byte).take 2) = .ok [0x41] := by decide

theorem witness_MagicBufferIsReturnedUnchanged : ([] : List Byte).length + 4 < 2 ^ 32 := by decide

theorem witness_ElementsOutsideARunAreRefused :
    mnemonic (.flags 0) ∈ ["FLAGS", "LIT", "REF"] ∧ mnemonic (.lit 0) ∈ ["FLAGS", "LIT", "REF"] ∧
    mnemonic (.ref 3 1) ∈ ["FLAGS", "LIT", "REF"] ∧ (abcde 1).run = none := by decide

theorem witness_StrokeDecodesItsFourBytes : (abcde 1).err = 0 := rfl

/-- A name of the full 8 bytes, an empty name, and two blocks of one name. -/
theorem witness_ContainerRoundTrips :
    (∀ b ∈ ([([0x41, 0x42, 0x43, 0x44, 0x45, 0x46, 0x47, 0x48], [0x01]), ([], []), ([], [0x02])] :
        List (List Byte × List Byte)), b.1.length ≤ 8 ∧ (0 : Byte) ∉ b.1 ∧ utf8Valid b.1 = true) ∧
    (buildContainer [([0x41, 0x42, 0x43, 0x44, 0x45, 0x46, 0x47, 0x48], [0x01]), ([], []), ([], [0x02])]).length <
      2 ^ 32 := by
  exact ⟨by decide, by decide +kernel⟩

theorem witness_GroupingKeepsInsertionOrder :
    ([0x41] : List Byte) ≠ [0x42] ∧
    (∀ b ∈ ([([0x42], [0x01])] : List (List Byte × List Byte)), b.1 ≠ [0x41]) := by decide

end Sys2Proof.Tests
end

section
/-! SUPPORT. Whatever the host does next, the step relation keeps the invariant under any legal parameters (O59): each named
update of the state keeps it, then each shared operation, each instruction, and one pass of a run. -/

namespace Sys2Proof.Machine

variable {p : Config.Params} {s : State}

/-- The outcome is no fault, and a next state meets the invariant. -/
def KeepsInv (p : Config.Params) : Outcome → Prop
  | .next t => t.InvIn p
  | .fault _ => False
  | .refused _ => True

theorem keepsInv_iff (o : Outcome) :
    KeepsInv p o ↔ (∀ t, o = .next t → t.InvIn p) ∧ ∀ f, o ≠ .fault f := by
  cases o <;> simp [KeepsInv]

/-! ## The exact length -/

/-- When an output does not pass the exact length, no shorter one does. -/
theorem overruns_mono {lim : Option Nat} {m n : Nat} (hmn : m ≤ n) (h : overruns lim n = false) :
    overruns lim m = false := by
  cases lim with
  | none => rfl
  | some l => simp only [overruns, decide_eq_false_iff_not] at h ⊢; omega

/-- Before the exact length there is room for one byte more. -/
theorem overruns_succ {lim : Option Nat} {n : Nat} (h : overruns lim n = false) (hl : limitReached lim n = false) :
    overruns lim (n + 1) = false := by
  cases lim with
  | none => rfl
  | some l => simp only [overruns, limitReached, decide_eq_false_iff_not] at h hl ⊢; omega

/-! ## The named updates of the state -/

theorem zero_mem_legalErr : (0 : BitVec 4) ∈ legalErr := by decide

/-- Every code an error records is a value `ERR` can hold (R21). -/
theorem Error.code_legal (e : Error) : e.code ∈ legalErr := by
  cases e <;> decide

namespace State.InvIn

theorem input_length (h : s.InvIn p) : s.input.length = s.ilen := by
  simp [State.input, h.ibuf_filled.length]

theorem output_length (h : s.InvIn p) : s.output.length = s.olen := by
  simp [State.output, h.obuf_filled.length]

theorem withStatus (h : s.InvIn p) (st : Option Status) : ({ s with status := st } : State).InvIn p := { h with }

theorem withRes (h : s.InvIn p) (v : Word) : ({ s with res := v } : State).InvIn p := { h with }

theorem withBytes (h : s.InvIn p) {bytes : List Byte} (hb : bytes.length ≤ p.icap) :
    ({ s with rbytes := bytes, rlen := bytes.length } : State).InvIn p :=
  { h with
    rlen_eq := rfl
    rlen_le := hb }

theorem withSum (h : s.InvIn p) (sum : Word) : ({ s with crcacc := sum, res := sum } : State).InvIn p := { h with }

theorem withPos (h : s.InvIn p) {n : Nat} (hn : n ≤ s.ilen) : ({ s with pos := n } : State).InvIn p :=
  { h with pos_le := hn }

/-- An error is taken outside a run only, since nothing is faulted inside one. -/
theorem enterError (h : s.InvIn p) (hrun : s.run = none) (e : Error) (a b : Nat) : (s.enterError e a b).InvIn p :=
  { h with
    err_legal := e.code_legal
    run_ready := fun hr => absurd hrun hr }

theorem clearError (h : s.InvIn p) : s.clearError.InvIn p :=
  { h with
    err_legal := zero_mem_legalErr
    run_ready := fun _ => rfl }

/-- The free values of the transient registers have the widths of the registers. -/
theorem leaveRun (h : s.InvIn p) : (s.leaveRun p).InvIn p :=
  { h with
    src_lt := (Config.freeSrc p.aw s.draws).isLt
    lim_lt := fun l hl => by
      obtain ⟨v, -, rfl⟩ := Option.map_eq_some_iff.mp hl
      exact v.isLt
    cdist_lt := (Config.freeCdist p.aw s.draws).isLt
    run_ready := fun hr => absurd rfl hr
    run_src := fun hr => absurd rfl hr
    run_lim := fun hr => absurd rfl hr }

theorem emptyObuf (h : s.InvIn p) : s.emptyObuf.InvIn p :=
  { h with
    obuf_filled := rfl
    olen_le := Nat.zero_le _
    run_lim := fun hr => overruns_mono (Nat.zero_le _) (h.run_lim hr) }

theorem setObuf (h : s.InvIn p) (hrun : s.run = none) {out : List Byte} (hout : out.length ≤ p.ocap) :
    (s.setObuf out).InvIn p :=
  { h with
    obuf_filled := Memory.filled_ofBytes out
    olen_le := hout
    run_lim := fun hr => absurd hrun hr }

theorem newInput (h : s.InvIn p) (hrun : s.run = none) {data : List Byte} (hdata : data.length ≤ p.icap) :
    (s.newInput p data).InvIn p :=
  { h with
    ibuf_filled := Memory.filled_ofBytes data
    obuf_filled := rfl
    pos_le := Nat.zero_le _
    ilen_le := hdata
    olen_le := Nat.zero_le _
    run_src := fun hr => absurd hrun hr
    run_lim := fun hr => absurd hrun hr }

/-- A byte is appended below the capacity, and inside a run within the exact length. -/
theorem appendByte (h : s.InvIn p) (hcap : s.olen ≠ p.ocap) (hlim : overruns s.lim (s.olen + 1) = false) (b : Byte) :
    (s.appendByte b).InvIn p :=
  { h with
    obuf_filled := h.obuf_filled.writeByte b
    olen_le := Nat.lt_of_le_of_ne h.olen_le hcap
    run_lim := fun _ => hlim }

/-- `SRC` moves within the input, and so within its `AW` bits. -/
theorem withSrc (hp : p.Ok) (h : s.InvIn p) {n : Nat} (hn : n ≤ s.ilen) : ({ s with src := n } : State).InvIn p :=
  { h with
    src_lt := (hn.trans h.ilen_le).trans_lt hp.icap_lt
    run_src := fun _ => hn }

theorem consumeFlag (h : s.InvIn p) : (consumeFlag s).InvIn p := by
  unfold Machine.consumeFlag
  split
  · exact { h with }
  · exact h

end State.InvIn

/-- The state after reset meets the invariant. -/
theorem State.resetIn_inv (p : Config.Params) : (State.resetIn p).InvIn p where
  ibuf_filled := rfl
  obuf_filled := rfl
  pos_le := Nat.le_refl 0
  ilen_le := Nat.zero_le _
  olen_le := Nat.zero_le _
  rlen_eq := rfl
  rlen_le := Nat.zero_le _
  err_legal := zero_mem_legalErr
  src_lt := Nat.two_pow_pos _
  lim_lt := fun _ hl => nomatch hl
  cdist_lt := Nat.two_pow_pos _
  run_ready := fun _ => rfl
  run_src := fun _ => Nat.le_refl 0
  run_lim := fun _ => rfl

theorem assertReset_inv (p : Config.Params) (s : State) : (assertReset p s).InvIn p :=
  State.InvIn.leaveRun { State.resetIn_inv p with }

/-! ## The shared operations -/

theorem keepsInv_succeed (h : s.InvIn p) (r : Result) : KeepsInv p (succeed r s) := h.withStatus _

theorem keepsInv_raise (h : s.InvIn p) (hrun : s.run = none) (e : Error) (a b : Nat) : KeepsInv p (raise e a b s) :=
  h.enterError hrun e a b

theorem keepsInv_ifReady (h : s.InvIn p) {act : State → Outcome} (hact : KeepsInv p (act s)) :
    KeepsInv p (ifReady s act) := by
  rcases ifReady_cases s act with ⟨-, e⟩ | ⟨-, e⟩ <;> rw [e]
  · exact hact
  · exact h.withStatus _

theorem keepsInv_inRun {act : RunKind → Outcome} (hact : ∀ kind, s.run = some kind → KeepsInv p (act kind)) :
    KeepsInv p (inRun s act) := by
  unfold inRun
  split
  · exact hact _ ‹_›
  · trivial

theorem keepsInv_deliverBytes (h : s.InvIn p) {bytes : List Byte} (hb : bytes.length ≤ p.icap) :
    KeepsInv p (deliverBytes bytes s) :=
  keepsInv_succeed (h.withBytes hb) _

theorem keepsInv_deliverWord (h : s.InvIn p) (v : Word) : KeepsInv p (deliverWord v s) :=
  keepsInv_succeed (h.withRes v) _

/-- The bytes an exact read delivers lie in the input, so they are no more than its capacity. -/
theorem keepsInv_readExact (h : s.InvIn p) (hrun : s.run = none) {k : Nat} {deliver : List Byte → State → Outcome}
    (hdel : ∀ bytes t, bytes.length ≤ p.icap → t.InvIn p → KeepsInv p (deliver bytes t)) :
    KeepsInv p (readExact k s deliver) := by
  by_cases hk : s.ilen < s.pos + k
  · rw [readExact_short hk]
    exact h.enterError hrun _ _ _
  · have hfit : s.pos + k ≤ s.ilen := Nat.not_lt.mp hk
    rw [readExact_fits h.ibuf_filled hfit]
    refine hdel _ _ ?_ (h.withPos hfit)
    have := h.ilen_le
    simp only [List.length_take, List.length_drop, h.input_length]
    omega

theorem keepsInv_seekTo (h : s.InvIn p) (hrun : s.run = none) (target : Int) (operand : Nat) :
    KeepsInv p (seekTo target operand s) := by
  rcases seekTo_cases target operand s with ⟨-, e⟩ | ⟨n, -, hn, e⟩ <;> rw [e]
  · exact h.enterError hrun _ _ _
  · exact (h.withPos hn).withStatus _

/-- Inside a rule a read of the whole input never stops the machine. -/
theorem memRead_wholeInput (h : s.InvIn p) (act : List Byte → Outcome) :
    memRead .ibuf 0 s.ilen s act = act s.input := by
  rw [memRead_ibuf h.ibuf_filled 0 _ (by omega)]
  simp [← h.input_length]

/-! ## The end of a run -/

theorem keepsInv_endOk (h : s.InvIn p) (kind : RunKind) : KeepsInv p (endOk p kind s) := by
  cases kind with
  | decomp => exact keepsInv_succeed h.leaveRun _
  | decompif => exact keepsInv_succeed (h.leaveRun.withRes 1) _

theorem keepsInv_endOverflow (h : s.InvIn p) : KeepsInv p (endOverflow p s) :=
  keepsInv_raise h.leaveRun.emptyObuf rfl _ _ _

theorem keepsInv_endFail (h : s.InvIn p) (kind : RunKind) (cause : FailCause) (index : Nat) :
    KeepsInv p (endFail p kind cause index s) := by
  cases kind with
  | decomp => exact keepsInv_raise h.leaveRun.emptyObuf rfl _ _ _
  | decompif =>
    simp only [endFail, memRead_wholeInput h]
    split
    · exact keepsInv_endOverflow h
    · have hout : s.input.length ≤ p.ocap := by rw [h.input_length]; omega
      exact keepsInv_succeed ((h.leaveRun.setObuf rfl hout).withRes 0) _

/-! ## The commands, outside a run -/

theorem keepsInv_loadIn (h : s.InvIn p) (hrun : s.run = none) (data : List Byte) : KeepsInv p (loadIn p data s) := by
  unfold loadIn
  split
  · exact keepsInv_raise (h.clearError.newInput hrun (Nat.zero_le _)) hrun _ _ _
  · exact keepsInv_succeed (h.clearError.newInput hrun (by omega)) _

theorem keepsInv_adoptIn (h : s.InvIn p) (hrun : s.run = none) : KeepsInv p (adoptIn p s) := by
  refine keepsInv_ifReady h ?_
  split
  · exact keepsInv_raise h hrun _ _ _
  · rw [memRead_obuf h.obuf_filled 0 _ (by omega)]
    refine keepsInv_succeed (h.newInput hrun ?_) _
    simp only [List.length_take, List.length_drop, h.output_length]
    omega

theorem keepsInv_execRdb (h : s.InvIn p) (hrun : s.run = none) (k : Nat) : KeepsInv p (execRdb k s) :=
  keepsInv_ifReady h <| keepsInv_readExact h hrun fun _ _ hb ht => keepsInv_deliverBytes ht hb

theorem keepsInv_execRdu32 (h : s.InvIn p) (hrun : s.run = none) : KeepsInv p (execRdu32 s) :=
  keepsInv_ifReady h <| keepsInv_readExact h hrun fun _ _ _ ht => keepsInv_deliverWord ht _

theorem keepsInv_rdstrIn (h : s.InvIn p) (hrun : s.run = none) (w : Nat) : KeepsInv p (rdstrIn p w s) := by
  refine keepsInv_ifReady h <| keepsInv_readExact h hrun fun field t hb ht => ?_
  dsimp only
  split
  · exact keepsInv_deliverBytes ht ((List.length_take_le' _ _).trans hb)
  · exact keepsInv_raise h hrun _ _ _

theorem keepsInv_execSka (h : s.InvIn p) (hrun : s.run = none) (t : Nat) : KeepsInv p (execSka t s) :=
  keepsInv_ifReady h <| keepsInv_seekTo h hrun _ _

theorem keepsInv_skrIn (h : s.InvIn p) (hrun : s.run = none) (a : Nat) : KeepsInv p (skrIn p a s) :=
  keepsInv_ifReady h <| keepsInv_seekTo h hrun _ _

theorem keepsInv_pkbitsIn (h : s.InvIn p) (hrun : s.run = none) (byte : Byte) (lo hi : BitVec 3) :
    KeepsInv p (pkbitsIn p byte lo hi s) := by
  refine keepsInv_ifReady h ?_
  split
  · exact keepsInv_raise h hrun _ _ _
  · exact keepsInv_deliverWord h _

theorem keepsInv_pkbitIn (h : s.InvIn p) (byte : Byte) (i : BitVec 3) : KeepsInv p (pkbitIn p byte i s) :=
  keepsInv_ifReady h <| keepsInv_deliverWord h _

theorem keepsInv_crcrdIn (h : s.InvIn p) (hrun : s.run = none) (k : Nat) : KeepsInv p (crcrdIn p k s) :=
  keepsInv_ifReady h <| keepsInv_readExact h hrun fun _ _ hb ht => keepsInv_deliverBytes (ht.withSum _) hb

theorem keepsInv_execCrcvf (h : s.InvIn p) (hrun : s.run = none) (x : Word) : KeepsInv p (execCrcvf x s) := by
  refine keepsInv_ifReady h ?_
  split
  · exact keepsInv_succeed h _
  · exact keepsInv_raise h hrun _ _ _

/-! ## What lz_expand answers fits the output buffer -/

theorem lzCopy_length_le {distance n : Nat} {out r : List Byte} (h : lzCopy p distance n out = some r)
    (hout : out.length ≤ p.ocap) : r.length ≤ p.ocap := by
  induction n generalizing out with
  | zero => cases h; exact hout
  | succ n ih =>
    unfold lzCopy at h
    split at h
    · cases h
    · refine ih h ?_
      simp only [List.length_append, List.length_singleton]
      omega

theorem lzLoop_length_le {lim : Option Nat} {inp : List Byte} {src fcnt : Nat} {flg : Byte} {out r : List Byte}
    (h : lzLoop p lim inp src fcnt flg out = .ok r) (hout : out.length ≤ p.ocap) : r.length ≤ p.ocap := by
  fun_induction lzLoop p lim inp src fcnt flg out
  -- The run goes on: after a flag byte, after a copy, after a literal.
  case case5 ih => exact ih h hout
  case case10 hcopy ih => exact ih h (lzCopy_length_le hcopy hout)
  case case12 hcap ih =>
    refine ih h ?_
    simp only [List.length_append, List.length_singleton]
    omega
  -- It ends well with the output so far, or with a failure.
  case case1 | case2 | case4 => cases h; exact hout
  all_goals cases h

theorem lzExpand_length_le {inp r : List Byte} (h : lzExpand p inp = .ok r) : r.length ≤ p.ocap := by
  unfold lzExpand at h
  split at h
  · cases h
  · split at h
    · cases h
    · exact lzLoop_length_le h (Nat.zero_le _)

theorem keepsInv_expandIn (h : s.InvIn p) (hrun : s.run = none) (kind : RunKind) : KeepsInv p (expandIn p kind s) := by
  refine keepsInv_ifReady h ?_
  rw [memRead_wholeInput h]
  split
  · exact keepsInv_endOk (h.setObuf hrun (lzExpand_length_le ‹_›)) kind
  · exact keepsInv_endFail h kind _ _
  · exact keepsInv_endOverflow h

/-! ## The stream elements, inside a run -/

theorem keepsInv_execFlags (hp : p.Ok) (h : s.InvIn p) (hsrc : s.src + 1 ≤ s.ilen) (f : Byte) :
    KeepsInv p (execFlags f s) :=
  keepsInv_inRun fun _ _ => show State.InvIn p _ from { h.withSrc hp hsrc with }

theorem keepsInv_litIn (hp : p.Ok) (h : s.InvIn p) (hsrc : s.src + 1 ≤ s.ilen)
    (hlim : limitReached s.lim s.olen = false) (b : Byte) : KeepsInv p (litIn p b s) := by
  refine keepsInv_inRun fun kind hkind => ?_
  have hrun : s.run ≠ none := by simp [hkind]
  split
  · exact keepsInv_endOverflow h
  · exact (h.appendByte ‹_› (overruns_succ (h.run_lim hrun) hlim) b).withSrc hp hsrc

/-- A copy of `n` bytes whose distance lies in the output, and whose end does not pass the exact length: every byte it reads
holds a value. -/
theorem keepsInv_copyBytes {n : Nat} (h : s.InvIn p) (hd : 1 ≤ s.cdist ∧ s.cdist ≤ s.olen)
    (hlim : overruns s.lim (s.olen + n) = false) : KeepsInv p (copyBytes p n s) := by
  induction n generalizing s with
  | zero => exact h
  | succ n ih =>
    unfold copyBytes
    split
    · exact keepsInv_endOverflow h
    · have hidx : s.olen - s.cdist < s.output.length := by rw [h.output_length]; omega
      have hbyte : s.obuf.readByte (s.olen - s.cdist) = some s.output[s.olen - s.cdist] := by
        rw [Memory.readByte_filled h.obuf_filled]
        exact List.getElem?_eq_getElem hidx
      rw [hbyte]
      have happ := h.appendByte ‹_› (overruns_mono (by omega) hlim) s.output[s.olen - s.cdist]
      refine ih { happ with } ⟨hd.1, Nat.le_succ_of_le hd.2⟩ ?_
      rwa [← Nat.add_assoc, Nat.add_right_comm] at hlim

theorem keepsInv_refIn (hp : p.Ok) (h : s.InvIn p) (length distance : Nat) :
    KeepsInv p (refIn p length distance s) := by
  refine keepsInv_inRun fun kind _ => ?_
  split
  · exact keepsInv_endFail h kind _ _
  · split
    · exact keepsInv_endFail h kind _ _
    · split
      · exact keepsInv_endFail h kind _ _
      · rename_i hsrc hdist hover
        have hd : 1 ≤ distance ∧ distance ≤ s.olen := by omega
        have hcdist : distance < 2 ^ p.aw := (hd.2.trans h.olen_le).trans_lt hp.ocap_lt
        refine keepsInv_copyBytes { h.withSrc hp (n := s.src + 2) (by omega) with cdist_lt := hcdist } hd ?_
        simpa using hover

/-! ## One step -/

/-- Every instruction outside a run: the commands keep the invariant, and a stream element is refused. -/
theorem keepsInv_execIn (h : s.InvIn p) (hrun : s.run = none) (i : Instr) : KeepsInv p (execIn p i s) := by
  have hrefused : ∀ act, KeepsInv p (inRun s act) := fun act =>
    keepsInv_inRun fun kind hkind => by simp [hrun] at hkind
  cases i with
  | load data => exact keepsInv_loadIn h hrun data
  | adopt => exact keepsInv_adoptIn h hrun
  | rdb k => exact keepsInv_execRdb h hrun k
  | rda n => exact keepsInv_execRdb h hrun n
  | rdu32 => exact keepsInv_execRdu32 h hrun
  | rdstr w => exact keepsInv_rdstrIn h hrun w
  | ska t => exact keepsInv_execSka h hrun t
  | skr a => exact keepsInv_skrIn h hrun a
  | pkbits byte lo hi => exact keepsInv_pkbitsIn h hrun byte lo hi
  | pkbit byte k => exact keepsInv_pkbitIn h byte k
  | crcrd k => exact keepsInv_crcrdIn h hrun k
  | crcvf x => exact keepsInv_execCrcvf h hrun x
  | decomp => exact keepsInv_expandIn h hrun .decomp
  | decompif => exact keepsInv_expandIn h hrun .decompif
  | flags f => exact hrefused _
  | lit b => exact hrefused _
  | ref length distance => exact hrefused _

theorem keepsInv_issue (h : s.InvIn p) (hrun : s.run = none) (word : Nat) (data : List Byte) :
    KeepsInv p (issue p (execIn p) word data s) := by
  unfold issue
  split
  · exact keepsInv_execIn h hrun _
  · exact keepsInv_ifReady h (keepsInv_raise h hrun _ _ _)
  all_goals trivial

/-- An element the decoder accepts is of the kind it was asked for. -/
theorem decodeElement_ok {kind : ElementKind} {bytes : List Byte} {i : Instr} (h : decodeElement p kind bytes = .ok i) :
    (∃ f, kind = .flags ∧ i = .flags f) ∨ (∃ b, kind = .lit ∧ i = .lit b) ∨
    ∃ length distance, kind = .ref ∧ i = .ref length distance := by
  unfold decodeElement at h
  split at h <;> cases h
  · exact .inl ⟨_, rfl, rfl⟩
  · exact .inr (.inl ⟨_, rfl, rfl⟩)
  · exact .inr (.inr ⟨_, _, rfl, rfl⟩)

/-- The element at `SRC`, present in the input and before the exact length, executed after its flag bit is consumed. -/
theorem keepsInv_element (hp : p.Ok) (h : s.InvIn p) (hlim : limitReached s.lim s.olen = false) {kind : ElementKind}
    (hsize : s.src + ElementKind.size kind ≤ s.ilen) {bytes : List Byte} {i : Instr}
    (hi : decodeElement p kind bytes = .ok i) :
    KeepsInv p (execIn p i (consumeFlag s)) := by
  have hc : (consumeFlag s).InvIn p := h.consumeFlag
  rcases decodeElement_ok hi with ⟨f, rfl, rfl⟩ | ⟨b, rfl, rfl⟩ | ⟨length, distance, rfl, rfl⟩
  · exact keepsInv_execFlags hp hc (by simpa [ElementKind.size] using hsize) f
  · exact keepsInv_litIn hp hc (by simpa [ElementKind.size] using hsize) (by simpa using hlim) b
  · exact keepsInv_refIn hp hc length distance

theorem keepsInv_pass (hp : p.Ok) (h : s.InvIn p) (kind : RunKind) : KeepsInv p (pass p (execIn p) kind s) := by
  unfold pass
  split
  · exact keepsInv_endOk h kind
  rename_i hlim
  split
  · split
    · exact keepsInv_endOk h kind
    · exact keepsInv_endFail h kind _ _
  split
  · exact keepsInv_endFail h kind _ _
  rename_i hsize
  rw [memRead_ibuf h.ibuf_filled _ _ (Nat.not_lt.mp hsize)]
  split
  · exact keepsInv_element hp h (by simpa using hlim) (Nat.not_lt.mp hsize) ‹_›
  · trivial

theorem keepsInv_stepIn (hp : p.Ok) (h : s.InvIn p) (input : Option HostInput) : KeepsInv p (stepIn p input s) := by
  by_cases hreset : input = some .reset
  · rw [hreset]
    exact assertReset_inv p s
  · cases hrun : s.run with
    | some kind =>
      rw [stepIn_run hrun p hreset]
      exact keepsInv_pass hp h kind
    | none =>
      match input with
      | none => rw [stepIn_wait hrun]; exact h
      | some (.command word data) => rw [stepIn_command hrun]; exact keepsInv_issue h hrun word data
      | some .reset => exact absurd rfl hreset

end Sys2Proof.Machine

namespace Sys2Proof.Spec

open Sys2Proof.Machine

/-- Settles O59: every update, operation and instruction that a step is made of keeps the invariant and reads only bytes
that hold a value. -/
theorem relationKeepsInvariant : Obligations.RelationKeepsInvariant := by
  intro p input s hp h
  exact (keepsInv_iff _).mp (keepsInv_stepIn hp h input)

end Sys2Proof.Spec
end

section
/-! SUPPORT. The step of the machine as the parametric relation with its input taken from the port (O58), and the invariant along
it (O4, O5, O7). -/

namespace Sys2Proof.Machine

variable {s : State}

/-- The default parameters are legal. -/
theorem sdb_params_ok : sdb.Ok where
  aw_ge := by decide
  icap_lt := by decide
  ocap_lt := by decide
  lenBits_le := by decide
  limit_lt := fun _ pre l hpre hl => by cases hpre; cases hl

/-! ## Where the input of a step comes from -/

theorem step_of_reset {rest : List HostInput} (h : s.port = .reset :: rest) :
    step s = stepIn sdb (some .reset) { s with port := rest } := by
  simp [step, advance, h, stepIn, exec_eq]

theorem step_of_command {word : Nat} {data : List Byte} {rest : List HostInput}
    (h : s.port = .command word data :: rest) (hrun : s.run = none) :
    step s = stepIn sdb (some (.command word data)) { s with port := rest } := by
  simp [step, advance, h, hrun, stepIn, exec_eq]

/-- With no reset asserted, nothing is taken from an empty port, nor from any port while a run is in progress. -/
theorem step_of_noInput (hreset : ∀ rest, s.port ≠ .reset :: rest) (h : s.port = [] ∨ s.run ≠ none) :
    step s = stepIn sdb none s := by
  match hport : s.port with
  | [] => simp [step, advance, hport, stepIn, exec_eq]
  | .reset :: rest => exact absurd hport (hreset rest)
  | .command word data :: rest =>
    obtain ⟨kind, hkind⟩ : ∃ kind, s.run = some kind := by
      simpa [hport, Option.ne_none_iff_exists'] using h
    simp [step, advance, hport, hkind, stepIn, exec_eq]

/-- Whatever the port holds, a step is one of the relation at the defaults, from the same state but for its port. -/
theorem step_eq_stepIn (s : State) : ∃ input port, step s = stepIn sdb input { s with port := port } := by
  match hport : s.port with
  | [] => exact ⟨none, s.port, step_of_noInput (by simp [hport]) (.inl hport)⟩
  | .reset :: rest => exact ⟨_, rest, step_of_reset hport⟩
  | .command word data :: rest =>
    by_cases hrun : s.run = none
    · exact ⟨_, rest, step_of_command hport hrun⟩
    · exact ⟨none, s.port, step_of_noInput (by simp [hport]) (.inr hrun)⟩

/-! ## The invariant along a step -/

theorem State.InvIn.withPort {p : Config.Params} (h : s.InvIn p) (port : List HostInput) :
    ({ s with port := port } : State).InvIn p := { h with }

theorem keepsInv_step (h : s.Inv) : KeepsInv sdb (step s) := by
  obtain ⟨input, port, e⟩ := step_eq_stepIn s
  rw [e]
  exact keepsInv_stepIn sdb_params_ok (h.withPort port) input

end Sys2Proof.Machine

namespace Sys2Proof.Spec

open Sys2Proof.Machine

/-- Settles O5: the step is one of the relation at the defaults, and that keeps the invariant (O59). -/
theorem stepKeepsInvariant : Obligations.StepKeepsInvariant :=
  fun _ t h ht => ((keepsInv_iff _).mp (keepsInv_step h)).1 t ht

/-- Settles O7: the step is one of the relation at the defaults, and that reads only bytes that hold a value (O59). -/
theorem noStepReadsOutsideTheBuffers : Obligations.NoStepReadsOutsideTheBuffers :=
  fun _ f h => ((keepsInv_iff _).mp (keepsInv_step h)).2 f

/-- Settles O4: the reset state meets the invariant under any parameters, so at the defaults. -/
theorem resetMeetsInvariant : Obligations.ResetMeetsInvariant := State.resetIn_inv sdb

/-- Settles O58, by the three cases of the port and the run. -/
theorem stepIsTheRelationAtTheDefaults : Obligations.StepIsTheRelationAtTheDefaults :=
  fun _ => ⟨fun _ => step_of_reset, fun _ _ _ => step_of_command, step_of_noInput⟩

end Sys2Proof.Spec
end

section
/-! SUPPORT. Which state each instruction writes (O22): the parts of the state, what each update of it and each shared operation
writes, then each instruction. -/

namespace Sys2Proof.Machine

/-- The parts of the state whose writers O22 names: all of it but the error registers and the status. -/
inductive StatePart where
  | input
  | output
  | cursor
  | scalar
  | byteList
  | checksum
  | transients
  | port

variable {p : Config.Params} {s t u : State} {ws ws' : List StatePart}

/-- The part is the same in `t` as in `s`. -/
def StatePart.Kept (s t : State) : StatePart → Prop
  | .input => t.ilen = s.ilen ∧ t.ibuf = s.ibuf
  | .output => t.olen = s.olen ∧ t.obuf = s.obuf
  | .cursor => t.pos = s.pos
  | .scalar => t.res = s.res
  | .byteList => t.rbytes = s.rbytes ∧ t.rlen = s.rlen
  | .checksum => t.crcacc = s.crcacc
  | .transients => t.run = s.run ∧ t.src = s.src ∧ t.flg = s.flg ∧ t.fcnt = s.fcnt ∧ t.lim = s.lim ∧ t.clen = s.clen ∧
    t.cdist = s.cdist ∧ t.draws = s.draws
  | .port => t.port = s.port

/-- From `s` to `t` at most the parts `ws` have been written. -/
def WritesOnly (ws : List StatePart) (s t : State) : Prop := ∀ part ∉ ws, part.Kept s t

/-- The outcome is no next state, or one that differs from `s` at most in the parts `ws`. -/
def OutcomeWrites (ws : List StatePart) (s : State) : Outcome → Prop
  | .next t => WritesOnly ws s t
  | .fault _ => True
  | .refused _ => True

theorem StatePart.Kept.trans {part : StatePart} (h : part.Kept s t) (h' : part.Kept t u) : part.Kept s u := by
  cases part <;> simp_all [StatePart.Kept]

theorem WritesOnly.refl (ws : List StatePart) (s : State) : WritesOnly ws s s := by
  intro part _
  cases part <;> simp [StatePart.Kept]

theorem WritesOnly.trans (h : WritesOnly ws s t) (h' : WritesOnly ws t u) : WritesOnly ws s u :=
  fun part hn => (h part hn).trans (h' part hn)

theorem WritesOnly.mono (h : WritesOnly ws s t) (hsub : ws ⊆ ws') : WritesOnly ws' s t :=
  fun part hn => h part (mt (@hsub part) hn)

theorem OutcomeWrites.mono {o : Outcome} (h : OutcomeWrites ws s o) (hsub : ws ⊆ ws') : OutcomeWrites ws' s o := by
  cases o with
  | next t => exact WritesOnly.mono h hsub
  | fault _ | refused _ => trivial

/-- What is written before an operation and by it. -/
theorem OutcomeWrites.after {o : Outcome} (h : OutcomeWrites ws' t o) (hst : WritesOnly ws s t) :
    OutcomeWrites (ws ++ ws') s o := by
  cases o with
  | next u => exact (hst.mono (by simp)).trans (WritesOnly.mono h (by simp))
  | fault _ | refused _ => trivial

/-! ## The updates of the state -/

theorem writesOnly_status (s : State) (st : Option Status) : WritesOnly [] s { s with status := st } := by
  intro part _
  cases part <;> simp [StatePart.Kept]

theorem writesOnly_enterError (s : State) (e : Error) (a b : Nat) : WritesOnly [] s (s.enterError e a b) := by
  intro part _
  cases part <;> simp [StatePart.Kept]

theorem writesOnly_pos (s : State) (n : Nat) : WritesOnly [.cursor] s { s with pos := n } := by
  intro part hn
  cases part <;> simp [StatePart.Kept] at hn ⊢

theorem writesOnly_res (s : State) (v : Word) : WritesOnly [.scalar] s { s with res := v } := by
  intro part hn
  cases part <;> simp [StatePart.Kept] at hn ⊢

theorem writesOnly_bytes (s : State) (bytes : List Byte) :
    WritesOnly [.byteList] s { s with rbytes := bytes, rlen := bytes.length } := by
  intro part hn
  cases part <;> simp [StatePart.Kept] at hn ⊢

theorem writesOnly_sum (s : State) (sum : Word) :
    WritesOnly [.checksum, .scalar] s { s with crcacc := sum, res := sum } := by
  intro part hn
  cases part <;> simp [StatePart.Kept] at hn ⊢

theorem writesOnly_clearError (s : State) : WritesOnly [] s s.clearError := by
  intro part _
  cases part <;> simp [StatePart.Kept]

theorem writesOnly_newInput (s : State) (p : Config.Params) (data : List Byte) :
    WritesOnly [.input, .output, .cursor, .checksum] s (s.newInput p data) := by
  intro part hn
  cases part <;> simp [StatePart.Kept] at hn ⊢

theorem writesOnly_leaveRun (s : State) (p : Config.Params) : WritesOnly [.transients] s (s.leaveRun p) := by
  intro part hn
  cases part <;> simp [StatePart.Kept] at hn ⊢

theorem writesOnly_setObuf (s : State) (out : List Byte) : WritesOnly [.output] s (s.setObuf out) := by
  intro part hn
  cases part <;> simp [StatePart.Kept] at hn ⊢

theorem writesOnly_emptyObuf (s : State) : WritesOnly [.output] s s.emptyObuf := writesOnly_setObuf s []

theorem writesOnly_appendByte (s : State) (b : Byte) : WritesOnly [.output] s (s.appendByte b) := by
  intro part hn
  cases part <;> simp [StatePart.Kept] at hn ⊢

/-- The stream elements write `SRC`, the flag state and the copy state. -/
theorem writesOnly_transients (s : State) (src : Nat) (flg : Byte) (fcnt : Fin 9) (clen cdist : Nat) :
    WritesOnly [.transients] s { s with src := src, flg := flg, fcnt := fcnt, clen := clen, cdist := cdist } := by
  intro part hn
  cases part <;> simp [StatePart.Kept] at hn ⊢

/-! ## The shared operations -/

theorem outcomeWrites_succeed (s : State) (r : Result) : OutcomeWrites [] s (succeed r s) := writesOnly_status s _

theorem outcomeWrites_raise (s : State) (e : Error) (a b : Nat) : OutcomeWrites [] s (raise e a b s) :=
  writesOnly_enterError s e a b

theorem outcomeWrites_ifReady {act : State → Outcome} (h : OutcomeWrites ws s (act s)) :
    OutcomeWrites ws s (ifReady s act) := by
  rcases ifReady_cases s act with ⟨-, e⟩ | ⟨-, e⟩ <;> rw [e]
  · exact h
  · exact (writesOnly_status s _).mono (List.nil_subset _)

theorem outcomeWrites_inRun {act : RunKind → Outcome} (h : ∀ kind, OutcomeWrites ws s (act kind)) :
    OutcomeWrites ws s (inRun s act) := by
  unfold inRun
  split
  · exact h _
  · trivial

theorem outcomeWrites_memRead {sp : Space} {a n : Nat} {act : List Byte → Outcome}
    (h : ∀ bytes, OutcomeWrites ws s (act bytes)) : OutcomeWrites ws s (memRead sp a n s act) := by
  rcases memRead_cases sp a n s act with ⟨bytes, -, e⟩ | e <;> rw [e]
  · exact h bytes
  · trivial

theorem outcomeWrites_deliverBytes (s : State) (bytes : List Byte) :
    OutcomeWrites [.byteList] s (deliverBytes bytes s) :=
  (outcomeWrites_succeed _ _).after (writesOnly_bytes s bytes)

theorem outcomeWrites_deliverWord (s : State) (v : Word) : OutcomeWrites [.scalar] s (deliverWord v s) :=
  (outcomeWrites_succeed _ _).after (writesOnly_res s v)

theorem outcomeWrites_readExact {k : Nat} {deliver : List Byte → State → Outcome}
    (h : ∀ bytes, OutcomeWrites ws s (deliver bytes { s with pos := s.pos + k })) :
    OutcomeWrites ws s (readExact k s deliver) := by
  rcases readExact_cases k s deliver with ⟨-, e⟩ | ⟨bytes, -, -, e⟩ | e <;> rw [e]
  · exact (writesOnly_enterError s _ _ _).mono (List.nil_subset _)
  · exact h bytes
  · trivial

theorem outcomeWrites_seekTo (target : Int) (operand : Nat) (s : State) :
    OutcomeWrites [.cursor] s (seekTo target operand s) := by
  rcases seekTo_cases target operand s with ⟨-, e⟩ | ⟨n, -, -, e⟩ <;> rw [e]
  · exact (writesOnly_enterError s _ _ _).mono (List.nil_subset _)
  · exact (outcomeWrites_succeed _ _).after (writesOnly_pos s n)

/-! ## The end of a run -/

/-- What the end of a run of each command writes: `DECOMPIF` also tells in `RES` whether it decompressed (R123). -/
def RunKind.written : RunKind → List StatePart
  | .decomp => [.output, .transients]
  | .decompif => [.output, .transients, .scalar]

theorem outcomeWrites_endOk (p : Config.Params) (kind : RunKind) (s : State) :
    OutcomeWrites kind.written s (endOk p kind s) := by
  have hleave := writesOnly_leaveRun s p
  cases kind with
  | decomp => exact ((outcomeWrites_succeed _ _).after hleave).mono (by simp [RunKind.written])
  | decompif =>
    exact (((outcomeWrites_succeed _ _).after (writesOnly_res _ 1)).after hleave).mono (by simp [RunKind.written])

theorem outcomeWrites_endOverflow (p : Config.Params) (s : State) :
    OutcomeWrites [.transients, .output] s (endOverflow p s) :=
  ((outcomeWrites_raise _ _ _ _).after (writesOnly_emptyObuf _)).after (writesOnly_leaveRun s p)

theorem outcomeWrites_endFail (p : Config.Params) (kind : RunKind) (cause : FailCause) (index : Nat) (s : State) :
    OutcomeWrites kind.written s (endFail p kind cause index s) := by
  have hleave := writesOnly_leaveRun s p
  cases kind with
  | decomp =>
    exact (((outcomeWrites_raise _ _ _ _).after (writesOnly_emptyObuf _)).after hleave).mono (by simp [RunKind.written])
  | decompif =>
    unfold endFail
    dsimp only
    split
    · exact (outcomeWrites_endOverflow p s).mono (by simp [RunKind.written])
    · refine outcomeWrites_memRead fun input => ?_
      have hfallback := writesOnly_setObuf (s.leaveRun p) input
      exact ((((outcomeWrites_succeed _ _).after (writesOnly_res _ 0)).after hfallback).after hleave).mono
        (by simp [RunKind.written])

theorem RunKind.overflow_subset_written (kind : RunKind) : [.transients, .output] ⊆ kind.written := by
  cases kind <;> simp [RunKind.written]

theorem RunKind.written_subset (kind : RunKind) : kind.written ⊆ [.output, .transients, .scalar] := by
  cases kind <;> simp [RunKind.written]

/-! ## The commands and the stream elements -/

theorem outcomeWrites_loadIn (p : Config.Params) (data : List Byte) (s : State) :
    OutcomeWrites [.input, .output, .cursor, .checksum] s (loadIn p data s) := by
  have hnew : ∀ data', WritesOnly [.input, .output, .cursor, .checksum] s (s.clearError.newInput p data') :=
    fun data' => ((writesOnly_clearError s).mono (List.nil_subset _)).trans (writesOnly_newInput _ p data')
  unfold loadIn
  split
  · exact (outcomeWrites_raise _ _ _ _).after (hnew [])
  · exact (outcomeWrites_succeed _ _).after (hnew data)

theorem outcomeWrites_adoptIn (p : Config.Params) (s : State) :
    OutcomeWrites [.input, .output, .cursor, .checksum] s (adoptIn p s) := by
  refine outcomeWrites_ifReady ?_
  split
  · exact (outcomeWrites_raise _ _ _ _).mono (List.nil_subset _)
  · exact outcomeWrites_memRead fun out => (outcomeWrites_succeed _ _).after (writesOnly_newInput s p out)

theorem outcomeWrites_execRdb (k : Nat) (s : State) : OutcomeWrites [.cursor, .byteList] s (execRdb k s) :=
  outcomeWrites_ifReady <| outcomeWrites_readExact fun bytes =>
    (outcomeWrites_deliverBytes _ bytes).after (writesOnly_pos s _)

theorem outcomeWrites_execRdu32 (s : State) : OutcomeWrites [.cursor, .scalar] s (execRdu32 s) :=
  outcomeWrites_ifReady <| outcomeWrites_readExact fun bytes =>
    (outcomeWrites_deliverWord _ (u32le bytes)).after (writesOnly_pos s _)

theorem outcomeWrites_rdstrIn (p : Config.Params) (w : Nat) (s : State) :
    OutcomeWrites [.cursor, .byteList] s (rdstrIn p w s) := by
  refine outcomeWrites_ifReady <| outcomeWrites_readExact fun field => ?_
  dsimp only
  split
  · exact (outcomeWrites_deliverBytes _ _).after (writesOnly_pos s _)
  · exact (outcomeWrites_raise _ _ _ _).mono (List.nil_subset _)

theorem outcomeWrites_pkbitsIn (p : Config.Params) (byte : Byte) (lo hi : BitVec 3) (s : State) :
    OutcomeWrites [.scalar] s (pkbitsIn p byte lo hi s) := by
  refine outcomeWrites_ifReady ?_
  split
  · exact (outcomeWrites_raise _ _ _ _).mono (List.nil_subset _)
  · exact outcomeWrites_deliverWord s _

theorem outcomeWrites_crcrdIn (p : Config.Params) (k : Nat) (s : State) :
    OutcomeWrites [.cursor, .checksum, .scalar, .byteList] s (crcrdIn p k s) :=
  outcomeWrites_ifReady <| outcomeWrites_readExact fun bytes =>
    ((outcomeWrites_deliverBytes _ bytes).after (writesOnly_sum _ _)).after (writesOnly_pos s _)

theorem outcomeWrites_execCrcvf (x : Word) (s : State) : OutcomeWrites [] s (execCrcvf x s) := by
  refine outcomeWrites_ifReady ?_
  split
  · exact outcomeWrites_succeed s _
  · exact outcomeWrites_raise s _ _ _

theorem outcomeWrites_expandIn (p : Config.Params) (kind : RunKind) (s : State) :
    OutcomeWrites kind.written s (expandIn p kind s) := by
  refine outcomeWrites_ifReady <| outcomeWrites_memRead fun input => ?_
  split
  · refine ((outcomeWrites_endOk p kind _).after (writesOnly_setObuf s _)).mono ?_
    cases kind <;> simp [RunKind.written]
  · exact outcomeWrites_endFail p kind _ _ s
  · exact (outcomeWrites_endOverflow p s).mono kind.overflow_subset_written

theorem outcomeWrites_execFlags (f : Byte) (s : State) : OutcomeWrites [.transients] s (execFlags f s) :=
  outcomeWrites_inRun fun _ => writesOnly_transients s (s.src + 1) f 0 s.clen s.cdist

theorem outcomeWrites_litIn (p : Config.Params) (b : Byte) (s : State) :
    OutcomeWrites [.transients, .output] s (litIn p b s) := by
  refine outcomeWrites_inRun fun _ => ?_
  split
  · exact outcomeWrites_endOverflow p s
  · have happ := (writesOnly_appendByte s b).mono (ws' := [.transients, .output]) (by simp)
    exact happ.trans ((writesOnly_transients _ (s.src + 1) s.flg s.fcnt s.clen s.cdist).mono (by simp))

theorem outcomeWrites_copyBytes (p : Config.Params) (n : Nat) (s : State) :
    OutcomeWrites [.transients, .output] s (copyBytes p n s) := by
  induction n generalizing s with
  | zero => exact WritesOnly.refl _ s
  | succ n ih =>
    unfold copyBytes
    split
    · exact outcomeWrites_endOverflow p s
    · split
      · trivial
      · have happ := (writesOnly_appendByte s ‹_›).mono (ws' := [.transients, .output]) (by simp)
        have hclen := writesOnly_transients (s.appendByte ‹_›) s.src s.flg s.fcnt n s.cdist
        exact ((ih _).after (happ.trans (hclen.mono (by simp)))).mono (by simp)

theorem outcomeWrites_refIn (p : Config.Params) (length distance : Nat) (s : State) :
    OutcomeWrites [.output, .transients, .scalar] s (refIn p length distance s) := by
  refine outcomeWrites_inRun fun kind => ?_
  have hfail : ∀ cause, OutcomeWrites [.output, .transients, .scalar] s (endFail p kind cause s.src s) :=
    fun cause => (outcomeWrites_endFail p kind cause s.src s).mono kind.written_subset
  split
  · exact hfail _
  split
  · exact hfail _
  split
  · exact hfail _
  · have hstart := writesOnly_transients s (s.src + 2) s.flg s.fcnt length distance
    exact ((outcomeWrites_copyBytes p length _).after hstart).mono (by simp)

/-! ## Which instruction writes which part -/

/-- The parts each instruction writes. -/
def writtenParts : Instr → List StatePart
  | .load _ | .adopt => [.input, .output, .cursor, .checksum]
  | .rdb _ | .rda _ | .rdstr _ => [.cursor, .byteList]
  | .rdu32 => [.cursor, .scalar]
  | .ska _ | .skr _ => [.cursor]
  | .pkbits _ _ _ | .pkbit _ _ => [.scalar]
  | .crcrd _ => [.cursor, .checksum, .scalar, .byteList]
  | .crcvf _ => []
  | .decomp => RunKind.decomp.written
  | .decompif => RunKind.decompif.written
  | .flags _ => [.transients]
  | .lit _ => [.transients, .output]
  | .ref _ _ => [.output, .transients, .scalar]

theorem exec_writes (i : Instr) (s : State) : OutcomeWrites (writtenParts i) s (exec i s) := by
  rw [exec_eq_execIn]
  cases i with
  | load data => exact outcomeWrites_loadIn sdb data s
  | adopt => exact outcomeWrites_adoptIn sdb s
  | rdb k => exact outcomeWrites_execRdb k s
  | rda n => exact outcomeWrites_execRdb n s
  | rdu32 => exact outcomeWrites_execRdu32 s
  | rdstr w => exact outcomeWrites_rdstrIn sdb w s
  | ska t => exact outcomeWrites_ifReady (outcomeWrites_seekTo _ _ s)
  | skr a => exact outcomeWrites_ifReady (outcomeWrites_seekTo _ _ s)
  | pkbits byte lo hi => exact outcomeWrites_pkbitsIn sdb byte lo hi s
  | pkbit byte k => exact outcomeWrites_ifReady (outcomeWrites_deliverWord s _)
  | crcrd k => exact outcomeWrites_crcrdIn sdb k s
  | crcvf x => exact outcomeWrites_execCrcvf x s
  | decomp => exact outcomeWrites_expandIn sdb .decomp s
  | decompif => exact outcomeWrites_expandIn sdb .decompif s
  | flags f => exact outcomeWrites_execFlags f s
  | lit b => exact outcomeWrites_litIn sdb b s
  | ref length distance => exact outcomeWrites_refIn sdb length distance s

/-- The mnemonics of the instructions that write each part. -/
def writers : StatePart → List String
  | .input => ["LOAD", "ADOPT"]
  | .output => ["LOAD", "ADOPT", "DECOMP", "DECOMPIF", "LIT", "REF"]
  | .cursor => ["LOAD", "ADOPT", "RDB", "RDA", "RDU32", "RDSTR", "SKA", "SKR", "CRCRD"]
  | .scalar => ["RDU32", "PKBITS", "PKBIT", "CRCRD", "DECOMPIF", "REF"]
  | .byteList => ["RDB", "RDA", "RDSTR", "CRCRD"]
  | .checksum => ["LOAD", "ADOPT", "CRCRD"]
  | .transients => ["DECOMP", "DECOMPIF", "FLAGS", "LIT", "REF"]
  | .port => []

theorem mnemonic_mem_writers {i : Instr} {part : StatePart} (h : part ∈ writtenParts i) : mnemonic i ∈ writers part := by
  revert part
  cases i <;> simp [writtenParts, RunKind.written, writers, mnemonic]

end Sys2Proof.Machine

namespace Sys2Proof.Spec

open Sys2Proof.Machine

/-- Settles O22: a part that `i` is no writer of is not among those `exec i` writes. -/
theorem onlyTheNamedInstructionsWrite : Obligations.OnlyTheNamedInstructionsWrite := by
  intro i s t ht
  have hkept : ∀ part, mnemonic i ∉ writers part → part.Kept s t := fun part hn => by
    have hw := exec_writes i s
    rw [ht] at hw
    exact hw part (mt mnemonic_mem_writers hn)
  exact ⟨fun hn => (hkept .input hn).imp_right fun e a => by rw [e],
    fun hn => (hkept .output hn).imp_right fun e a => by rw [e],
    hkept .cursor, hkept .scalar, hkept .byteList, hkept .checksum, hkept .transients,
    hkept .port List.not_mem_nil⟩

end Sys2Proof.Spec
end

section
/-! SUPPORT. Outside a run no step shows the host a transient register (O23): each shared operation and each command, from a
state and from that state with its transient registers erased. -/

namespace Sys2Proof.Machine

open Sys2Proof.Spec

variable {p : Config.Params} {s : State}

/-- `s` with the LZD transient registers and the counter of free values at fixed values. -/
def State.eraseTransients (s : State) : State :=
  { s with src := 0, flg := 0, fcnt := 0, lim := none, clen := 0, cdist := 0, draws := 0 }

theorem eraseTransients_eq_of_sameForHost {t : State} (h : SameForHost s t) : t.eraseTransients = s.eraseTransients := by
  rw [h.2]
  rfl

theorem run_eq_none_of_sameForHost {t : State} (h : SameForHost s t) : t.run = none := by
  rw [h.2]
  exact h.1

/-! ## The shared operations -/

theorem viewOf_raise_erase (e : Error) (a b : Nat) (s : State) :
    viewOf (raise e a b s.eraseTransients) = viewOf (raise e a b s) := rfl

theorem viewOf_ifReady_erase {act : State → Outcome} (h : viewOf (act s.eraseTransients) = viewOf (act s)) :
    viewOf (ifReady s.eraseTransients act) = viewOf (ifReady s act) := by
  by_cases hready : s.err = 0
  · rwa [ifReady_of_ready hready, ifReady_of_ready (s := s.eraseTransients) hready]
  · rw [ifReady_of_faulted hready, ifReady_of_faulted (s := s.eraseTransients) hready]
    rfl

theorem space_eraseTransients (s : State) (sp : Space) : s.eraseTransients.space sp = s.space sp := by
  cases sp <;> rfl

theorem viewOf_memRead_erase {sp : Space} {a n : Nat} {act act' : List Byte → Outcome}
    (h : ∀ bytes, viewOf (act' bytes) = viewOf (act bytes)) :
    viewOf (memRead sp a n s.eraseTransients act') = viewOf (memRead sp a n s act) := by
  unfold memRead
  rw [space_eraseTransients]
  split
  · exact h _
  · rfl

theorem viewOf_readExact_erase {k : Nat} {deliver deliver' : List Byte → State → Outcome}
    (h : ∀ bytes (u : State), viewOf (deliver' bytes u.eraseTransients) = viewOf (deliver bytes u)) :
    viewOf (readExact k s.eraseTransients deliver') = viewOf (readExact k s deliver) := by
  change viewOf (if s.ilen < s.pos + k then _ else _) = viewOf (if s.ilen < s.pos + k then _ else _)
  split
  · exact viewOf_raise_erase _ _ _ s
  · exact viewOf_memRead_erase fun bytes => h bytes { s with pos := s.pos + k }

theorem viewOf_seekTo_erase (target : Int) (operand : Nat) (s : State) :
    viewOf (seekTo target operand s.eraseTransients) = viewOf (seekTo target operand s) := by
  change viewOf (if target < 0 ∨ (s.ilen : Int) < target then _ else _) = viewOf (seekTo target operand s)
  unfold seekTo
  split <;> rfl

/-! ## The end of a run -/

theorem viewOf_endOk_erase (p : Config.Params) (kind : RunKind) (s : State) :
    viewOf (endOk p kind s.eraseTransients) = viewOf (endOk p kind s) := by
  cases kind <;> rfl

theorem viewOf_endOverflow_erase (p : Config.Params) (s : State) :
    viewOf (endOverflow p s.eraseTransients) = viewOf (endOverflow p s) := rfl

theorem viewOf_endFail_erase (p : Config.Params) (kind : RunKind) (cause : FailCause) (index : Nat) (s : State) :
    viewOf (endFail p kind cause index s.eraseTransients) = viewOf (endFail p kind cause index s) := by
  cases kind with
  | decomp => rfl
  | decompif =>
    change viewOf (if p.ocap < s.ilen then _ else _) = viewOf (if p.ocap < s.ilen then _ else _)
    split
    · rfl
    · exact viewOf_memRead_erase fun _ => rfl

/-! ## The instructions outside a run -/

theorem viewOf_loadIn_erase (p : Config.Params) (data : List Byte) (s : State) :
    viewOf (loadIn p data s.eraseTransients) = viewOf (loadIn p data s) := by
  unfold loadIn
  split <;> rfl

theorem viewOf_adoptIn_erase (p : Config.Params) (s : State) :
    viewOf (adoptIn p s.eraseTransients) = viewOf (adoptIn p s) := by
  refine viewOf_ifReady_erase ?_
  change viewOf (if p.icap < s.olen then _ else _) = viewOf (if p.icap < s.olen then _ else _)
  split
  · rfl
  · exact viewOf_memRead_erase fun _ => rfl

theorem viewOf_execRdb_erase (k : Nat) (s : State) : viewOf (execRdb k s.eraseTransients) = viewOf (execRdb k s) :=
  viewOf_ifReady_erase <| viewOf_readExact_erase fun _ _ => rfl

theorem viewOf_execRdu32_erase (s : State) : viewOf (execRdu32 s.eraseTransients) = viewOf (execRdu32 s) :=
  viewOf_ifReady_erase <| viewOf_readExact_erase fun _ _ => rfl

theorem viewOf_rdstrIn_erase (p : Config.Params) (w : Nat) (s : State) :
    viewOf (rdstrIn p w s.eraseTransients) = viewOf (rdstrIn p w s) := by
  refine viewOf_ifReady_erase <| viewOf_readExact_erase fun field u => ?_
  dsimp only
  split <;> rfl

theorem viewOf_pkbitsIn_erase (p : Config.Params) (byte : Byte) (lo hi : BitVec 3) (s : State) :
    viewOf (pkbitsIn p byte lo hi s.eraseTransients) = viewOf (pkbitsIn p byte lo hi s) := by
  refine viewOf_ifReady_erase ?_
  split <;> rfl

theorem viewOf_crcrdIn_erase (p : Config.Params) (k : Nat) (s : State) :
    viewOf (crcrdIn p k s.eraseTransients) = viewOf (crcrdIn p k s) :=
  viewOf_ifReady_erase <| viewOf_readExact_erase fun _ _ => rfl

theorem viewOf_execCrcvf_erase (x : Word) (s : State) :
    viewOf (execCrcvf x s.eraseTransients) = viewOf (execCrcvf x s) := by
  refine viewOf_ifReady_erase ?_
  change viewOf (if s.crcacc = x then _ else _) = viewOf (if s.crcacc = x then _ else _)
  split <;> rfl

theorem viewOf_expandIn_erase (p : Config.Params) (kind : RunKind) (s : State) :
    viewOf (expandIn p kind s.eraseTransients) = viewOf (expandIn p kind s) := by
  refine viewOf_ifReady_erase <| viewOf_memRead_erase fun input => ?_
  split
  · exact viewOf_endOk_erase p kind (s.setObuf _)
  · exact viewOf_endFail_erase p kind _ _ s
  · exact viewOf_endOverflow_erase p s

theorem inRun_none (hrun : s.run = none) (act : RunKind → Outcome) : inRun s act = .refused .elementOutsideRun := by
  simp [inRun, hrun]

theorem viewOf_execIn_erase (hrun : s.run = none) (i : Instr) :
    viewOf (execIn p i s.eraseTransients) = viewOf (execIn p i s) := by
  have hrefused : ∀ act act', viewOf (inRun s.eraseTransients act') = viewOf (inRun s act) := fun act act' => by
    rw [inRun_none hrun, inRun_none (s := s.eraseTransients) hrun]
  cases i with
  | load data => exact viewOf_loadIn_erase p data s
  | adopt => exact viewOf_adoptIn_erase p s
  | rdb k => exact viewOf_execRdb_erase k s
  | rda n => exact viewOf_execRdb_erase n s
  | rdu32 => exact viewOf_execRdu32_erase s
  | rdstr w => exact viewOf_rdstrIn_erase p w s
  | ska t => exact viewOf_ifReady_erase (viewOf_seekTo_erase _ _ s)
  | skr a => exact viewOf_ifReady_erase (viewOf_seekTo_erase _ _ s)
  | pkbits byte lo hi => exact viewOf_pkbitsIn_erase p byte lo hi s
  | pkbit byte k => exact viewOf_ifReady_erase rfl
  | crcrd k => exact viewOf_crcrdIn_erase p k s
  | crcvf x => exact viewOf_execCrcvf_erase x s
  | decomp => exact viewOf_expandIn_erase p .decomp s
  | decompif => exact viewOf_expandIn_erase p .decompif s
  | flags f => exact hrefused _ _
  | lit b => exact hrefused _ _
  | ref length distance => exact hrefused _ _

/-! ## One step -/

theorem viewOf_issue_erase (hrun : s.run = none) (word : Nat) (data : List Byte) :
    viewOf (issue p (execIn p) word data s.eraseTransients) = viewOf (issue p (execIn p) word data s) := by
  unfold issue
  split
  · exact viewOf_execIn_erase hrun _
  · exact viewOf_ifReady_erase (viewOf_raise_erase _ _ _ s)
  all_goals rfl

theorem viewOf_stepIn_erase (hrun : s.run = none) (input : Option HostInput) :
    viewOf (stepIn p input s.eraseTransients) = viewOf (stepIn p input s) := by
  have hrun' : s.eraseTransients.run = none := hrun
  match input with
  | none => rw [stepIn_wait hrun, stepIn_wait hrun']; rfl
  | some .reset => rfl
  | some (.command word data) => rw [stepIn_command hrun, stepIn_command hrun']; exact viewOf_issue_erase hrun word data

/-- The port is no transient register, so the step takes the same input. -/
theorem viewOf_step_erase (hrun : s.run = none) : viewOf (step s.eraseTransients) = viewOf (step s) := by
  have hrun' : s.eraseTransients.run = none := hrun
  match hport : s.port with
  | [] =>
    have hport' : s.eraseTransients.port = [] := hport
    rw [step_of_noInput (by simp [hport]) (.inl hport), step_of_noInput (by simp [hport']) (.inl hport')]
    exact viewOf_stepIn_erase hrun none
  | .reset :: rest =>
    rw [step_of_reset hport, step_of_reset (s := s.eraseTransients) hport]
    exact viewOf_stepIn_erase (s := { s with port := rest }) hrun _
  | .command word data :: rest =>
    rw [step_of_command hport hrun, step_of_command (s := s.eraseTransients) hport hrun]
    exact viewOf_stepIn_erase (s := { s with port := rest }) hrun _

end Sys2Proof.Machine

namespace Sys2Proof.Spec

open Sys2Proof.Machine

/-- Settles O23: both states are the same one once their transient registers are erased, and erasing them shows the host the
same step. -/
theorem transientsInvisibleToHost : Obligations.TransientsInvisibleToHost := by
  intro s t h
  calc viewOf (step s)
    _ = viewOf (step s.eraseTransients) := (viewOf_step_erase h.1).symm
    _ = viewOf (step t.eraseTransients) := by rw [eraseTransients_eq_of_sameForHost h]
    _ = viewOf (step t) := viewOf_step_erase (run_eq_none_of_sameForHost h)

end Sys2Proof.Spec
end

section
/-! SUPPORT. Every step keeps both memories in canonical form (O6): an instruction that writes neither memory leaves both as
they are (`exec_writes`), and each of the others writes bytes into a memory in that form or fills one afresh. -/

namespace Sys2Proof.Machine

variable {p : Config.Params} {s t : State}

/-- Both memories are in canonical form. -/
def State.Canonical (s : State) : Prop := s.ibuf.wf ∧ s.obuf.wf

/-- The outcome is no next state, or one whose memories are in canonical form. -/
def NextCanonical : Outcome → Prop
  | .next t => t.Canonical
  | .fault _ => True
  | .refused _ => True

/-! ## The updates of the memories -/

namespace State.Canonical

theorem of_sameMemories (h : s.Canonical) (hibuf : t.ibuf = s.ibuf) (hobuf : t.obuf = s.obuf) : t.Canonical := by
  rwa [Canonical, hibuf, hobuf]

theorem of_writesOnly {ws : List StatePart} (h : s.Canonical) (hw : WritesOnly ws s t) (hinput : .input ∉ ws)
    (houtput : .output ∉ ws) : t.Canonical :=
  h.of_sameMemories (hw .input hinput).2 (hw .output houtput).2

theorem setObuf (h : s.Canonical) (out : List Byte) : (s.setObuf out).Canonical := ⟨h.1, Memory.wf_ofBytes out⟩

theorem emptyObuf (h : s.Canonical) : s.emptyObuf.Canonical := h.setObuf []

theorem appendByte (h : s.Canonical) (b : Byte) : (s.appendByte b).Canonical := ⟨h.1, s.obuf.wf_writeByte _ b h.2⟩

theorem withPort (h : s.Canonical) (port : List HostInput) : ({ s with port := port } : State).Canonical := h

theorem withCopy (h : s.Canonical) (src clen cdist : Nat) :
    ({ s with src := src, clen := clen, cdist := cdist } : State).Canonical := h

theorem leaveRun (h : s.Canonical) (p : Config.Params) : (s.leaveRun p).Canonical := h

theorem consumeFlag (h : s.Canonical) : (consumeFlag s).Canonical :=
  h.of_sameMemories (consumeFlag_ibuf s) (consumeFlag_obuf s)

end State.Canonical

theorem State.newInput_canonical (p : Config.Params) (data : List Byte) (s : State) : (s.newInput p data).Canonical :=
  ⟨Memory.wf_ofBytes data, Memory.wf_ofBytes []⟩

theorem assertReset_canonical (p : Config.Params) (s : State) : (assertReset p s).Canonical :=
  ⟨Memory.wf_ofBytes [], Memory.wf_ofBytes []⟩

/-! ## The shared operations -/

theorem nextCanonical_succeed (h : s.Canonical) (r : Result) : NextCanonical (succeed r s) := h

theorem nextCanonical_raise (h : s.Canonical) (e : Error) (a b : Nat) : NextCanonical (raise e a b s) := h

theorem nextCanonical_ifReady (h : s.Canonical) {act : State → Outcome} (hact : NextCanonical (act s)) :
    NextCanonical (ifReady s act) := by
  rcases ifReady_cases s act with ⟨-, e⟩ | ⟨-, e⟩ <;> rw [e]
  · exact hact
  · exact h

theorem nextCanonical_inRun {act : RunKind → Outcome} (hact : ∀ kind, NextCanonical (act kind)) :
    NextCanonical (inRun s act) := by
  unfold inRun
  split
  · exact hact _
  · trivial

theorem nextCanonical_memRead {sp : Space} {a n : Nat} {act : List Byte → Outcome}
    (hact : ∀ bytes, NextCanonical (act bytes)) : NextCanonical (memRead sp a n s act) := by
  rcases memRead_cases sp a n s act with ⟨bytes, -, e⟩ | e <;> rw [e]
  · exact hact bytes
  · trivial

/-! ## The end of a run -/

theorem nextCanonical_endOk (h : s.Canonical) (kind : RunKind) : NextCanonical (endOk p kind s) := by
  cases kind <;> exact h

theorem nextCanonical_endOverflow (h : s.Canonical) : NextCanonical (endOverflow p s) :=
  nextCanonical_raise (h.leaveRun p).emptyObuf _ _ _

theorem nextCanonical_endFail (h : s.Canonical) (kind : RunKind) (cause : FailCause) (index : Nat) :
    NextCanonical (endFail p kind cause index s) := by
  rcases endFail_cases p kind cause index s with ⟨-, e⟩ | ⟨-, -, e⟩ | ⟨input, -, -, -, e⟩ | e <;> rw [e]
  · exact (h.leaveRun p).emptyObuf
  · exact (h.leaveRun p).emptyObuf
  · exact (h.leaveRun p).setObuf input
  · trivial

/-! ## The instructions that write a memory -/

theorem nextCanonical_loadIn (data : List Byte) (s : State) : NextCanonical (loadIn p data s) := by
  unfold loadIn
  split
  · exact nextCanonical_raise (s.clearError.newInput_canonical p []) _ _ _
  · exact nextCanonical_succeed (s.clearError.newInput_canonical p data) _

theorem nextCanonical_adoptIn (h : s.Canonical) : NextCanonical (adoptIn p s) := by
  refine nextCanonical_ifReady h ?_
  split
  · exact nextCanonical_raise h _ _ _
  · exact nextCanonical_memRead fun out => nextCanonical_succeed (s.newInput_canonical p out) _

theorem nextCanonical_expandIn (h : s.Canonical) (kind : RunKind) : NextCanonical (expandIn p kind s) := by
  refine nextCanonical_ifReady h <| nextCanonical_memRead fun input => ?_
  split
  · exact nextCanonical_endOk (h.setObuf _) kind
  · exact nextCanonical_endFail h kind _ _
  · exact nextCanonical_endOverflow h

theorem nextCanonical_litIn (h : s.Canonical) (b : Byte) : NextCanonical (litIn p b s) := by
  refine nextCanonical_inRun fun _ => ?_
  split
  · exact nextCanonical_endOverflow h
  · exact h.appendByte b

theorem nextCanonical_copyBytes (h : s.Canonical) (n : Nat) : NextCanonical (copyBytes p n s) := by
  induction n generalizing s with
  | zero => exact h
  | succ n ih =>
    unfold copyBytes
    split
    · exact nextCanonical_endOverflow h
    · split
      · trivial
      · exact ih (h.appendByte _)

theorem nextCanonical_refIn (h : s.Canonical) (length distance : Nat) :
    NextCanonical (refIn p length distance s) := by
  refine nextCanonical_inRun fun kind => ?_
  have hfail : ∀ cause, NextCanonical (endFail p kind cause s.src s) := fun cause => nextCanonical_endFail h kind cause _
  split
  · exact hfail _
  split
  · exact hfail _
  split
  · exact hfail _
  · exact nextCanonical_copyBytes (h.withCopy _ length distance) length

/-! ## Every instruction -/

/-- An instruction that writes neither memory. -/
theorem nextCanonical_of_writesNeither (h : s.Canonical) {i : Instr} (hinput : .input ∉ writtenParts i)
    (houtput : .output ∉ writtenParts i) : NextCanonical (exec i s) := by
  have hw := exec_writes i s
  cases hexec : exec i s with
  | next t =>
    rw [hexec] at hw
    exact h.of_writesOnly hw hinput houtput
  | fault _ | refused _ => trivial

theorem nextCanonical_exec (h : s.Canonical) (i : Instr) : NextCanonical (exec i s) := by
  cases i with
  | load data => exact nextCanonical_loadIn data s
  | adopt => exact nextCanonical_adoptIn h
  | decomp => exact nextCanonical_expandIn h .decomp
  | decompif => exact nextCanonical_expandIn h .decompif
  | lit b => exact nextCanonical_litIn h b
  | ref length distance => exact nextCanonical_refIn h length distance
  | rdb _ | rda _ | rdu32 | rdstr _ | ska _ | skr _ | pkbits _ _ _ | pkbit _ _ | crcrd _ | crcvf _ | flags _ =>
    exact nextCanonical_of_writesNeither h (by simp [writtenParts]) (by simp [writtenParts])

/-! ## One step -/

theorem nextCanonical_issue (h : s.Canonical) (word : Nat) (data : List Byte) :
    NextCanonical (issue p exec word data s) := by
  unfold issue
  split
  · exact nextCanonical_exec h _
  · exact nextCanonical_ifReady h (nextCanonical_raise h _ _ _)
  all_goals trivial

theorem nextCanonical_pass (h : s.Canonical) (kind : RunKind) : NextCanonical (pass p exec kind s) := by
  unfold pass
  split
  · exact nextCanonical_endOk h kind
  split
  · split
    · exact nextCanonical_endOk h kind
    · exact nextCanonical_endFail h kind _ _
  split
  · exact nextCanonical_endFail h kind _ _
  refine nextCanonical_memRead fun bytes => ?_
  split
  · exact nextCanonical_exec h.consumeFlag _
  · trivial

theorem nextCanonical_stepWith (h : s.Canonical) (input : Option HostInput) :
    NextCanonical (stepWith p exec input s) := by
  unfold stepWith
  split
  · exact assertReset_canonical p s
  · split
    · exact nextCanonical_pass h _
    · exact nextCanonical_issue h _ _
  · split
    · exact nextCanonical_pass h _
    · exact h

theorem nextCanonical_step (h : s.Canonical) : NextCanonical (step s) := by
  obtain ⟨input, port, e⟩ := step_eq_stepIn s
  rw [e, stepIn, ← exec_eq]
  exact nextCanonical_stepWith (h.withPort port) input

end Sys2Proof.Machine

namespace Sys2Proof.Spec

open Sys2Proof.Machine

/-- Settles O6: every instruction keeps the canonical form of both memories, and so do the reset and the end of a run. -/
theorem stepKeepsMemoriesCanonical : Obligations.StepKeepsMemoriesCanonical := by
  intro s t hibuf hobuf ht
  have hnext : NextCanonical (step s) := nextCanonical_step ⟨hibuf, hobuf⟩
  rwa [ht] at hnext

end Sys2Proof.Spec
end

section
/-! SUPPORT. The opcode map of R63 as a relation between the fields of a word and what it says, and from it the round trips of
the decoder and the encoder (O14, O15). -/

namespace Sys2Proof

open Config

variable {p : Params} {op : Byte} {a : Nat} {b : Word} {hd : Header} {data : List Byte}

/-! ## The operands of formats `XR` and `XB` (R62) -/

theorem rangeField_lo (lo hi : BitVec 3) : (rangeField lo hi).extractLsb' 0 3 = lo := by
  revert lo hi
  decide

theorem rangeField_hi (lo hi : BitVec 3) : (rangeField lo hi).extractLsb' 4 3 = hi := by
  revert lo hi
  decide

theorem rangeField_reserved (lo hi : BitVec 3) :
    (rangeField lo hi).extractLsb' 3 1 = 0 ∧ (rangeField lo hi).extractLsb' 7 25 = 0 := by
  revert lo hi
  decide

/-- With its reserved bits 0, `B` of format `XR` is the range it holds. -/
theorem rangeField_extractLsb' (h3 : b.extractLsb' 3 1 = 0) (h7 : b.extractLsb' 7 25 = 0) :
    rangeField (b.extractLsb' 0 3) (b.extractLsb' 4 3) = b := by
  calc rangeField (b.extractLsb' 0 3) (b.extractLsb' 4 3)
    _ = b.extractLsb' 7 25 ++ b.extractLsb' 4 3 ++ b.extractLsb' 3 1 ++ b.extractLsb' 0 3 := by rw [rangeField, h3, h7]
    _ = b.extractLsb' 4 28 ++ b.extractLsb' 3 1 ++ b.extractLsb' 0 3 := by
      rw [BitVec.extractLsb'_append_extractLsb'_eq_extractLsb' (start₁ := 4) (len₁ := 3) rfl]
    _ = b.extractLsb' 3 29 ++ b.extractLsb' 0 3 := by
      rw [BitVec.extractLsb'_append_extractLsb'_eq_extractLsb' (start₁ := 3) (len₁ := 1) rfl]
    _ = b := BitVec.extractLsb'_append_extractLsb'

theorem index_lo (i : BitVec 3) : (i.setWidth 32).extractLsb' 0 3 = i := by
  revert i
  decide

theorem index_reserved (i : BitVec 3) : (i.setWidth 32).extractLsb' 3 29 = 0 := by
  revert i
  decide

/-- The bits from `start` up are 0 exactly when the number is below `2^start`. -/
theorem extractLsb'_eq_zero_iff_lt {w start len : Nat} (h : start + len = w) {x : BitVec w} :
    x.extractLsb' start len = 0 ↔ x.toNat < 2 ^ start := by
  have hx : x.toNat / 2 ^ start < 2 ^ len :=
    Nat.div_lt_of_lt_mul (by rw [← pow_add, h]; exact x.isLt)
  rw [← BitVec.toNat_inj, BitVec.extractLsb'_toNat, Nat.shiftRight_eq_div_pow, Nat.mod_eq_of_lt hx]
  exact Nat.div_eq_zero_iff_lt (Nat.two_pow_pos start)

/-- With its reserved bits 0, `B` of format `XB` is the index it holds. -/
theorem setWidth_extractLsb' (h : b.extractLsb' 3 29 = 0) : (b.extractLsb' 0 3).setWidth 32 = b := by
  have hb : b.toNat < 2 ^ 3 := (extractLsb'_eq_zero_iff_lt rfl).mp h
  apply BitVec.eq_of_toNat_eq
  rw [BitVec.toNat_setWidth, BitVec.extractLsb'_toNat, Nat.shiftRight_zero]
  omega

theorem toNat_ofNat_byte (h : a < 2 ^ 8) : (BitVec.ofNat 8 a).toNat = a := by
  rw [BitVec.toNat_ofNat, Nat.mod_eq_of_lt h]

/-! ## The opcode map (R63)

`decodeFields op a b = some hd` exactly when `Decodes op a b hd`: `decodes_of_decodeFields` and `Decodes.decodeFields_eq`. -/

/-- The legal fields `op`, `A`, `B` of a command word, row by row of R63, and what they say. -/
inductive Decodes : Byte → Nat → Word → Header → Prop
  | load (n : Nat) : Decodes 0x10 n 0 (.load n)
  | adopt : Decodes 0x11 0 0 (.plain .adopt)
  | rdb (k : Nat) : Decodes 0x20 k 0 (.plain (.rdb k))
  | rda (n : Nat) : Decodes 0x21 n 0 (.plain (.rda n))
  | rdu32 : Decodes 0x22 0 0 (.plain .rdu32)
  | rdstr (w : Nat) : Decodes 0x23 w 0 (.plain (.rdstr w))
  | ska (t : Nat) : Decodes 0x24 t 0 (.plain (.ska t))
  | skr (d : Nat) : Decodes 0x25 d 0 (.plain (.skr d))
  | pkbits (byte : Byte) {lo hi : BitVec 3} (h : lo ≤ hi) :
    Decodes 0x30 byte.toNat (rangeField lo hi) (.plain (.pkbits byte lo hi))
  | pkbit (byte : Byte) (i : BitVec 3) : Decodes 0x31 byte.toNat (i.setWidth 32) (.plain (.pkbit byte i))
  | crcrd (k : Nat) : Decodes 0x40 k 0 (.plain (.crcrd k))
  | crcvf (x : Word) : Decodes 0x41 x.toNat 0 (.plain (.crcvf x))
  | decomp : Decodes 0x50 0 0 (.plain .decomp)
  | decompif : Decodes 0x51 0 0 (.plain .decompif)

/-! What a format accepts satisfies any `P` that its words, put together from their operands, satisfy. -/

section Formats

variable {P : Nat → Word → Header → Prop}

theorem decodeZ_elim {h : Header} (e : decodeZ a b h = some hd) (hP : P 0 0 h) : P a b hd := by
  obtain ⟨⟨rfl, rfl⟩, ⟨⟩⟩ := Option.ite_none_right_eq_some.mp e
  exact hP

theorem decodeA_elim {h : Nat → Header} (e : decodeA a b h = some hd) (hP : ∀ n, P n 0 (h n)) : P a b hd := by
  obtain ⟨rfl, ⟨⟩⟩ := Option.ite_none_right_eq_some.mp e
  exact hP a

theorem decodeX_elim (e : decodeX a b = some hd) (hP : ∀ x : Word, P x.toNat 0 (.plain (.crcvf x))) : P a b hd := by
  obtain ⟨⟨rfl, ha⟩, ⟨⟩⟩ := Option.ite_none_right_eq_some.mp e
  have hx := hP (BitVec.ofNat 32 a)
  rwa [BitVec.toNat_ofNat, Nat.mod_eq_of_lt ha] at hx

theorem decodeXR_elim (e : decodeXR a b = some hd)
    (hP : ∀ (byte : Byte) {lo hi : BitVec 3}, lo ≤ hi → P byte.toNat (rangeField lo hi) (.plain (.pkbits byte lo hi))) :
    P a b hd := by
  obtain ⟨⟨ha, h3, h7, hle⟩, ⟨⟩⟩ := Option.ite_none_right_eq_some.mp e
  have hx := hP (BitVec.ofNat 8 a) hle
  rwa [toNat_ofNat_byte ha, rangeField_extractLsb' h3 h7] at hx

theorem decodeXB_elim (e : decodeXB a b = some hd)
    (hP : ∀ (byte : Byte) (i : BitVec 3), P byte.toNat (i.setWidth 32) (.plain (.pkbit byte i))) : P a b hd := by
  obtain ⟨⟨ha, h3⟩, ⟨⟩⟩ := Option.ite_none_right_eq_some.mp e
  have hx := hP (BitVec.ofNat 8 a) (b.extractLsb' 0 3)
  rwa [toNat_ofNat_byte ha, setWidth_extractLsb' h3] at hx

end Formats

/-- A row of `decodeFields`: the `op` is the row's, or the rows after it decide. -/
theorem decodeRow_elim {c : Byte} {row rest : Option Header} (e : (if op = c then row else rest) = some hd)
    (hrow : row = some hd → Decodes c a b hd) (hrest : rest = some hd → Decodes op a b hd) : Decodes op a b hd := by
  rcases ite_eq_iff.mp e with ⟨hop, e'⟩ | ⟨-, e'⟩
  · exact hop ▸ hrow e'
  · exact hrest e'

theorem decodes_of_decodeFields (e : decodeFields op a b = some hd) : Decodes op a b hd :=
  decodeRow_elim e (decodeA_elim · .load) fun e =>
  decodeRow_elim e (decodeZ_elim · .adopt) fun e =>
  decodeRow_elim e (decodeA_elim · .rdb) fun e =>
  decodeRow_elim e (decodeA_elim · .rda) fun e =>
  decodeRow_elim e (decodeZ_elim · .rdu32) fun e =>
  decodeRow_elim e (decodeA_elim · .rdstr) fun e =>
  decodeRow_elim e (decodeA_elim · .ska) fun e =>
  decodeRow_elim e (decodeA_elim · .skr) fun e =>
  decodeRow_elim e (decodeXR_elim · .pkbits) fun e =>
  decodeRow_elim e (decodeXB_elim · .pkbit) fun e =>
  decodeRow_elim e (decodeA_elim · .crcrd) fun e =>
  decodeRow_elim e (decodeX_elim · .crcvf) fun e =>
  decodeRow_elim e (decodeZ_elim · .decomp) fun e =>
  decodeRow_elim e (decodeZ_elim · .decompif) nofun

theorem decodeXR_rangeField (byte : Byte) {lo hi : BitVec 3} (h : lo ≤ hi) :
    decodeXR byte.toNat (rangeField lo hi) = some (.plain (.pkbits byte lo hi)) := by
  have hb : byte.toNat < 2 ^ 8 := byte.isLt
  obtain ⟨h3, h7⟩ := rangeField_reserved lo hi
  simp only [decodeXR, rangeField_lo, rangeField_hi]
  rw [if_pos ⟨hb, h3, h7, h⟩, BitVec.ofNat_toNat, BitVec.setWidth_eq]

theorem decodeXB_index (byte : Byte) (i : BitVec 3) :
    decodeXB byte.toNat (i.setWidth 32) = some (.plain (.pkbit byte i)) := by
  have hb : byte.toNat < 2 ^ 8 := byte.isLt
  rw [decodeXB, if_pos ⟨hb, index_reserved i⟩, index_lo, BitVec.ofNat_toNat, BitVec.setWidth_eq]

theorem decodeX_word (x : Word) : decodeX x.toNat 0 = some (.plain (.crcvf x)) := by
  rw [decodeX, if_pos ⟨rfl, x.isLt⟩, BitVec.ofNat_toNat, BitVec.setWidth_eq]

theorem Decodes.decodeFields_eq (h : Decodes op a b hd) : decodeFields op a b = some hd := by
  cases h with
  | pkbits byte hle => exact decodeXR_rangeField byte hle
  | pkbit byte i => exact decodeXB_index byte i
  | crcvf x => exact decodeX_word x
  | load | adopt | rdb | rda | rdu32 | rdstr | ska | skr | crcrd | decomp | decompif => rfl

/-! ## The data phase (R66) -/

/-- The data phase a word announces: as many bytes as its `A` after `LOAD`, none after any other command. -/
def Header.Takes : Header → List Byte → Prop
  | .load n, data => data.length = n
  | .plain _, data => data = []

/-- The instruction a word and its data phase are. -/
def Header.instr : Header → List Byte → Instr
  | .load _, data => .load data
  | .plain i, _ => i

/-- A command decodes to `i` exactly when its word has `40 + AW` bits, is legal, and `data` is the data phase it announces. -/
theorem decodeCommand_eq_ok_iff {w : Nat} {i : Instr} :
    decodeCommand p w data = .ok i ↔
      w < 2 ^ (40 + p.aw) ∧ ∃ hd, decodeWordIn p w = some hd ∧ hd.Takes data ∧ hd.instr data = i := by
  unfold decodeCommand
  split
  · next hw => simp [Nat.not_lt.mpr hw]
  · next hw =>
    rcases decodeWordIn p w with _ | (n | j)
    · simp
    · by_cases hdata : data.length = n <;> simp [Nat.not_le.mp hw, Header.Takes, Header.instr, hdata]
    · by_cases hdata : data = [] <;> simp [Nat.not_le.mp hw, Header.Takes, Header.instr, hdata]

/-- The word put together from legal fields decodes to what they say. -/
theorem Decodes.decodeCommand_eq (h : Decodes op a b hd) (ha : a < 2 ^ p.aw) (hdata : hd.Takes data) :
    decodeCommand p (commandWord p op a b) data = .ok (hd.instr data) := by
  refine decodeCommand_eq_ok_iff.mpr ⟨commandWord_lt p op a b, hd, ?_, hdata, rfl⟩
  rw [decodeWordIn, opField_commandWord, aField_commandWord, bField_commandWord, Nat.mod_eq_of_lt ha, h.decodeFields_eq]

/-- What legal fields say is encoded by the word put together from them. -/
theorem Decodes.encodeIn_eq (h : Decodes op a b hd) (hdata : hd.Takes data) :
    encodeIn p (hd.instr data) = .command (commandWord p op a b) data := by
  cases h with
  | load n => obtain rfl := hdata; rfl
  | adopt | rdb | rda | rdu32 | rdstr | ska | skr | pkbits | pkbit | crcrd | crcvf | decomp | decompif =>
    obtain rfl := hdata; rfl

theorem Decodes.wellFormedIn (h : Decodes op a b hd) (ha : a < 2 ^ p.aw) (hdata : hd.Takes data) :
    (hd.instr data).wellFormedIn p = true := by
  cases h with
  | load n => exact decide_eq_true (hdata ▸ ha)
  | rdb | rda | rdstr | ska | skr | crcrd | crcvf => exact decide_eq_true ha
  | pkbits byte hle => exact decide_eq_true hle
  | adopt | rdu32 | pkbit | decomp | decompif => rfl

/-! ## The two bytes of a token (R70) -/

theorem tokenValue_lt (p : Params) (t0 t1 : Byte) : tokenValue p t0 t1 < 2 ^ 16 := by
  have := t0.isLt
  have := t1.isLt
  unfold tokenValue
  split <;> omega

theorem tokenBytes_tokenValue (p : Params) (t0 t1 : Byte) : tokenBytes p (tokenValue p t0 t1) = [t0, t1] := by
  have high (x y : Byte) : BitVec.ofNat 8 ((x.toNat * 256 + y.toNat) / 256) = x :=
    BitVec.eq_of_toNat_eq (by have := x.isLt; have := y.isLt; rw [BitVec.toNat_ofNat]; omega)
  have low (x y : Byte) : BitVec.ofNat 8 (x.toNat * 256 + y.toNat) = y :=
    BitVec.eq_of_toNat_eq (by have := y.isLt; rw [BitVec.toNat_ofNat]; omega)
  unfold tokenBytes tokenValue
  split <;> rw [high, low]

theorem decodeElement_tokenBytes {t : Nat} (ht : t < 2 ^ 16) :
    decodeElement p .ref (tokenBytes p t) = .ok (.ref (tokenLength p t) (tokenDistance p t)) := by
  have hvalue : (BitVec.ofNat 8 (t / 256)).toNat * 256 + (BitVec.ofNat 8 t).toNat = t := by
    rw [BitVec.toNat_ofNat, BitVec.toNat_ofNat]
    omega
  unfold tokenBytes
  split
  · next horder => rw [decodeElement, tokenValue, if_pos horder, hvalue]
  · next horder => rw [decodeElement, tokenValue, if_neg horder, hvalue]

/-- A token value splits into its length and distance fields, and is put together from them. -/
theorem token_fields {t : Nat} (hp : p.lenBits ≤ 16) (ht : t < 2 ^ 16) :
    t / 2 ^ (16 - p.lenBits) < 2 ^ p.lenBits ∧ t % 2 ^ (16 - p.lenBits) < 2 ^ (16 - p.lenBits) ∧
      t / 2 ^ (16 - p.lenBits) * 2 ^ (16 - p.lenBits) + t % 2 ^ (16 - p.lenBits) = t :=
  ⟨Nat.div_lt_of_lt_mul (by rwa [← pow_add, Nat.sub_add_cancel hp]), Nat.mod_lt _ (Nat.two_pow_pos _),
    Nat.div_add_mod' _ _⟩

/-- The token value put together from a length and a distance field has 16 bits and holds those fields. -/
theorem token_join {l d : Nat} (hp : p.lenBits ≤ 16) (hl : l < 2 ^ p.lenBits) (hd : d < 2 ^ (16 - p.lenBits)) :
    l * 2 ^ (16 - p.lenBits) + d < 2 ^ 16 ∧
      tokenLength p (l * 2 ^ (16 - p.lenBits) + d) = l + p.lenBias ∧
      tokenDistance p (l * 2 ^ (16 - p.lenBits) + d) = d + p.distBias := by
  refine ⟨?_, ?_, ?_⟩
  · calc l * 2 ^ (16 - p.lenBits) + d
      _ < (l + 1) * 2 ^ (16 - p.lenBits) := by rw [add_mul, one_mul]; exact Nat.add_lt_add_left hd _
      _ ≤ 2 ^ p.lenBits * 2 ^ (16 - p.lenBits) := Nat.mul_le_mul_right _ hl
      _ = 2 ^ 16 := by rw [← pow_add, Nat.add_sub_cancel' hp]
  · rw [tokenLength, mul_comm, Nat.mul_add_div (Nat.two_pow_pos _), Nat.div_eq_of_lt hd, add_zero]
  · rw [tokenDistance, Nat.mul_add_mod_of_lt hd]

/-! ## The round trips -/

theorem decodeIn_encodeIn_ref (hp : p.lenBits ≤ 16) {length distance : Nat}
    (h : (Instr.ref length distance).wellFormedIn p = true) :
    decodeIn p (encodeIn p (.ref length distance)) = .ok (.ref length distance) := by
  obtain ⟨hl, hl', hd, hd'⟩ := of_decide_eq_true h
  obtain ⟨ht, hlength, hdistance⟩ := token_join (l := length - p.lenBias) (d := distance - p.distBias) hp
    (Nat.sub_lt_left_of_lt_add hl hl') (Nat.sub_lt_left_of_lt_add hd hd')
  rw [encodeIn, decodeIn, decodeElement_tokenBytes ht, hlength, hdistance, Nat.sub_add_cancel hl, Nat.sub_add_cancel hd]

theorem decodeIn_encodeIn (hp : p.Ok) {i : Instr} (h : i.wellFormedIn p = true) :
    decodeIn p (encodeIn p i) = .ok i := by
  have hzero : 0 < 2 ^ p.aw := Nat.two_pow_pos _
  have hbyte (byte : Byte) : byte.toNat < 2 ^ p.aw := byte.isLt.trans_le (Nat.pow_le_pow_right two_pos hp.aw_ge)
  cases i with
  | load data => exact (Decodes.load _).decodeCommand_eq (of_decide_eq_true h) rfl
  | adopt => exact Decodes.adopt.decodeCommand_eq hzero rfl
  | rdb k => exact (Decodes.rdb k).decodeCommand_eq (of_decide_eq_true h) rfl
  | rda n => exact (Decodes.rda n).decodeCommand_eq (of_decide_eq_true h) rfl
  | rdu32 => exact Decodes.rdu32.decodeCommand_eq hzero rfl
  | rdstr w => exact (Decodes.rdstr w).decodeCommand_eq (of_decide_eq_true h) rfl
  | ska t => exact (Decodes.ska t).decodeCommand_eq (of_decide_eq_true h) rfl
  | skr a => exact (Decodes.skr a).decodeCommand_eq (of_decide_eq_true h) rfl
  | pkbits byte lo hi => exact (Decodes.pkbits byte (of_decide_eq_true h)).decodeCommand_eq (hbyte byte) rfl
  | pkbit byte i => exact (Decodes.pkbit byte i).decodeCommand_eq (hbyte byte) rfl
  | crcrd k => exact (Decodes.crcrd k).decodeCommand_eq (of_decide_eq_true h) rfl
  | crcvf x => exact (Decodes.crcvf x).decodeCommand_eq (of_decide_eq_true h) rfl
  | decomp => exact Decodes.decomp.decodeCommand_eq hzero rfl
  | decompif => exact Decodes.decompif.decodeCommand_eq hzero rfl
  | flags f => rfl
  | lit b => rfl
  | ref length distance => exact decodeIn_encodeIn_ref hp.lenBits_le h

theorem encodeIn_of_decodeCommand {w : Nat} {i : Instr} (h : decodeCommand p w data = .ok i) :
    i.wellFormedIn p = true ∧ encodeIn p i = .command w data := by
  obtain ⟨hw, hd, hword, hdata, rfl⟩ := decodeCommand_eq_ok_iff.mp h
  have hfields := decodes_of_decodeFields hword
  refine ⟨hfields.wellFormedIn (Nat.mod_lt _ (Nat.two_pow_pos _)) hdata, ?_⟩
  rw [hfields.encodeIn_eq hdata, commandWord_fields hw]

theorem encodeIn_of_decode_token (hp : p.lenBits ≤ 16) {t : Nat} (ht : t < 2 ^ 16) :
    (Instr.ref (tokenLength p t) (tokenDistance p t)).wellFormedIn p = true ∧
      encodeIn p (.ref (tokenLength p t) (tokenDistance p t)) = .element .ref (tokenBytes p t) := by
  obtain ⟨hl, hd, ht'⟩ := token_fields hp ht
  constructor
  · exact decide_eq_true ⟨Nat.le_add_left .., by rw [tokenLength]; omega, Nat.le_add_left .., by rw [tokenDistance]; omega⟩
  · rw [encodeIn, tokenLength, tokenDistance, Nat.add_sub_cancel, Nat.add_sub_cancel, ht']

theorem encodeIn_of_decodeElement (hp : p.lenBits ≤ 16) {kind : ElementKind} {bytes : List Byte} {i : Instr}
    (h : decodeElement p kind bytes = .ok i) :
    i.wellFormedIn p = true ∧ encodeIn p i = .element kind bytes := by
  unfold decodeElement at h
  split at h
  · cases h
    exact ⟨rfl, rfl⟩
  · cases h
    exact ⟨rfl, rfl⟩
  · next t0 t1 =>
    cases h
    rw [← tokenBytes_tokenValue p t0 t1]
    exact encodeIn_of_decode_token hp (tokenValue_lt p t0 t1)
  · cases h

theorem encodeIn_of_decodeIn (hp : p.lenBits ≤ 16) {e : Encoded} {i : Instr} (h : decodeIn p e = .ok i) :
    i.wellFormedIn p = true ∧ encodeIn p i = e := by
  cases e with
  | command word data => exact encodeIn_of_decodeCommand h
  | element kind bytes => exact encodeIn_of_decodeElement hp h

end Sys2Proof

namespace Sys2Proof.Spec

open Sys2Proof.Machine

/-- Settles O14: the words of commands by the opcode map, whose fields each command's word is put together from, and the token
by its length and distance fields. -/
theorem decodeOfEncodeIsIdentity : Obligations.DecodeOfEncodeIsIdentity :=
  fun _ _ hp h => decodeIn_encodeIn hp h

/-- Settles O15: what the opcode map says of a word's fields is encoded by those fields. -/
theorem encodeOfDecodeIsIdentity : Obligations.EncodeOfDecodeIsIdentity :=
  fun _ _ h => encodeIn_of_decodeIn sdb_params_ok.lenBits_le h

end Sys2Proof.Spec
end

section
/-! SUPPORT. Which command words are legal (O18), and the rows of the opcode map they select (O16). -/

namespace Sys2Proof

open Sys2Proof.Machine Sys2Proof.Spec

variable {op : Byte} {a word : Nat} {b : Word} {hd : Header}

/-! ## Illegal fields (R65) -/

/-- The 14 `op` values of R63. -/
abbrev legalOps : List Byte := [0x10, 0x11, 0x20, 0x21, 0x22, 0x23, 0x24, 0x25, 0x30, 0x31, 0x40, 0x41, 0x50, 0x51]

/-- The `op` values of format `Z` (R62). -/
abbrev formatZOps : List Byte := [0x11, 0x22, 0x50, 0x51]

/-- The `op` values of format `A` (R62). -/
abbrev formatAOps : List Byte := [0x10, 0x20, 0x21, 0x23, 0x24, 0x25, 0x40, 0x41]

theorem rangeField_lt (lo hi : BitVec 3) : (rangeField lo hi).toNat < 2 ^ 7 :=
  (extractLsb'_eq_zero_iff_lt rfl).mp (rangeField_reserved lo hi).2

theorem extractLsb'_one_eq_zero_iff {w : Nat} (i : Nat) (x : BitVec w) : x.extractLsb' i 1 = 0 ↔ x.getLsbD i = false := by
  simp [BitVec.eq_of_getLsbD_eq_iff]

/-- Legal fields are not illegal. -/
theorem not_illegalWord_of_decodes (h : Decodes (opField sdb word) (aField sdb word) (bField word) hd) :
    ¬ IllegalWord word := by
  unfold IllegalWord
  generalize opField sdb word = op, aField sdb word = a, bField word = b at h ⊢
  cases h with
  | @pkbits byte lo hi hle =>
    have h3 := (extractLsb'_one_eq_zero_iff 3 _).mp (rangeField_reserved lo hi).1
    simpa [rangeField_lo, rangeField_hi] using And.intro byte.isLt ⟨⟨h3, rangeField_lt lo hi⟩, hle⟩
  | pkbit byte i =>
    have hi : (i.setWidth 32).toNat < 2 ^ 3 := (extractLsb'_eq_zero_iff_lt rfl).mp (index_reserved i)
    simpa using And.intro byte.isLt hi
  | load | adopt | rdb | rda | rdu32 | rdstr | ska | skr | crcrd | crcvf | decomp | decompif => simp

theorem exists_decodes_formatZ (hop : op ∈ formatZOps) : ∃ hd, Decodes op 0 0 hd := by
  fin_cases hop
  · exact ⟨_, .adopt⟩
  · exact ⟨_, .rdu32⟩
  · exact ⟨_, .decomp⟩
  · exact ⟨_, .decompif⟩

theorem exists_decodes_formatA (hop : op ∈ formatAOps) (ha : a < 2 ^ 32) :
    ∃ hd, Decodes op a 0 hd := by
  fin_cases hop
  · exact ⟨_, .load a⟩
  · exact ⟨_, .rdb a⟩
  · exact ⟨_, .rda a⟩
  · exact ⟨_, .rdstr a⟩
  · exact ⟨_, .ska a⟩
  · exact ⟨_, .skr a⟩
  · exact ⟨_, .crcrd a⟩
  · have h := Decodes.crcvf (BitVec.ofNatLT a ha)
    exact ⟨_, by rwa [BitVec.toNat_ofNatLT] at h⟩

theorem exists_decodes_formatXR (ha : a < 2 ^ 8) (h3 : b.extractLsb' 3 1 = 0) (h7 : b.extractLsb' 7 25 = 0)
    (hle : b.extractLsb' 0 3 ≤ b.extractLsb' 4 3) : ∃ hd, Decodes 0x30 a b hd := by
  have h := Decodes.pkbits (BitVec.ofNat 8 a) hle
  rw [toNat_ofNat_byte ha, rangeField_extractLsb' h3 h7] at h
  exact ⟨_, h⟩

theorem exists_decodes_formatXB (ha : a < 2 ^ 8) (h : b.extractLsb' 3 29 = 0) : ∃ hd, Decodes 0x31 a b hd := by
  have hdec := Decodes.pkbit (BitVec.ofNat 8 a) (b.extractLsb' 0 3)
  rw [toNat_ofNat_byte ha, setWidth_extractLsb' h] at hdec
  exact ⟨_, hdec⟩

/-- Each `op` of R63 has one of the four formats of R62. -/
theorem op_format (hop : op ∈ legalOps) :
    op ∈ formatZOps ∨
    op ∈ formatAOps ∨ op = 0x30 ∨ op = 0x31 := by
  fin_cases hop <;> decide

/-- A word that is not illegal has legal fields. -/
theorem exists_decodes_of_not_illegalWord (h : ¬ IllegalWord word) :
    ∃ hd, Decodes (opField sdb word) (aField sdb word) (bField word) hd := by
  have ha : aField sdb word < 2 ^ 32 := Nat.mod_lt _ (Nat.two_pow_pos _)
  unfold IllegalWord at h
  generalize opField sdb word = op, aField sdb word = a, bField word = b at h ha ⊢
  push Not at h
  obtain ⟨hop, hZ, hA, hXRa, hXRb, hXB, hle⟩ := h
  rcases op_format hop with hop | hop | rfl | rfl
  · obtain ⟨rfl, rfl⟩ := hZ hop
    exact exists_decodes_formatZ hop
  · obtain rfl := hA hop
    exact exists_decodes_formatA hop ha
  · obtain ⟨h3, hb⟩ := hXRb rfl
    exact exists_decodes_formatXR (hXRa rfl) ((extractLsb'_one_eq_zero_iff 3 b).mpr (by simpa using h3))
      ((extractLsb'_eq_zero_iff_lt rfl).mpr hb) (BitVec.not_lt.mp (hle rfl))
  · obtain ⟨ha, hb⟩ := hXB rfl
    exact exists_decodes_formatXB ha ((extractLsb'_eq_zero_iff_lt rfl).mpr hb)

/-- The decoder rejects exactly the illegal words of R65. -/
theorem decodeWord_eq_none_iff : decodeWord word = none ↔ IllegalWord word := by
  constructor
  · intro h
    by_contra hlegal
    obtain ⟨hd, hfields⟩ := exists_decodes_of_not_illegalWord hlegal
    cases h.symm.trans hfields.decodeFields_eq
  · intro h
    by_contra hsome
    obtain ⟨hd, hword⟩ := Option.ne_none_iff_exists'.mp hsome
    exact not_illegalWord_of_decodes (decodes_of_decodeFields hword) h

theorem decodeCommand_of_decodeWordIn_eq_none (p : Config.Params) (data : List Byte) (hw : word < 2 ^ (40 + p.aw))
    (h : decodeWordIn p word = none) : decodeCommand p word data = .error (.illegalCommand (opField p word)) := by
  rw [decodeCommand, if_neg (Nat.not_le.mpr hw), h]

/-- An illegal word, presented outside a run, raises `IllegalCommand`, or is refused while faulted (R65, R186). -/
theorem step_of_illegalWord {s : State} {data : List Byte} {rest : List HostInput} (hrun : s.run = none)
    (hport : s.port = .command word data :: rest) (hw : word < 2 ^ 72) (h : IllegalWord word) :
    step s = ifReady { s with port := rest } (raise .illegalCommand (opField sdb word).toNat 0) := by
  have hdecode := decodeCommand_of_decodeWordIn_eq_none sdb data hw (decodeWord_eq_none_iff.mpr h)
  rw [step_of_command hport hrun, stepIn_command (s := { s with port := rest }) hrun, issue_illegal hdecode]

/-! ## The rows of the opcode map (R63) -/

/-- The `op` of a row. -/
def OpcodeRow.opcode (r : OpcodeRow) : Byte := r.bits.extractLsb' 64 8

/-- The row demands that the `len` bits from `start` up are 0. -/
abbrev OpcodeRow.Reserves (r : OpcodeRow) (start len : Nat) : Prop :=
  r.mask.extractLsb' start len = BitVec.allOnes len ∧ r.bits.extractLsb' start len = 0

theorem opcodeMap_masks_op : ∀ r ∈ opcodeMap, r.mask.extractLsb' 64 8 = BitVec.allOnes 8 := by decide

theorem opcodeMap_op_injective : ∀ r ∈ opcodeMap, ∀ r' ∈ opcodeMap, r.opcode = r'.opcode → r = r' := by decide

theorem opcodeMap_op_legal : ∀ r ∈ opcodeMap,
    r.opcode ∈ legalOps := by decide

theorem opcodeMap_formatZ : ∀ r ∈ opcodeMap, r.opcode ∈ formatZOps →
    r.Reserves 32 32 ∧ r.Reserves 0 32 := by decide

theorem opcodeMap_formatA : ∀ r ∈ opcodeMap, r.opcode ∈ formatAOps →
    r.Reserves 0 32 := by decide

theorem opcodeMap_formatXR : ∀ r ∈ opcodeMap, r.opcode = 0x30 →
    r.mnemonic = "PKBITS" ∧ r.Reserves 40 24 ∧ r.Reserves 3 1 ∧ r.Reserves 7 25 := by decide

theorem opcodeMap_formatXB : ∀ r ∈ opcodeMap, r.opcode = 0x31 → r.Reserves 40 24 ∧ r.Reserves 3 29 := by decide

section Selected

variable {r r' : OpcodeRow} {w : CommandWord}

/-- Where its mask is all ones, a row says what a word that selects it holds. -/
theorem extractLsb'_of_selects (h : r.selects w = true) {start len : Nat}
    (hmask : r.mask.extractLsb' start len = BitVec.allOnes len) :
    w.extractLsb' start len = r.bits.extractLsb' start len := by
  rw [OpcodeRow.selects, beq_iff_eq] at h
  rw [← h, BitVec.extractLsb'_and, hmask, BitVec.and_allOnes]

theorem OpcodeRow.Reserves.extractLsb' {start len : Nat} (hres : r.Reserves start len) (h : r.selects w = true) :
    w.extractLsb' start len = 0 :=
  (extractLsb'_of_selects h hres.1).trans hres.2

theorem opField_toNat (w : CommandWord) : opField sdb w.toNat = w.extractLsb' 64 8 := by
  rw [BitVec.extractLsb', Nat.shiftRight_eq_div_pow]
  rfl

theorem aField_toNat (w : CommandWord) : aField sdb w.toNat = (w.extractLsb' 32 32).toNat := by
  rw [BitVec.extractLsb'_toNat, Nat.shiftRight_eq_div_pow]
  rfl

theorem bField_toNat (w : CommandWord) : bField w.toNat = w.extractLsb' 0 32 := rfl

/-- The bits of the field `B` are those of the word. -/
theorem extractLsb'_bField {start len : Nat} (h : start + len ≤ 32) :
    (bField w.toNat).extractLsb' start len = w.extractLsb' start len := by
  rw [bField, BitVec.ofNat_toNat, BitVec.extractLsb'_setWidth_of_le h]

theorem aField_lt_of_reserved (h : w.extractLsb' 40 24 = 0) : aField sdb w.toNat < 2 ^ 8 := by
  have hw := congrArg BitVec.toNat h
  rw [BitVec.extractLsb'_toNat, Nat.shiftRight_eq_div_pow] at hw
  rw [aField_toNat, BitVec.extractLsb'_toNat, Nat.shiftRight_eq_div_pow]
  change _ = 0 at hw
  omega

theorem opField_of_selects (hr : r ∈ opcodeMap) (h : r.selects w = true) : opField sdb w.toNat = r.opcode :=
  (opField_toNat w).trans (extractLsb'_of_selects h (opcodeMap_masks_op r hr))

/-- The rows of the opcode map are disjoint, since their masks take in the whole `op`. -/
theorem row_unique (hr : r ∈ opcodeMap) (hr' : r' ∈ opcodeMap) (h : r.selects w = true) (h' : r'.selects w = true) :
    r = r' :=
  opcodeMap_op_injective r hr r' hr' ((opField_of_selects hr h).symm.trans (opField_of_selects hr' h'))

/-- The fields of a word that selects a row are legal, for `PKBITS` when `lo ≤ hi`. -/
theorem exists_decodes_of_selects (hr : r ∈ opcodeMap) (h : r.selects w = true)
    (hle : r.mnemonic = "PKBITS" → w.extractLsb' 0 3 ≤ w.extractLsb' 4 3) :
    ∃ hd, Decodes (opField sdb w.toNat) (aField sdb w.toNat) (bField w.toNat) hd := by
  rw [opField_of_selects hr h]
  rcases op_format (opcodeMap_op_legal r hr) with hop | hop | hop | hop
  · obtain ⟨hA, hB⟩ := opcodeMap_formatZ r hr hop
    rw [aField_toNat, bField_toNat, hA.extractLsb' h, hB.extractLsb' h]
    exact exists_decodes_formatZ hop
  · rw [bField_toNat, (opcodeMap_formatA r hr hop).extractLsb' h]
    exact exists_decodes_formatA hop (Nat.mod_lt _ (Nat.two_pow_pos _))
  · obtain ⟨hname, hA, h3, h7⟩ := opcodeMap_formatXR r hr hop
    rw [hop]
    refine exists_decodes_formatXR (aField_lt_of_reserved (hA.extractLsb' h)) ?_ ?_ ?_
    · rw [extractLsb'_bField (by decide), h3.extractLsb' h]
    · rw [extractLsb'_bField (by decide), h7.extractLsb' h]
    · rw [extractLsb'_bField (by decide), extractLsb'_bField (by decide)]
      exact hle hname
  · obtain ⟨hA, h3⟩ := opcodeMap_formatXB r hr hop
    rw [hop]
    refine exists_decodes_formatXB (aField_lt_of_reserved (hA.extractLsb' h)) ?_
    rw [extractLsb'_bField (by decide), h3.extractLsb' h]

theorem encodesToItsRow (i : Instr) : Laws.EncodesToItsRow.Statement i := by
  cases i with
  | load data => exact Laws.EncodesToItsRow.load data
  | adopt => exact Laws.EncodesToItsRow.adopt
  | rdb k => exact Laws.EncodesToItsRow.rdb k
  | rda n => exact Laws.EncodesToItsRow.rda n
  | rdu32 => exact Laws.EncodesToItsRow.rdu32
  | rdstr w => exact Laws.EncodesToItsRow.rdstr w
  | ska t => exact Laws.EncodesToItsRow.ska t
  | skr a => exact Laws.EncodesToItsRow.skr a
  | pkbits byte lo hi => exact Laws.EncodesToItsRow.pkbits byte lo hi
  | pkbit byte i => exact Laws.EncodesToItsRow.pkbit byte i
  | crcrd k => exact Laws.EncodesToItsRow.crcrd k
  | crcvf x => exact Laws.EncodesToItsRow.crcvf x
  | decomp => exact Laws.EncodesToItsRow.decomp
  | decompif => exact Laws.EncodesToItsRow.decompif
  | flags f => exact Laws.EncodesToItsRow.flags f
  | lit b => exact Laws.EncodesToItsRow.lit b
  | ref length distance => exact Laws.EncodesToItsRow.ref length distance

/-- Every legal word announces a data phase that exists. -/
theorem Header.exists_takes (hd : Header) : ∃ data, hd.Takes data ∧ mnemonic (hd.instr data) = headerMnemonic hd := by
  cases hd with
  | load n => exact ⟨List.replicate n 0, List.length_replicate, rfl⟩
  | plain i => exact ⟨[], rfl, rfl⟩

/-- A legal word is the encoding of its instruction, and so selects that instruction's row. -/
theorem exists_row_of_decodeWord (h : decodeWord w.toNat = some hd) :
    ∃ r ∈ opcodeMap, r.mnemonic = headerMnemonic hd ∧ r.selects w = true := by
  obtain ⟨data, hdata, hname⟩ := hd.exists_takes
  have hdecode : decodeCommand sdb w.toNat data = .ok (hd.instr data) :=
    decodeCommand_eq_ok_iff.mpr ⟨w.isLt, hd, h, hdata, rfl⟩
  have hrow := encodesToItsRow (hd.instr data)
  rw [Laws.EncodesToItsRow.Statement, encode, (encodeIn_of_decodeCommand hdecode).2] at hrow
  obtain ⟨-, r, hr, hmnemonic, hsel⟩ := hrow
  rw [BitVec.ofNat_toNat, BitVec.setWidth_eq] at hsel
  exact ⟨r, hr, hmnemonic.trans hname, hsel⟩

end Selected

end Sys2Proof

namespace Sys2Proof.Spec

open Sys2Proof.Machine

/-- Settles O16: a row's mask fixes the `op` and the reserved bits of its format, which makes the rows disjoint and the words
that select one legal; a legal word encodes its instruction, which selects its own row. -/
theorem decoderFollowsTheOpcodeMap : Obligations.DecoderFollowsTheOpcodeMap := by
  intro w
  refine ⟨fun r hr r' hr' => row_unique hr hr', fun r hr hsel hle => ?_, fun hnone => ?_, fun hop hlt => ?_⟩
  · obtain ⟨hd, hfields⟩ := exists_decodes_of_selects hr hsel hle
    have hword : decodeWord w.toNat = some hd := hfields.decodeFields_eq
    obtain ⟨r', hr', hname, hsel'⟩ := exists_row_of_decodeWord hword
    exact ⟨hd, hword, row_unique hr hr' hsel hsel' ▸ hname.symm⟩
  · by_contra hsome
    obtain ⟨hd, hword⟩ := Option.ne_none_iff_exists'.mp hsome
    obtain ⟨r, hr, -, hsel⟩ := exists_row_of_decodeWord hword
    cases (hnone r hr).symm.trans hsel
  · refine decodeWord_eq_none_iff.mpr (.inr <| .inr <| .inr <| .inr <| .inr <| .inr ⟨(opField_toNat w).trans hop, ?_⟩)
    rwa [extractLsb'_bField (by decide), extractLsb'_bField (by decide)]

/-- Settles O18: the decoder rejects exactly the illegal words, and the step then takes the error of R65. -/
theorem illegalWordRaisesIllegalCommand : Obligations.IllegalWordRaisesIllegalCommand := by
  refine ⟨fun s word data rest hrun hport hw hillegal hready => ?_, fun word h => mt decodeWord_eq_none_iff.mp h⟩
  rw [step_of_illegalWord hrun hport hw hillegal, ifReady_of_ready (s := { s with port := rest }) hready]
  rfl

end Sys2Proof.Spec
end

section
/-! SUPPORT. The bit-field extractor (R81 to R84): the bits a range picks under either numbering, and what PKBITS and PKBIT make
of the state. -/

namespace Sys2Proof.Machine

variable {p : Config.Params} {s : State} {byte : Byte} {lo hi i : BitVec 3}

/-! ## The numbering of the bits -/

theorem phys_of_lsb0 (hp : p.bitNum = .lsb0) (k : BitVec 3) : phys p k = k.toNat := by simp [phys, hp]

theorem phys_of_msb0 (hp : p.bitNum = .msb0) (k : BitVec 3) : phys p k = 7 - k.toNat := by simp [phys, hp]

theorem min_phys_of_lsb0 (hp : p.bitNum = .lsb0) (h : lo ≤ hi) : min (phys p lo) (phys p hi) = lo.toNat := by
  rw [phys_of_lsb0 hp, phys_of_lsb0 hp]
  exact min_eq_left h

/-- Counted from the other end, the range begins at its upper index. -/
theorem min_phys_of_msb0 (hp : p.bitNum = .msb0) (h : lo ≤ hi) : min (phys p lo) (phys p hi) = 7 - hi.toNat := by
  rw [phys_of_msb0 hp, phys_of_msb0 hp]
  exact min_eq_right (Nat.sub_le_sub_left h 7)

/-- The two ends of a range are as far apart under either numbering. -/
theorem max_phys_sub_min_phys (h : lo ≤ hi) :
    max (phys p lo) (phys p hi) - min (phys p lo) (phys p hi) = hi.toNat - lo.toNat := by
  have hle : lo.toNat ≤ hi.toNat := h
  have hhi : hi.toNat < 8 := hi.isLt
  cases hp : p.bitNum with
  | lsb0 => rw [phys_of_lsb0 hp, phys_of_lsb0 hp]; omega
  | msb0 => rw [phys_of_msb0 hp, phys_of_msb0 hp]; omega

/-! ## The bits a range picks -/

/-- The range shifted down to bit 0 and cut to its width, which the numbering does not change (R82). -/
theorem pickRange_of_le (p : Config.Params) (byte : Byte) (h : lo ≤ hi) :
    pickRange p byte lo hi =
      byte.toNat / 2 ^ min (phys p lo) (phys p hi) % 2 ^ (hi.toNat - lo.toNat + 1) := by
  rw [pickRange, bitRange, max_phys_sub_min_phys h]

theorem pickRange_of_lsb0 (hp : p.bitNum = .lsb0) (byte : Byte) (h : lo ≤ hi) :
    pickRange p byte lo hi = byte.toNat / 2 ^ lo.toNat % 2 ^ (hi.toNat - lo.toNat + 1) := by
  rw [pickRange_of_le p byte h, min_phys_of_lsb0 hp h]

theorem pickRange_lt (p : Config.Params) (byte : Byte) (h : lo ≤ hi) :
    pickRange p byte lo hi < 2 ^ (hi.toNat - lo.toNat + 1) := by
  rw [pickRange_of_le p byte h]
  exact Nat.mod_lt _ (Nat.two_pow_pos _)

/-- A bit within the width of the range is a bit of the byte; 32 bits hold every bit a byte has. -/
theorem getLsbD_pickRange (h : lo ≤ hi) (k : Nat) :
    (BitVec.ofNat 32 (pickRange p byte lo hi)).getLsbD k =
      (decide (k ≤ hi.toNat - lo.toNat) && byte.getLsbD (min (phys p lo) (phys p hi) + k)) := by
  rw [pickRange_of_le p byte h, BitVec.getLsbD_ofNat, Nat.testBit_mod_two_pow, Nat.testBit_div_two_pow,
    BitVec.testBit_toNat, Nat.add_comm k]
  by_cases hk : k < 32
  · rw [decide_eq_true hk, Bool.true_and]
    simp only [Nat.lt_succ_iff]
  · rw [BitVec.getLsbD_of_ge byte _ (by omega)]
    simp only [Bool.and_false]

/-- The range of all eight bits is the byte, from whichever end they are numbered (R84). -/
theorem pickRange_whole (p : Config.Params) (byte : Byte) : pickRange p byte 0 7 = byte.toNat := by
  have hmin : min (phys p 0) (phys p 7) = 0 := by
    cases hp : p.bitNum with
    | lsb0 => exact min_phys_of_lsb0 hp (by decide)
    | msb0 => exact min_phys_of_msb0 hp (by decide)
  rw [pickRange_of_le p byte (by decide), hmin, Nat.pow_zero, Nat.div_one]
  exact Nat.mod_eq_of_lt byte.isLt

/-- A range from index 0 is the remainder by a power of two under `lsb0`. -/
theorem pickRange_zero_of_lsb0 (hp : p.bitNum = .lsb0) (byte : Byte) (hi : BitVec 3) :
    pickRange p byte 0 hi = byte.toNat % 2 ^ (hi.toNat + 1) := by
  have hle : (0 : BitVec 3) ≤ hi := Nat.zero_le hi.toNat
  simpa using pickRange_of_lsb0 hp byte hle

/-- The two nibbles of a byte make up the byte (R84). -/
theorem toNat_eq_nibbles (hp : p.bitNum = .lsb0) (byte : Byte) :
    byte.toNat = pickRange p byte 4 7 * 16 + pickRange p byte 0 3 := by
  have hhigh : pickRange p byte 4 7 = byte.toNat / 16 % 16 := pickRange_of_lsb0 hp byte (by decide)
  have hlow : pickRange p byte 0 3 = byte.toNat % 16 := pickRange_zero_of_lsb0 hp byte 3
  have hbyte : byte.toNat < 256 := byte.isLt
  omega

/-- A range from index 0 is the byte under a mask of as many ones (R84). -/
theorem pickRange_zero_eq_and (hp : p.bitNum = .lsb0) (byte : Byte) (hi : BitVec 3) :
    pickRange p byte 0 hi = byte.toNat &&& (2 ^ (hi.toNat + 1) - 1) := by
  rw [pickRange_zero_of_lsb0 hp, Nat.and_two_pow_sub_one_eq_mod]

/-! ## One bit -/

theorem pickBit_eq_pickRange (p : Config.Params) (byte : Byte) (i : BitVec 3) :
    pickBit p byte i = pickRange p byte i i := by
  rw [pickBit, pickRange, max_self, min_self]

theorem pickBit_eq_toNat (p : Config.Params) (byte : Byte) (i : BitVec 3) :
    pickBit p byte i = (byte.getLsbD (phys p i)).toNat := by
  rw [pickBit, bitRange, Nat.sub_self, Nat.zero_add, Nat.pow_one, ← BitVec.testBit_toNat, Nat.toNat_testBit]

theorem ofNat_pickBit (p : Config.Params) (byte : Byte) (i : BitVec 3) :
    BitVec.ofNat 32 (pickBit p byte i) = if byte.getLsbD (phys p i) then 1 else 0 := by
  rw [pickBit_eq_toNat]
  cases byte.getLsbD (phys p i) with
  | true => rfl
  | false => rfl

/-! ## The commands -/

/-- A legal range goes to `RES`, and nothing else but the status changes (R82). -/
theorem pkbitsIn_of_le (hready : s.err = 0) (h : lo ≤ hi) :
    pkbitsIn p byte lo hi s = .next { s with
      res := BitVec.ofNat 32 (pickRange p byte lo hi)
      status := some (.ok (.word (BitVec.ofNat 32 (pickRange p byte lo hi)))) } := by
  rw [pkbitsIn, ifReady_of_ready hready, if_neg (BitVec.not_lt.mpr h)]
  rfl

/-- A reversed range is an illegal command (R65). -/
theorem pkbitsIn_of_lt (hready : s.err = 0) (h : hi < lo) :
    pkbitsIn p byte lo hi s = .next (s.enterError .illegalCommand 0x30 0) := by
  rw [pkbitsIn, ifReady_of_ready hready, if_pos h, raise]

/-- A bit goes to `RES`, and nothing else but the status changes (R83). -/
theorem pkbitIn_of_ready (hready : s.err = 0) :
    pkbitIn p byte i s = .next { s with
      res := BitVec.ofNat 32 (pickBit p byte i)
      status := some (.ok (.word (BitVec.ofNat 32 (pickBit p byte i)))) } := by
  rw [pkbitIn, ifReady_of_ready hready]
  rfl

end Sys2Proof.Machine

namespace Sys2Proof.Spec

open Sys2Proof.Machine

/-- Settles O33: the bits of a range start at its lower physical bit, which is `lo` under `lsb0` and `7 - hi` under `msb0`. -/
theorem pkbitsExtractsTheRange : Obligations.PkbitsExtractsTheRange := by
  intro byte lo hi s hready
  refine ⟨fun h => ⟨_, fun k => ?_, pkbitsIn_of_le hready h⟩, pkbitsIn_of_lt hready,
    fun p hp h => ⟨_, fun k => ?_, pkbitsIn_of_le hready h⟩⟩
  · rw [getLsbD_pickRange h, min_phys_of_lsb0 rfl h]
  · rw [getLsbD_pickRange h, min_phys_of_msb0 hp h]

/-- Settles O34: the bit is the one its index names under the numbering. -/
theorem pkbitExtractsTheBit : Obligations.PkbitExtractsTheBit := by
  intro byte i s hready
  refine ⟨⟨_, ?_, pkbitIn_of_ready hready⟩, fun p hp => ⟨_, ?_, pkbitIn_of_ready hready⟩⟩
  · rw [ofNat_pickBit, phys_of_lsb0 rfl]
  · rw [ofNat_pickBit, phys_of_msb0 hp]

/-- Settles O35: the laws are those of shifting a range down and cutting it to its width. -/
theorem bitFieldLaws : Obligations.BitFieldLaws := fun p byte _ _ i =>
  ⟨pickBit_eq_pickRange p byte i, pickRange_whole p byte, pickRange_lt p byte, fun hp => toNat_eq_nibbles hp byte,
    fun hp => ⟨pickRange_zero_eq_and hp byte 3, pickRange_zero_eq_and hp byte 2⟩⟩

end Sys2Proof.Spec
end

section
/-! SUPPORT. The default TEXT_VALID is well-formed UTF-8 (R95): the sequences of the table by their length, and what the one
reading from the front does with each. -/

namespace Sys2Proof.Machine

open Sys2Proof.Spec

variable {a b c d : Byte} {q rest : List Byte}

/-! ## The first byte settles the length of its sequence -/

theorem inRange_iff {lo hi : Nat} : inRange b lo hi = true ↔ lo ≤ b.toNat ∧ b.toNat ≤ hi := by
  simp [inRange]

theorem inRange_eq_false_of_gt {lo hi : Nat} (h : hi < b.toNat) : inRange b lo hi = false := by
  simp only [inRange, Bool.and_eq_false_iff, decide_eq_false_iff_not]
  omega

theorem first_of_utf8Two (h : utf8Two a b = true) : 0xC2 ≤ a.toNat := by
  simp only [utf8Two, Bool.and_eq_true, inRange_iff] at h
  omega

theorem first_of_utf8Three (h : utf8Three a b c = true) : 0xE0 ≤ a.toNat := by
  simp only [utf8Three, Bool.and_eq_true, Bool.or_eq_true, inRange_iff] at h
  omega

theorem first_of_utf8Four (h : utf8Four a b c d = true) : 0xF0 ≤ a.toNat := by
  simp only [utf8Four, Bool.and_eq_true, Bool.or_eq_true, inRange_iff] at h
  omega

theorem utf8Two_eq_false (h : 0xDF < a.toNat) : utf8Two a b = false := by
  rw [utf8Two, inRange_eq_false_of_gt h, Bool.false_and]

theorem utf8Three_eq_false (h : 0xEF < a.toNat) : utf8Three a b c = false := by
  have hE0 : inRange a 0xE0 0xE0 = false := inRange_eq_false_of_gt (by omega)
  have hEC : inRange a 0xE1 0xEC = false := inRange_eq_false_of_gt (by omega)
  have hED : inRange a 0xED 0xED = false := inRange_eq_false_of_gt (by omega)
  have hEF : inRange a 0xEE 0xEF = false := inRange_eq_false_of_gt h
  simp [utf8Three, hE0, hEC, hED, hEF]

/-! ## The rows of the table, by their length -/

/-- `q` is one sequence, judged by the row tests of the model. -/
def isUtf8Sequence : List Byte → Bool
  | [a] => inRange a 0x00 0x7F
  | [a, b] => utf8Two a b
  | [a, b, c] => utf8Three a b c
  | [a, b, c, d] => utf8Four a b c d
  | _ => false

/-- The row tests accept exactly the sequences of the table of R95. -/
theorem utf8Sequence_iff (q : List Byte) : Utf8Sequence q ↔ isUtf8Sequence q = true := by
  simp only [Utf8Sequence, utf8Table, List.exists_mem_cons_iff]
  match q with
  | [] => simp [isUtf8Sequence]
  | [a] => simp [isUtf8Sequence, inRange_iff]
  | [a, b] => simp [isUtf8Sequence, utf8Two, isContinuation, inRange_iff]
  | [a, b, c] => simp [isUtf8Sequence, utf8Three, isContinuation, inRange_iff, or_and_right, or_assoc, and_assoc]
  | [a, b, c, d] => simp [isUtf8Sequence, utf8Four, isContinuation, inRange_iff, or_and_right, or_assoc, and_assoc]
  | _ :: _ :: _ :: _ :: _ :: _ => simp [isUtf8Sequence]

/-! ## Reading from the front -/

/-- A whole sequence at the front is read off. -/
theorem utf8Valid_append (hq : isUtf8Sequence q = true) (rest : List Byte) : utf8Valid (q ++ rest) = utf8Valid rest := by
  match q, hq with
  | [a], h =>
    have h1 : inRange a 0x00 0x7F = true := h
    rw [utf8Valid.eq_def]
    simp [h1]
  | [a, b], h =>
    have h2 : utf8Two a b = true := h
    have ha := first_of_utf8Two h2
    have h1 : inRange a 0x00 0x7F = false := inRange_eq_false_of_gt (by omega)
    rw [utf8Valid.eq_def]
    simp [h1, h2]
  | [a, b, c], h =>
    have h3 : utf8Three a b c = true := h
    have ha := first_of_utf8Three h3
    have h1 : inRange a 0x00 0x7F = false := inRange_eq_false_of_gt (by omega)
    have h2 : utf8Two a b = false := utf8Two_eq_false (by omega)
    rw [utf8Valid.eq_def]
    simp [h1, h2, h3]
  | [a, b, c, d], h =>
    have h4 : utf8Four a b c d = true := h
    have ha := first_of_utf8Four h4
    have h1 : inRange a 0x00 0x7F = false := inRange_eq_false_of_gt (by omega)
    have h2 : utf8Two a b = false := utf8Two_eq_false (by omega)
    have h3 : utf8Three a b c = false := utf8Three_eq_false (by omega)
    rw [utf8Valid.eq_def]
    simp [h1, h2, h3, h4]

theorem utf8Valid_flatten {parts : List (List Byte)} (h : ∀ q ∈ parts, isUtf8Sequence q = true) :
    utf8Valid parts.flatten = true := by
  induction parts with
  | nil => rfl
  | cons q parts ih =>
    rw [List.flatten_cons, utf8Valid_append (h q List.mem_cons_self)]
    exact ih fun r hr => h r (List.mem_cons_of_mem q hr)

/-- `s` is a concatenation of sequences. -/
def IsUtf8Text (s : List Byte) : Prop :=
  ∃ parts : List (List Byte), s = parts.flatten ∧ ∀ q ∈ parts, isUtf8Sequence q = true

theorem IsUtf8Text.append (hq : isUtf8Sequence q = true) (h : IsUtf8Text rest) : IsUtf8Text (q ++ rest) := by
  obtain ⟨parts, rfl, hparts⟩ := h
  exact ⟨q :: parts, rfl, List.forall_mem_cons.mpr ⟨hq, hparts⟩⟩

/-- Each accepting branch of the reading takes one sequence off the front. -/
theorem isUtf8Text_of_utf8Valid {s : List Byte} (h : utf8Valid s = true) : IsUtf8Text s := by
  fun_induction utf8Valid s with
  | case1 => exact ⟨[], rfl, List.forall_mem_nil _⟩
  | case2 a rest h1 ih => exact (ih h).append (q := [a]) h1
  | case4 a _ b rest h2 ih => exact (ih h).append (q := [a, b]) h2
  | case6 a _ b _ c rest h3 ih => exact (ih h).append (q := [a, b, c]) h3
  | case8 a _ b _ c _ d rest h4 ih => exact (ih h).append (q := [a, b, c, d]) h4
  | case3 | case5 | case7 | case9 => cases h

end Sys2Proof.Machine

namespace Sys2Proof.Spec

open Sys2Proof.Machine

/-- Settles O29: the reading from the front takes off one sequence after the other, and each sequence settles by its first
byte which test of the model accepts it. -/
theorem textValidIsWellFormedUtf8 : Obligations.TextValidIsWellFormedUtf8 := by
  intro s
  simp only [utf8Sequence_iff]
  refine ⟨isUtf8Text_of_utf8Valid, ?_⟩
  rintro ⟨parts, rfl, h⟩
  exact utf8Valid_flatten h

end Sys2Proof.Spec
end

section
/-! SUPPORT. The byte-stream sequencer (R90 to R98): the bytes at the cursor, what each command makes of the state, and where the
cursor can go. -/

namespace Sys2Proof.Machine

open Sys2Proof.Spec

variable {s : State} {k : Nat}

/-! ## The bytes at the cursor -/

/-- The `k` bytes of `IBUF` from `POS` on. -/
def State.bytesAtCursor (s : State) (k : Nat) : List Byte := (s.input.drop s.pos).take k

theorem State.input_length_of_filled (hf : s.ibuf.Filled s.ilen) : s.input.length = s.ilen := by
  rw [State.input, List.length_map, hf.length]

theorem State.bytesAtCursor_length (hf : s.ibuf.Filled s.ilen) (hfit : s.pos + k ≤ s.ilen) :
    (s.bytesAtCursor k).length = k := by
  rw [State.bytesAtCursor, List.length_take, List.length_drop, State.input_length_of_filled hf]
  omega

theorem State.bytesAtCursor_spec (hf : s.ibuf.Filled s.ilen) (hfit : s.pos + k ≤ s.ilen) :
    BytesAtCursor s k (s.bytesAtCursor k) := by
  refine ⟨State.bytesAtCursor_length hf hfit, fun j hj => ?_⟩
  rw [Memory.readByte_filled hf, State.bytesAtCursor, List.getElem?_take_of_lt hj, List.getElem?_drop]
  rfl

/-- A read of `a + b` bytes is a read of `a` and a read of `b` behind it. -/
theorem State.bytesAtCursor_add (s : State) (a b : Nat) :
    s.bytesAtCursor (a + b) = s.bytesAtCursor a ++ ({ s with pos := s.pos + a } : State).bytesAtCursor b := by
  simp only [State.bytesAtCursor, State.input, List.take_add, List.drop_drop]

theorem toNat_append_byte {n : Nat} (x : BitVec n) (b : Byte) : (x ++ b).toNat = x.toNat * 2 ^ 8 + b.toNat := by
  rw [BitVec.toNat_append, ← Nat.shiftLeft_add_eq_or_of_lt b.isLt, Nat.shiftLeft_eq]

/-- The byte at the lowest index is the least significant of the word (R44). -/
theorem u32le_four (b0 b1 b2 b3 : Byte) : u32le [b0, b1, b2, b3] = (b3 ++ b2 ++ b1 ++ b0 : BitVec 32) := by
  apply BitVec.eq_of_toNat_eq
  have h0 := b0.isLt; have h1 := b1.isLt; have h2 := b2.isLt; have h3 := b3.isLt
  simp only [u32le, List.foldr_cons, List.foldr_nil, BitVec.toNat_ofNat, toNat_append_byte]
  omega

/-- The text ends at index `n` when no null stands before it, and one stands there unless the field is at its end (R94). -/
theorem firstNull_eq {field : List Byte} {n : Nat} (hn : n ≤ field.length) (hbefore : ∀ j, j < n → field[j]? ≠ some 0)
    (hnull : n < field.length → field[n]? = some 0) : firstNull field = n := by
  have hne : ∀ j (hj : j < n), (field[j]'(hj.trans_le hn) == 0) = false := fun j hj => by
    simpa [List.getElem?_eq_getElem (hj.trans_le hn)] using hbefore j hj
  rcases hn.lt_or_eq with hlt | rfl
  · refine (List.findIdx_eq hlt).mpr ⟨?_, hne⟩
    simpa [List.getElem?_eq_getElem hlt] using hnull hlt
  · refine List.findIdx_eq_length.mpr fun b hb => ?_
    obtain ⟨j, hj, rfl⟩ := List.getElem_of_mem hb
    exact hne j hj

/-! ## The reads -/

/-- `s` after a read of `k` bytes: they stand in `RBYTES`, and the cursor behind them (R91). -/
def State.afterRead (k : Nat) (s : State) : State :=
  { s with
    rbytes := s.bytesAtCursor k
    rlen := k
    pos := s.pos + k
    status := some (.ok (.bytes (s.bytesAtCursor k))) }

theorem execRdb_fits (hf : s.ibuf.Filled s.ilen) (hready : s.err = 0) (hfit : s.pos + k ≤ s.ilen) :
    execRdb k s = .next (s.afterRead k) := by
  have hlen : ((s.input.drop s.pos).take k).length = k := State.bytesAtCursor_length hf hfit
  rw [execRdb, ifReady_of_ready hready, readExact_fits hf hfit, deliverBytes, hlen]
  rfl

theorem execRdb_short (hready : s.err = 0) (hshort : s.ilen < s.pos + k) :
    execRdb k s = .next (s.enterError .unexpectedEof s.pos k) := by
  rw [execRdb, ifReady_of_ready hready, readExact_short hshort]

theorem execRdu32_fits (hf : s.ibuf.Filled s.ilen) (hready : s.err = 0) (hfit : s.pos + 4 ≤ s.ilen) :
    execRdu32 s = .next { s with
      res := u32le (s.bytesAtCursor 4)
      pos := s.pos + 4
      status := some (.ok (.word (u32le (s.bytesAtCursor 4)))) } := by
  rw [execRdu32, ifReady_of_ready hready, readExact_fits hf hfit]
  rfl

theorem execRdu32_short (hready : s.err = 0) (hshort : s.ilen < s.pos + 4) :
    execRdu32 s = .next (s.enterError .unexpectedEof s.pos 4) := by
  rw [execRdu32, ifReady_of_ready hready, readExact_short hshort]

/-- A whole field whose text, its first `n` bytes, is judged (R94). -/
theorem rdstrIn_fits (p : Config.Params) (hf : s.ibuf.Filled s.ilen) (hready : s.err = 0) (hfit : s.pos + k ≤ s.ilen)
    {n : Nat} (hn : firstNull (s.bytesAtCursor k) = n) :
    rdstrIn p k s =
      if p.textValid ((s.bytesAtCursor k).take n) then
        deliverBytes ((s.bytesAtCursor k).take n) { s with pos := s.pos + k }
      else .next (s.enterError .invalidText s.pos k) := by
  rw [rdstrIn, ifReady_of_ready hready, readExact_fits hf hfit, ← hn]
  rfl

theorem rdstrIn_short (p : Config.Params) (hready : s.err = 0) (hshort : s.ilen < s.pos + k) :
    rdstrIn p k s = .next (s.enterError .unexpectedEof s.pos k) := by
  rw [rdstrIn, ifReady_of_ready hready, readExact_short hshort]

/-! ## The seeks -/

/-- `s` after a seek to `n` (R96). -/
def State.afterSeek (n : Nat) (s : State) : State := { s with pos := n, status := some (.ok .unit) }

theorem seekTo_inside {target : Int} {n : Nat} (h : (n : Int) = target) (hn : n ≤ s.ilen) (operand : Nat) :
    seekTo target operand s = .next (s.afterSeek n) := by
  subst h
  rw [seekTo, if_neg (by omega)]
  rfl

theorem seekTo_outside {target : Int} (h : target < 0 ∨ (s.ilen : Int) < target) (operand : Nat) :
    seekTo target operand s = .next (s.enterError .unexpectedEof s.pos operand) := by
  rw [seekTo, if_pos h, raise]

theorem execSka_inside (hready : s.err = 0) {n : Nat} (hn : n ≤ s.ilen) :
    execSka n s = .next (s.afterSeek n) := by
  rw [execSka, ifReady_of_ready hready, seekTo_inside rfl hn]

theorem execSka_outside (hready : s.err = 0) {n : Nat} (hn : s.ilen < n) :
    execSka n s = .next (s.enterError .unexpectedEof s.pos n) := by
  rw [execSka, ifReady_of_ready hready, seekTo_outside (by omega)]

/-- The delta of the default `A` field is the two's-complement value of the word (R64). -/
theorem delta_sdb (d : Word) : delta sdb d.toNat = d.toInt := by
  have h : d.toNat < 2 ^ 31 ↔ 2 * d.toNat < 2 ^ 32 := by omega
  simp only [delta, sext, sdb, Nat.reduceSub, h, BitVec.toInt_eq_toNat_cond]
  rfl

theorem execSkr_inside (hready : s.err = 0) {d : Word} {n : Nat} (h : (n : Int) = s.pos + d.toInt) (hn : n ≤ s.ilen) :
    execSkr d.toNat s = .next (s.afterSeek n) := by
  rw [execSkr, skrIn, ifReady_of_ready hready, delta_sdb, seekTo_inside h hn]

theorem execSkr_outside (hready : s.err = 0) {d : Word}
    (h : (s.pos : Int) + d.toInt < 0 ∨ (s.ilen : Int) < s.pos + d.toInt) :
    execSkr d.toNat s = .next (s.enterError .unexpectedEof s.pos d.toNat) := by
  rw [execSkr, skrIn, ifReady_of_ready hready, delta_sdb, seekTo_outside h]

/-! ## Where the cursor can go -/

theorem isByteStream_cases {i : Instr} (h : isByteStream i = true) :
    (∃ k, i = .rdb k ∨ i = .rda k) ∨ i = .rdu32 ∨ (∃ w, i = .rdstr w) ∨ (∃ n, i = .ska n) ∨ ∃ a, i = .skr a := by
  cases i <;> simp [isByteStream, mnemonic] at h ⊢

/-- The outcome keeps the cursor, or it is a success that moves it within the input (R90). -/
def MovesCursorWithin (s : State) : Outcome → Prop
  | .next t => t.pos = s.pos ∨ (∃ r, t.status = some (.ok r)) ∧ t.pos ≤ s.ilen
  | .fault _ => True
  | .refused _ => True

theorem movesCursorWithin_raise (s : State) (e : Error) (a b : Nat) : MovesCursorWithin s (raise e a b s) := .inl rfl

theorem movesCursorWithin_ifReady {act : State → Outcome} (h : MovesCursorWithin s (act s)) :
    MovesCursorWithin s (ifReady s act) := by
  rcases ifReady_cases s act with ⟨-, e⟩ | ⟨-, e⟩ <;> rw [e]
  · exact h
  · exact .inl rfl

theorem movesCursorWithin_readExact {deliver : List Byte → State → Outcome}
    (h : ∀ bytes, s.pos + k ≤ s.ilen → MovesCursorWithin s (deliver bytes { s with pos := s.pos + k })) :
    MovesCursorWithin s (readExact k s deliver) := by
  rcases readExact_cases k s deliver with ⟨-, e⟩ | ⟨bytes, hfit, -, e⟩ | e <;> rw [e]
  · exact .inl rfl
  · exact h bytes hfit
  · trivial

theorem movesCursorWithin_seekTo (target : Int) (operand : Nat) (s : State) :
    MovesCursorWithin s (seekTo target operand s) := by
  rcases seekTo_cases target operand s with ⟨-, e⟩ | ⟨n, -, hn, e⟩ <;> rw [e]
  · exact .inl rfl
  · exact .inr ⟨⟨_, rfl⟩, hn⟩

theorem movesCursorWithin_execRdb (k : Nat) (s : State) : MovesCursorWithin s (execRdb k s) :=
  movesCursorWithin_ifReady <| movesCursorWithin_readExact fun _ hfit => .inr ⟨⟨_, rfl⟩, hfit⟩

theorem movesCursorWithin_execRdu32 (s : State) : MovesCursorWithin s (execRdu32 s) :=
  movesCursorWithin_ifReady <| movesCursorWithin_readExact fun _ hfit => .inr ⟨⟨_, rfl⟩, hfit⟩

theorem movesCursorWithin_rdstrIn (p : Config.Params) (w : Nat) (s : State) : MovesCursorWithin s (rdstrIn p w s) := by
  refine movesCursorWithin_ifReady <| movesCursorWithin_readExact fun field hfit => ?_
  dsimp only
  split
  · exact .inr ⟨⟨_, rfl⟩, hfit⟩
  · exact movesCursorWithin_raise s _ _ _

theorem movesCursorWithin_exec {i : Instr} (hi : isByteStream i = true) (s : State) : MovesCursorWithin s (exec i s) := by
  rcases isByteStream_cases hi with ⟨k, rfl | rfl⟩ | rfl | ⟨w, rfl⟩ | ⟨n, rfl⟩ | ⟨a, rfl⟩
  · exact movesCursorWithin_execRdb k s
  · exact movesCursorWithin_execRdb k s
  · exact movesCursorWithin_execRdu32 s
  · exact movesCursorWithin_rdstrIn sdb w s
  · exact movesCursorWithin_ifReady (movesCursorWithin_seekTo _ _ s)
  · exact movesCursorWithin_ifReady (movesCursorWithin_seekTo _ _ s)

/-- The two cases of the cursor after a command of BSQ that answers a next state (R90). -/
theorem cursor_of_exec {i : Instr} {t : State} (hi : isByteStream i = true) (ht : exec i s = .next t) :
    t.pos = s.pos ∨ (∃ r, t.status = some (.ok r)) ∧ t.pos ≤ s.ilen := by
  have h := movesCursorWithin_exec hi s
  rwa [ht] at h

/-- No command of BSQ writes a buffer, a length or the checksum accumulator (R98). -/
theorem kept_of_isByteStream {i : Instr} {t : State} (hi : isByteStream i = true) (ht : exec i s = .next t)
    {part : StatePart} (hpart : part ∈ [StatePart.input, .output, .checksum]) : part.Kept s t := by
  have hw : WritesOnly (writtenParts i) s t := by
    have h := exec_writes i s
    rwa [ht] at h
  have hparts : writtenParts i ⊆ [.cursor, .scalar, .byteList] := by
    rcases isByteStream_cases hi with ⟨k, rfl | rfl⟩ | rfl | ⟨w, rfl⟩ | ⟨n, rfl⟩ | ⟨a, rfl⟩ <;> simp [writtenParts]
  refine hw.mono hparts part ?_
  cases part <;> simp at hpart ⊢

end Sys2Proof.Machine

namespace Sys2Proof.Spec

open Sys2Proof.Machine

/-- Settles O26: RDA is RDB under another opcode, and both are an exact read of the bytes at the cursor. -/
theorem rdbAndRdaReadExactly : Obligations.RdbAndRdaReadExactly := by
  intro i k s hi h hready
  have hexec : exec i s = execRdb k s := by rcases hi with rfl | rfl <;> rfl
  rw [hexec]
  exact ⟨fun hfit => ⟨_, State.bytesAtCursor_spec h.ibuf_filled hfit, execRdb_fits h.ibuf_filled hready hfit⟩,
    execRdb_short hready⟩

/-- Settles O27: the four bytes at the cursor side by side, the last the most significant, are the word `u32le` sums up. -/
theorem rdu32ReadsLittleEndian : Obligations.Rdu32ReadsLittleEndian := by
  intro s h hready
  refine ⟨fun hfit => ?_, execRdu32_short hready⟩
  have hbytes := State.bytesAtCursor_spec h.ibuf_filled hfit
  have hexec := execRdu32_fits h.ibuf_filled hready hfit
  obtain ⟨b0, b1, b2, b3, hfour⟩ := List.length_eq_four.mp hbytes.1
  rw [hfour] at hbytes
  rw [hfour, u32le_four] at hexec
  exact ⟨b0, b1, b2, b3, hbytes, hexec⟩

/-- Settles O28: the conditions on `n` say that it is the index of the first null, and only the text before it is judged. -/
theorem rdstrReadsPaddedText : Obligations.RdstrReadsPaddedText := by
  intro w s h hready
  refine ⟨rdstrIn_short sdb hready, fun hfit => ⟨_, State.bytesAtCursor_spec h.ibuf_filled hfit, ?_⟩⟩
  intro n hn hbefore hnull
  have hlen := State.bytesAtCursor_length h.ibuf_filled hfit
  have hfirst : firstNull (s.bytesAtCursor w) = n :=
    firstNull_eq (by rwa [hlen]) hbefore (by rwa [hlen])
  have htext : ((s.bytesAtCursor w).take n).length = n := by rw [List.length_take, hlen, min_eq_left hn]
  have hexec := rdstrIn_fits sdb h.ibuf_filled hready hfit hfirst
  refine ⟨fun hvalid => ?_, fun hinvalid => ?_⟩
  · rw [if_pos hvalid, deliverBytes, htext] at hexec
    exact hexec
  · rw [if_neg (by simp [hinvalid])] at hexec
    exact hexec

/-- Settles O30: an absolute seek is one to a target that is no negative number. -/
theorem skaSeeksAbsolute : Obligations.SkaSeeksAbsolute :=
  fun _ _ hready => ⟨execSka_inside hready, execSka_outside hready⟩

/-- Settles O31: the target is the sum in the integers, so a target below 0 or past the end is seen as such. -/
theorem skrSeeksRelative : Obligations.SkrSeeksRelative :=
  fun _ _ hready => ⟨fun _ => execSkr_inside hready, execSkr_outside hready⟩

/-- R98: two reads deliver what one read of both lengths delivers. -/
theorem reads_compose {s : State} (h : s.Inv) (hready : s.err = 0) {a b : Nat} (hfit : s.pos + a + b ≤ s.ilen) :
    ∃ t₁ t₂ t, exec (.rdb a) s = .next t₁ ∧ exec (.rdb b) t₁ = .next t₂ ∧ exec (.rdb (a + b)) s = .next t ∧
      t.rbytes = t₁.rbytes ++ t₂.rbytes ∧ t.pos = t₂.pos :=
  ⟨s.afterRead a, (s.afterRead a).afterRead b, s.afterRead (a + b),
    execRdb_fits h.ibuf_filled hready (by omega), execRdb_fits (s := s.afterRead a) h.ibuf_filled hready hfit,
    execRdb_fits h.ibuf_filled hready (by omega), s.bytesAtCursor_add a b, (Nat.add_assoc _ _ _).symm⟩

/-- R98: RDU32 is the little-endian word of RDA 4. -/
theorem rdu32_eq_u32le_rda {s : State} (h : s.Inv) (hready : s.err = 0) (hfit : s.pos + 4 ≤ s.ilen) :
    ∃ t u, exec (.rda 4) s = .next t ∧ exec .rdu32 s = .next u ∧ u.res = u32le t.rbytes ∧ u.pos = t.pos :=
  ⟨_, _, execRdb_fits h.ibuf_filled hready hfit, execRdu32_fits h.ibuf_filled hready hfit, rfl, rfl⟩

/-- R98: a seek and a read deliver the bytes from the target on. -/
theorem seek_then_read {s : State} (h : s.Inv) (hready : s.err = 0) {p k : Nat} (hfit : p + k ≤ s.ilen) :
    ∃ t u, exec (.ska p) s = .next t ∧ exec (.rdb k) t = .next u ∧ u.rbytes.length = k ∧
      ∀ j, j < k → s.ibuf.readByte (p + j) = u.rbytes[j]? := by
  obtain ⟨hlen, hbytes⟩ := State.bytesAtCursor_spec (s := s.afterSeek p) h.ibuf_filled hfit
  exact ⟨s.afterSeek p, (s.afterSeek p).afterRead k, execSka_inside hready (by omega),
    execRdb_fits (s := s.afterSeek p) h.ibuf_filled hready hfit, hlen, hbytes⟩

/-- R98: a seek forward and the same distance back restore the cursor. -/
theorem seek_forward_and_back {s : State} (hready : s.err = 0) {a : Word} (ha : a.toNat < 2 ^ 31)
    (hfit : s.pos + a.toNat ≤ s.ilen) :
    ∃ t u, exec (.skr a.toNat) s = .next t ∧ t.pos = s.pos + a.toNat ∧ exec (.skr (-a).toNat) t = .next u ∧
      u.pos = s.pos := by
  have hpos : a.toInt = a.toNat := BitVec.toInt_eq_toNat_of_lt (by omega)
  have hmin : a ≠ BitVec.intMin 32 := fun e => by simp [e] at ha
  have hneg : (-a).toInt = -a.toNat := by rw [BitVec.toInt_neg_of_ne_intMin hmin, hpos]
  have hback : (s.pos : Int) = (s.pos + a.toNat : Nat) + (-a).toInt := by omega
  have hstart : s.pos ≤ s.ilen := by omega
  exact ⟨s.afterSeek (s.pos + a.toNat), (s.afterSeek (s.pos + a.toNat)).afterSeek s.pos,
    execSkr_inside hready (by omega) hfit, rfl,
    execSkr_inside (s := s.afterSeek (s.pos + a.toNat)) hready hback hstart, rfl⟩

/-- Settles O32: the laws of two commands in a row from what each makes of the state, the others from where the cursor can go
and what BSQ writes. -/
theorem byteStreamLaws : Obligations.ByteStreamLaws := by
  refine ⟨fun _ _ _ h hready => reads_compose h hready, fun _ => rdu32_eq_u32le_rda,
    fun _ _ _ h hready => seek_then_read h hready, fun _ _ hready => seek_forward_and_back hready,
    fun i s t hi hpos ht => ?_, fun i s t c hi ht hc => ?_, fun i s t hi ht => ?_⟩
  · have hilen : t.ilen = s.ilen := (kept_of_isByteStream hi ht (part := .input) (by simp)).1
    rcases cursor_of_exec hi ht with hkept | ⟨-, hmoved⟩ <;> omega
  · rcases cursor_of_exec hi ht with hkept | ⟨⟨r, hok⟩, -⟩
    · exact hkept
    · simp [hc] at hok
  · obtain ⟨hilen, hibuf⟩ := kept_of_isByteStream hi ht (part := .input) (by simp)
    obtain ⟨holen, hobuf⟩ := kept_of_isByteStream hi ht (part := .output) (by simp)
    exact ⟨hibuf, hilen, hobuf, holen, kept_of_isByteStream hi ht (part := .checksum) (by simp)⟩

end Sys2Proof.Spec
end

section
/-! SUPPORT. `lz_expand` (43_lzss.md R117, R121, R124): what each pass of its loop makes, the copy's closed form, how far a
stream expands, streams of literals, the first bytes of a stream, and streams that begin with the magic (O49 to O52). -/

namespace Sys2Proof.Machine

variable {p : Config.Params} {lim : Option Nat} {rest inp out r : List Byte} {src fcnt : Nat} {flg t0 t1 : Byte}

/-! ## The copy (R117) -/

/-- A copy overflows exactly when its end lies past the capacity (R120). -/
theorem lzCopy_eq_none_iff {distance n : Nat} (hout : out.length ≤ p.ocap) :
    lzCopy p distance n out = none ↔ p.ocap < out.length + n := by
  induction n generalizing out with
  | zero => simpa [lzCopy] using hout
  | succ n ih =>
    unfold lzCopy
    split
    · simp only [true_iff]; omega
    · rw [ih (by rw [List.length_append, List.length_singleton]; omega), List.length_append, List.length_singleton]
      omega

theorem lzCopy_length {distance n : Nat} (h : lzCopy p distance n out = some r) : r.length = out.length + n := by
  induction n generalizing out with
  | zero => cases h; rfl
  | succ n ih =>
    obtain ⟨-, h⟩ := Option.ite_none_left_eq_some.mp h
    rw [ih h, List.length_append, List.length_singleton]
    omega

theorem prefix_of_lzCopy {distance n : Nat} (h : lzCopy p distance n out = some r) : out <+: r := by
  induction n generalizing out with
  | zero => cases h; exact List.prefix_rfl
  | succ n ih =>
    obtain ⟨-, h⟩ := Option.ite_none_left_eq_some.mp h
    exact (List.prefix_append _ _).trans (ih h)

/-- Byte `j` of a copy is byte `j mod distance` of the last `distance` bytes before it: after its first byte the copy goes on
from an output whose last `distance` bytes are the old ones turned by one. -/
theorem lzCopy_getElem? {distance n : Nat} (hpos : 1 ≤ distance) (hdist : distance ≤ out.length)
    (h : lzCopy p distance n out = some r) {j : Nat} (hj : j < n) :
    r[out.length + j]? = out[out.length - distance + j % distance]? := by
  induction n generalizing out j with
  | zero => omega
  | succ n ih =>
    obtain ⟨-, h⟩ := Option.ite_none_left_eq_some.mp h
    generalize hv : out.getD (out.length - distance) 0 = v at h
    have hread : out[out.length - distance]? = some v := by
      rw [← hv, List.getD_eq_getElem?_getD, List.getElem?_eq_getElem (by omega)]
      rfl
    cases j with
    | zero =>
      obtain ⟨tail, rfl⟩ := prefix_of_lzCopy h
      simp [hread]
    | succ j =>
      have hnext := ih (by rw [List.length_append]; omega) h (Nat.lt_of_succ_lt_succ hj)
      rw [List.length_append, List.length_singleton, Nat.add_right_comm] at hnext
      rw [← Nat.add_assoc, hnext]
      have hmod : j % distance < distance := Nat.mod_lt j hpos
      by_cases hturn : j % distance + 1 = distance
      · have hzero : (j + 1) % distance = 0 := by rw [← Nat.mod_add_mod, hturn, Nat.mod_self]
        rw [hzero, show out.length + 1 - distance + j % distance = out.length by omega, List.getElem?_concat_length]
        exact hread.symm
      · have hsucc : (j + 1) % distance = j % distance + 1 := by rw [← Nat.mod_add_mod, Nat.mod_eq_of_lt (by omega)]
        rw [hsucc, List.getElem?_append_left (by omega),
          show out.length + 1 - distance + j % distance = out.length - distance + (j % distance + 1) by omega]

/-! ## One pass of the loop (R113 to R116), said once per branch -/

theorem lzLoop_of_limitReached (hlim : limitReached lim out.length = true) :
    lzLoop p lim inp src fcnt flg out = .ok out := by
  rw [lzLoop.eq_def]
  cases inp <;> simp [hlim]

theorem lzLoop_nil : lzLoop p none [] src fcnt flg out = .ok out := by simp [lzLoop]

theorem lzLoop_nil_some {l : Nat} (hlim : limitReached (some l) out.length = false) :
    lzLoop p (some l) [] src fcnt flg out = .fail .truncated src := by
  simp [lzLoop, hlim]

section Element

variable (hlim : limitReached lim out.length = false)
include hlim

theorem lzLoop_flags : lzLoop p lim (t0 :: rest) src 8 flg out = lzLoop p lim rest (src + 1) 0 t0 out := by
  rw [lzLoop.eq_def]
  simp [hlim]

section Token

variable (hfcnt : fcnt ≠ 8)
include hfcnt

theorem lzLoop_lit (hsel : selectsRef p flg fcnt = false) :
    lzLoop p lim (t0 :: rest) src fcnt flg out =
      if out.length = p.ocap then .overflow else lzLoop p lim rest (src + 1) (fcnt + 1) flg (out ++ [t0]) := by
  rw [lzLoop.eq_def]
  simp [hlim, hfcnt, hsel]

variable (hsel : selectsRef p flg fcnt = true)
include hsel

theorem lzLoop_cut : lzLoop p lim [t0] src fcnt flg out = .fail .truncated src := by
  simp [lzLoop, hlim, hfcnt, hsel]

theorem lzLoop_ref :
    lzLoop p lim (t0 :: t1 :: rest) src fcnt flg out =
      if tokenDistance p (tokenValue p t0 t1) = 0 ∨ out.length < tokenDistance p (tokenValue p t0 t1) then
        .fail .badDistance src
      else if overruns lim (out.length + tokenLength p (tokenValue p t0 t1)) = true then .fail .overrun src
      else (lzCopy p (tokenDistance p (tokenValue p t0 t1)) (tokenLength p (tokenValue p t0 t1)) out).elim .overflow
        fun out₂ => lzLoop p lim rest (src + 2) (fcnt + 1) flg out₂ := by
  rw [lzLoop.eq_def]
  simp only [hlim, hfcnt, hsel, if_true, if_false, Bool.false_eq_true]
  cases lzCopy p (tokenDistance p (tokenValue p t0 t1)) (tokenLength p (tokenValue p t0 t1)) out <;> rfl

end Token
end Element

/-- Before a flag byte the flag register is not looked at. -/
theorem lzLoop_flg_eight (flg flg' : Byte) : lzLoop p lim inp src 8 flg out = lzLoop p lim inp src 8 flg' out := by
  rw [lzLoop.eq_def, lzLoop.eq_def p lim inp src 8 flg']
  cases inp <;> simp

/-- `lz_expand` at the defaults: no preamble, no exact length (R111). -/
theorem lzExpand_sdb (s : List Byte) : lzExpand sdb s = lzLoop sdb none s 0 8 0 [] := rfl

/-- The default token: four bits of length, twelve of distance (R70). -/
theorem tokenLength_sdb (t0 t1 : Byte) : tokenLength sdb (tokenValue sdb t0 t1) = t0.toNat / 16 + 3 := by
  have h1 := t1.isLt
  change (t0.toNat * 256 + t1.toNat) / 2 ^ 12 + 3 = _
  omega

theorem tokenDistance_sdb (t0 t1 : Byte) :
    tokenDistance sdb (tokenValue sdb t0 t1) = t0.toNat % 16 * 256 + t1.toNat + 1 := by
  have h1 := t1.isLt
  change (t0.toNat * 256 + t1.toNat) % 2 ^ 12 + 1 = _
  omega

/-- R124 item 5: the flag byte 0x42 reads 0, 1, ... from either end, so one of the first two tokens is a back-reference: the
second, 4B 31, after one literal, or the first, 50 4B, before any output. Either way its distance lies beyond the output. -/
theorem lzExpand_magic (msbFirst ref : Bool) (rest : List Byte) :
    lzExpand { sdb with flagMsbFirst := msbFirst, refBit := ref } (0x42 :: 0x50 :: 0x4B :: 0x31 :: rest) =
      .fail .badDistance (if ref then 2 else 1) := by
  cases ref <;> cases msbFirst <;> rfl

/-! ## R124 item 2 -/

theorem tokenLength_sdb_le (t0 t1 : Byte) : tokenLength sdb (tokenValue sdb t0 t1) ≤ 18 := by
  have h0 := t0.isLt
  rw [tokenLength_sdb]
  omega

/-- Every byte of the input adds at most nine to the output: a flag byte none, a literal one, a two-byte token at most 18. -/
theorem length_le_of_lzLoop (h : lzLoop sdb lim inp src fcnt flg out = .ok r) :
    r.length ≤ out.length + 9 * inp.length := by
  fun_induction lzLoop sdb lim inp src fcnt flg out
  case case5 ih =>
    have := ih h
    rw [List.length_cons]; omega
  case case10 t0 _ _ _ _ _ _ _ t1 _ _ _ _ _ _ hcopy ih =>
    have := ih h
    have := tokenLength_sdb_le t0 t1
    have := lzCopy_length hcopy
    simp only [List.length_cons]; omega
  case case12 ih =>
    have := ih h
    rw [List.length_append, List.length_singleton] at this
    rw [List.length_cons]; omega
  case case1 | case2 | case4 => cases h; omega
  all_goals cases h

/-! ## R124 item 4 -/

theorem prefix_of_lzLoop (h : lzLoop p lim inp src fcnt flg out = .ok r) : out <+: r := by
  fun_induction lzLoop p lim inp src fcnt flg out
  case case5 ih => exact ih h
  case case10 hcopy ih => exact (prefix_of_lzCopy hcopy).trans (ih h)
  case case12 ih => exact (List.prefix_append _ _).trans (ih h)
  case case1 | case2 | case4 => cases h; exact List.prefix_rfl
  all_goals cases h

/-- What a stream expands to stands at the front of what every longer stream expands to: the loop makes the same passes, up to
the end of the shorter one. -/
theorem prefix_of_lzLoop_append {more r' : List Byte} (h : lzLoop p lim inp src fcnt flg out = .ok r)
    (h' : lzLoop p lim (inp ++ more) src fcnt flg out = .ok r') : r <+: r' := by
  fun_induction lzLoop p lim inp src fcnt flg out
  case case5 hlim ih =>
    rw [List.cons_append, lzLoop_flags (by simpa using hlim)] at h'
    exact ih h h'
  case case10 hlim hfcnt hsel _ _ _ _ hdist hover _ hcopy ih =>
    rw [List.cons_append, List.cons_append, lzLoop_ref (by simpa using hlim) hfcnt hsel, if_neg hdist, if_neg hover,
      hcopy] at h'
    exact ih h h'
  case case12 hlim hfcnt hsel hcap ih =>
    rw [List.cons_append, lzLoop_lit (by simpa using hlim) hfcnt (by simpa using hsel), if_neg hcap] at h'
    exact ih h h'
  case case1 | case2 | case4 => cases h; exact prefix_of_lzLoop h'
  all_goals cases h

/-! ## R124 item 3 -/

/-- The bytes of `s` below index `n` but for those at the indices divisible by 9. -/
def literalsBelow (s : List Byte) (n : Nat) : List Byte :=
  ((List.range n).filter fun i => i % 9 != 0).filterMap fun i => s[i]?

theorem literalsBelow_succ_flag {s : List Byte} {n : Nat} (h : n % 9 = 0) :
    literalsBelow s (n + 1) = literalsBelow s n := by
  simp [literalsBelow, List.range_succ, h]

theorem literalsBelow_succ {s : List Byte} {n : Nat} (h : n % 9 ≠ 0) (hn : n < s.length) :
    literalsBelow s (n + 1) = literalsBelow s n ++ [s[n]] := by
  simp [literalsBelow, List.range_succ, h, hn]

theorem literalsBelow_length_le (s : List Byte) (n : Nat) : (literalsBelow s n).length ≤ n :=
  calc (literalsBelow s n).length
    _ ≤ ((List.range n).filter fun i => i % 9 != 0).length := List.length_filterMap_le ..
    _ ≤ (List.range n).length := List.length_filter_le ..
    _ = n := List.length_range

/-- From index `n` on, where `(n + 8) % 9` bits of the flag byte of the group are consumed, a stream of literals expands to all
its literals. -/
theorem lzLoop_literals {s : List Byte} (hlen : s.length < 2 ^ 32)
    (hlit : ∀ (k j : Nat) (b : Byte), j < 8 → s[9 * k]? = some b → 9 * k + 1 + j < s.length → b.getLsbD (7 - j) = false)
    {n : Nat} (hn : n ≤ s.length) (hflg : n % 9 ≠ 0 → s[9 * (n / 9)]? = some flg) :
    lzLoop sdb none (s.drop n) n ((n + 8) % 9) flg (literalsBelow s n) = .ok (literalsBelow s s.length) := by
  induction hm : s.length - n generalizing n flg with
  | zero =>
    obtain rfl : n = s.length := by omega
    rw [List.drop_length, lzLoop_nil]
  | succ m ih =>
    have hlt : n < s.length := by omega
    rw [List.drop_eq_getElem_cons hlt]
    by_cases hgroup : n % 9 = 0
    · rw [show (n + 8) % 9 = 8 by omega, lzLoop_flags rfl, ← literalsBelow_succ_flag hgroup]
      have hnext := ih (n := n + 1) (flg := s[n]) hlt (fun _ => by
        rw [show 9 * ((n + 1) / 9) = n by omega, List.getElem?_eq_getElem hlt]) (by omega)
      rwa [show (n + 1 + 8) % 9 = 0 by omega] at hnext
    · have hcap : (literalsBelow s n).length ≠ sdb.ocap := by
        have := literalsBelow_length_le s n
        have : sdb.ocap = 2 ^ 32 - 1 := rfl
        omega
      have hbit := hlit (n / 9) ((n + 8) % 9) flg (by omega) (hflg hgroup) (by omega)
      have hsel : selectsRef sdb flg ((n + 8) % 9) = false := by simpa [selectsRef, flagBit, sdb] using hbit
      rw [lzLoop_lit rfl (by omega) hsel, if_neg hcap, ← literalsBelow_succ hgroup hlt]
      have hnext := ih (n := n + 1) (flg := flg) hlt (fun _ => by
        rw [show (n + 1) / 9 = n / 9 by omega]; exact hflg hgroup) (by omega)
      rwa [show (n + 1 + 8) % 9 = (n + 8) % 9 + 1 by omega] at hnext

end Sys2Proof.Machine

namespace Sys2Proof.Spec

open Sys2Proof.Machine

/-- Settles O49: a copy only adds to the output, byte for byte in the cyclic form. -/
theorem copyRepeatsTheTail : Obligations.CopyRepeatsTheTail :=
  fun _ _ _ _ _ hpos hdist h => ⟨lzCopy_length h, prefix_of_lzCopy h, fun _ => lzCopy_getElem? hpos hdist h⟩

/-- Settles O50: the loop starts from the empty output. -/
theorem expansionIsAtMostNinefold : Obligations.ExpansionIsAtMostNinefold := by
  intro s out h
  rw [lzExpand_sdb] at h
  simpa using length_le_of_lzLoop h

/-- Settles O51: the loop from index 0. -/
theorem literalStreamsLoseTheirFlagBytes : Obligations.LiteralStreamsLoseTheirFlagBytes :=
  fun _ hlen hlit => lzLoop_literals hlen hlit (Nat.zero_le _) (fun h => absurd rfl h)

/-- Settles O52: the stream is its first `n` bytes and what follows them. -/
theorem prefixExpandsToPrefix : Obligations.PrefixExpandsToPrefix := by
  intro s out out' n h h'
  rw [← List.take_append_drop n s] at h
  exact prefix_of_lzLoop_append h' h

end Sys2Proof.Spec
end

section
/-! SUPPORT. How a run of LZD ends (43_lzss.md R118 to R123), what its end depends on, and DECOMP and DECOMPIF as one command
(O40, O41, O53). -/

namespace Sys2Proof.Machine

open Sys2Proof.Spec

variable {p : Config.Params} {s u : State} {kind : RunKind}

/-! ## The bytes of a buffer -/

theorem Memory.map_snd_ofBytesFrom (a : Nat) (bytes : List Byte) :
    (Memory.ofBytesFrom a bytes).map Prod.snd = bytes := by
  induction bytes generalizing a with
  | nil => rfl
  | cons b bytes ih => rw [Memory.ofBytesFrom, List.map_cons, ih]

/-- `MemRead` of the whole input (R41). -/
theorem memRead_input (hf : s.ibuf.Filled s.ilen) (act : List Byte → Outcome) :
    memRead .ibuf 0 s.ilen s act = act s.input := by
  rw [memRead_ibuf hf 0 _ (by omega), List.drop_zero, List.take_of_length_le (State.input_length_of_filled hf).le]

/-! ## What the end of a run leaves -/

/-- The end of a run writes the output buffer, `RES`, the error registers and the status, and nothing else the host sees. -/
theorem outsideLzdKept_leaveRun (s : State) (p : Config.Params) (obuf : Memory) (olen : Nat) (res : Word) (err : BitVec 4)
    (erra errb : Word) (status : Option Status) :
    OutsideLzdKept s { s.leaveRun p with
      obuf := obuf, olen := olen, res := res, err := err, erra := erra, errb := errb, status := status } :=
  ⟨fun _ => rfl, rfl, rfl, rfl, rfl, rfl, rfl, rfl⟩

theorem holdsOutput_of_ofBytes {out : List Byte} (hobuf : s.obuf = Memory.ofBytes out) (holen : s.olen = out.length) :
    HoldsOutput s out :=
  ⟨holen, fun j => by rw [hobuf, Memory.readByte_ofBytes]⟩

/-- The end of a run that ended well (R122, R123). -/
theorem endOk_spec (p : Config.Params) (kind : RunKind) (s : State) :
    ∃ t, endOk p kind s = .next t ∧ OutsideLzdKept s t ∧ t.status = some (.ok .unit) ∧ t.olen = s.olen ∧
      (∀ a, t.obuf.readByte a = s.obuf.readByte a) ∧ t.err = s.err ∧ t.erra = s.erra ∧ t.errb = s.errb ∧
      (kind = .decomp → t.res = s.res) ∧ (kind = .decompif → t.res = 1) := by
  cases kind <;>
    exact ⟨_, rfl, outsideLzdKept_leaveRun .., rfl, rfl, fun _ => rfl, rfl, rfl, rfl, by simp, by simp⟩

/-- The end of a run that passed the capacity (R120). -/
theorem endOverflow_spec (p : Config.Params) (s : State) :
    ∃ t, endOverflow p s = .next t ∧ OutsideLzdKept s t ∧ HoldsOutput t [] ∧ t.res = s.res ∧ t.err = 7 ∧ t.erra = 1 ∧
      t.errb = BitVec.ofNat 32 p.ocap ∧ t.status = some (.err 7) :=
  ⟨_, rfl, outsideLzdKept_leaveRun .., holdsOutput_of_ofBytes rfl rfl, rfl, rfl, rfl, rfl, rfl⟩

/-- The end of a run of DECOMP that failed (R122). -/
theorem endFail_decomp_spec (p : Config.Params) (cause : FailCause) (index : Nat) (s : State) :
    ∃ t, endFail p .decomp cause index s = .next t ∧ OutsideLzdKept s t ∧ HoldsOutput t [] ∧ t.res = s.res ∧ t.err = 5 ∧
      t.erra = BitVec.ofNat 32 index ∧ t.errb = BitVec.ofNat 32 cause.sub ∧ t.status = some (.err 5) :=
  ⟨_, rfl, outsideLzdKept_leaveRun .., holdsOutput_of_ofBytes rfl rfl, rfl, rfl, rfl, rfl, rfl⟩

/-- A failed run of DECOMPIF whose input fits the output buffer returns it (R123). -/
theorem endFail_decompif_of_le (hf : s.ibuf.Filled s.ilen) (hcap : s.ilen ≤ p.ocap) (cause : FailCause) (index : Nat) :
    endFail p .decompif cause index s = succeed .unit { (s.leaveRun p).setObuf s.input with res := 0 } := by
  simp only [endFail, if_neg (Nat.not_lt.mpr hcap)]
  exact memRead_input hf _

/-- The fall-back of DECOMPIF is itself bound by the capacity (R123). -/
theorem endFail_decompif_of_lt (hcap : p.ocap < s.ilen) (cause : FailCause) (index : Nat) :
    endFail p .decompif cause index s = endOverflow p s := if_pos hcap

theorem endFail_decompif_spec (hf : s.ibuf.Filled s.ilen) (hcap : s.ilen ≤ p.ocap) (cause : FailCause) (index : Nat) :
    ∃ t, endFail p .decompif cause index s = .next t ∧ OutsideLzdKept s t ∧ HoldsOutput t s.input ∧ t.res = 0 ∧
      t.err = s.err ∧ t.erra = s.erra ∧ t.errb = s.errb ∧ t.status = some (.ok .unit) :=
  ⟨_, endFail_decompif_of_le hf hcap cause index, outsideLzdKept_leaveRun .., holdsOutput_of_ofBytes rfl rfl, rfl, rfl, rfl,
    rfl, rfl⟩

/-! ## The end a result of `lz_expand` leads to -/

/-- The run of `kind` ends as the result says (R122, R123). -/
def LzResult.finish (p : Config.Params) (kind : RunKind) (s : State) : LzResult → Outcome
  | .ok out => endOk p kind (s.setObuf out)
  | .fail cause index => endFail p kind cause index s
  | .overflow => endOverflow p s

/-- A command of LZD is `lz_expand` of the whole input (R110, R122, R123). -/
theorem expandIn_eq_finish (hf : s.ibuf.Filled s.ilen) (hready : s.err = 0) :
    expandIn p kind s = (lzExpand p s.input).finish p kind s := by
  rw [expandIn, ifReady_of_ready hready, memRead_input hf]
  rfl

/-- `s` after LOAD of bytes that fit the input buffer (R151). -/
def State.afterLoad (data : List Byte) (s : State) : State :=
  { s.clearError.newInput sdb data with status := some (.ok .unit) }

theorem execLoad_fits {data : List Byte} (h : data.length ≤ sdb.icap) : execLoad data s = .next (s.afterLoad data) :=
  if_neg (Nat.not_lt.mpr h)

theorem State.afterLoad_input (data : List Byte) (s : State) : (s.afterLoad data).input = data :=
  Memory.map_snd_ofBytesFrom 0 data

theorem State.afterLoad_filled (data : List Byte) (s : State) : (s.afterLoad data).ibuf.Filled (s.afterLoad data).ilen :=
  Memory.filled_ofBytes data

end Sys2Proof.Machine

namespace Sys2Proof.Spec

open Sys2Proof.Machine

/-- Settles O40, by the three results of `lz_expand` and the end of the run each leads to. -/
theorem decompExpandsTheInput : Obligations.DecompExpandsTheInput := by
  refine ⟨fun s h hready => ?_, fun p s h hready hover => ?_⟩
  · have e : exec .decomp s = (lzExpand sdb s.input).finish sdb .decomp s := expandIn_eq_finish h.ibuf_filled hready
    rw [e]
    cases lzExpand sdb s.input with
    | ok out =>
      exact ⟨_, rfl, outsideLzdKept_leaveRun .., rfl, holdsOutput_of_ofBytes rfl rfl, hready, rfl, rfl, rfl⟩
    | fail cause index =>
      obtain ⟨t, ht, hkept, hout, hres, hraised⟩ := endFail_decomp_spec sdb cause index s
      exact ⟨t, ht, hkept, hres, hout, hraised⟩
    | overflow =>
      obtain ⟨t, ht, hkept, hout, hres, hraised⟩ := endOverflow_spec sdb s
      exact ⟨t, ht, hkept, hres, hout, hraised⟩
  · rw [expandIn_eq_finish h.ibuf_filled hready, hover]
    exact endOverflow_spec p s

/-- Settles O41, likewise; the input fits the default output buffer, so there a failed run always falls back to it. -/
theorem decompifFallsBackToTheInput : Obligations.DecompifFallsBackToTheInput := by
  refine ⟨fun s h hready => ?_, fun p s h hready hover => ?_⟩
  · have e : exec .decompif s = (lzExpand sdb s.input).finish sdb .decompif s := expandIn_eq_finish h.ibuf_filled hready
    rw [e]
    cases lzExpand sdb s.input with
    | ok out =>
      exact ⟨_, rfl, outsideLzdKept_leaveRun .., holdsOutput_of_ofBytes rfl rfl, rfl, hready, rfl, rfl, rfl⟩
    | fail cause index =>
      have hfall := endFail_decompif_spec (p := sdb) h.ibuf_filled h.ilen_le cause index
      rwa [hready] at hfall
    | overflow => exact endOverflow_spec sdb s
  · have e : expandIn p .decompif s = endOverflow p s := by
      rw [expandIn_eq_finish h.ibuf_filled hready]
      rcases hover with hover | ⟨⟨cause, index, hfail⟩, hcap⟩
      · rw [hover]; rfl
      · rw [hfail]; exact endFail_decompif_of_lt hcap cause index
    rw [e]
    exact endOverflow_spec p s

/-- Settles O53: `lz_expand` fails on the magic, and DECOMPIF then returns what LOAD took. -/
theorem magicBufferIsReturnedUnchanged : Obligations.MagicBufferIsReturnedUnchanged := by
  refine ⟨fun msbFirst ref rest => ⟨_, lzExpand_magic msbFirst ref rest⟩, fun s rest hlen => ?_⟩
  have hmagic : lzExpand sdb (0x42 :: 0x50 :: 0x4B :: 0x31 :: rest) = .fail .badDistance 2 := lzExpand_magic true true rest
  generalize hdata : (0x42 :: 0x50 :: 0x4B :: 0x31 :: rest : List Byte) = data at hmagic
  have hfits : data.length ≤ sdb.icap := by
    rw [← hdata]
    exact Nat.le_sub_one_of_lt hlen
  have hrun : exec .decompif (s.afterLoad data) = endFail sdb .decompif .badDistance 2 (s.afterLoad data) := by
    have e : exec .decompif (s.afterLoad data) = _ := expandIn_eq_finish (s.afterLoad_filled data) rfl
    rw [e, State.afterLoad_input, hmagic]
    rfl
  obtain ⟨u, hu, -, hout, hres, herr, -⟩ :=
    endFail_decompif_spec (p := sdb) (s.afterLoad_filled data) hfits .badDistance 2
  rw [State.afterLoad_input] at hout
  exact ⟨s.afterLoad data, u, execLoad_fits hfits, hrun.trans hu, hout, hres, herr⟩

end Sys2Proof.Spec
end

section
/-! SUPPORT. The stream elements FLAGS, LIT and REF inside a run (43_lzss.md R114 to R117), the copy of REF being that of
`lz_expand` (O43 to O48). -/

namespace Sys2Proof.Machine

open Sys2Proof.Spec

variable {p : Config.Params} {s u : State} {kind : RunKind}

/-! ## The output buffer as a list -/

theorem State.output_length_of_filled (hf : s.obuf.Filled s.olen) : s.output.length = s.olen := by
  rw [State.output, List.length_map, hf.length]

theorem State.setObuf_output (hf : s.obuf.Filled s.olen) : s.setObuf s.output = s := by
  have hobuf : Memory.ofBytes s.output = s.obuf := hf.eq_ofBytes.symm
  rw [State.setObuf, hobuf, State.output_length_of_filled hf]

theorem State.output_setObuf (out : List Byte) (s : State) : (s.setObuf out).output = out :=
  Memory.map_snd_ofBytesFrom 0 out

theorem State.output_appendByte (hf : s.obuf.Filled s.olen) (b : Byte) : (s.appendByte b).output = s.output ++ [b] := by
  conv_lhs => rw [← State.setObuf_output hf]
  change ((Memory.ofBytes s.output).writeByte s.output.length b).map Prod.snd = s.output ++ [b]
  rw [Memory.writeByte_ofBytes]
  exact Memory.map_snd_ofBytesFrom 0 _

theorem State.readByte_output (hf : s.obuf.Filled s.olen) (j : Nat) : s.obuf.readByte j = s.output[j]? :=
  Memory.readByte_filled hf j

/-! ## FLAGS and LIT -/

theorem execFlags_inRun (hrun : s.run = some kind) (f : Byte) :
    execFlags f s = .next { s with flg := f, src := s.src + 1, fcnt := 0 } := inRun_some hrun _

theorem litIn_inRun (hrun : s.run = some kind) (b : Byte) :
    litIn p b s = if s.olen = p.ocap then endOverflow p s else .next { s.appendByte b with src := s.src + 1 } :=
  inRun_some hrun _

/-! ## The copy of REF -/

/-- The copy of REF is that of `lz_expand`, from an output that holds a byte at the distance. -/
theorem copyBytes_eq_lzCopy {n : Nat} (hf : s.obuf.Filled s.olen) (hpos : 1 ≤ s.cdist) (hdist : s.cdist ≤ s.olen)
    (hclen : s.clen = n) :
    copyBytes p n s =
      (lzCopy p s.cdist n s.output).elim (endOverflow p s) fun r => .next { s.setObuf r with clen := 0 } := by
  induction n generalizing s with
  | zero =>
    rw [copyBytes, lzCopy, Option.elim_some, State.setObuf_output hf, ← hclen]
  | succ n ih =>
    have hlen := State.output_length_of_filled hf
    rw [copyBytes, lzCopy, hlen]
    split
    · rfl
    · have hread : s.obuf.readByte (s.olen - s.cdist) = some (s.output.getD (s.olen - s.cdist) 0) := by
        rw [State.readByte_output hf, List.getD_eq_getElem?_getD, List.getElem?_eq_getElem (by omega)]
        rfl
      rw [hread]
      generalize s.output.getD (s.olen - s.cdist) 0 = v
      rw [← State.output_appendByte hf]
      exact ih (s := { s.appendByte v with clen := n }) (hf.writeByte v) hpos (Nat.le_succ_of_le hdist) rfl

/-- A back-reference whose two bytes are present (R116). -/
theorem refIn_present (hrun : s.run = some kind) (hf : s.obuf.Filled s.olen) (hsrc : s.src + 2 ≤ s.ilen)
    (length distance : Nat) :
    refIn p length distance s =
      if distance = 0 ∨ s.olen < distance then endFail p kind .badDistance s.src s
      else if overruns s.lim (s.olen + length) = true then endFail p kind .overrun s.src s
      else (lzCopy p distance length s.output).elim (endOverflow p s) fun r =>
        .next { s.setObuf r with src := s.src + 2, clen := 0, cdist := distance } := by
  rw [refIn, inRun_some hrun, if_neg (Nat.not_lt.mpr hsrc)]
  split
  · rfl
  split
  · rfl
  · have hd : 1 ≤ distance ∧ distance ≤ s.olen := by omega
    exact copyBytes_eq_lzCopy (s := { s with src := s.src + 2, clen := length, cdist := distance }) hf hd.1 hd.2 rfl

/-- A valid back-reference is the copy of `lz_expand` (R117). -/
theorem refIn_valid (hrun : s.run = some kind) (hf : s.obuf.Filled s.olen) (hsrc : s.src + 2 ≤ s.ilen)
    {length distance : Nat} (hpos : 1 ≤ distance) (hdist : distance ≤ s.olen)
    (hover : overruns s.lim (s.olen + length) = false) :
    refIn p length distance s = (lzCopy p distance length s.output).elim (endOverflow p s) fun r =>
        .next { s.setObuf r with src := s.src + 2, clen := 0, cdist := distance } := by
  rw [refIn_present hrun hf hsrc, if_neg (by omega), if_neg (by simp [hover])]

/-- The failures of a back-reference, by the first condition that holds (R116, R185). -/
theorem refIn_fails (hrun : s.run = some kind) {length distance : Nat}
    (hfail : s.ilen < s.src + 2 ∨ distance = 0 ∨ s.olen < distance ∨ overruns s.lim (s.olen + length) = true) :
    ∃ cause, refIn p length distance s = endFail p kind cause s.src s ∧
      cause.sub = if s.ilen < s.src + 2 then 2 else if distance = 0 ∨ s.olen < distance then 3 else 4 := by
  rw [refIn, inRun_some hrun]
  split
  · exact ⟨.truncated, rfl, rfl⟩
  split
  · exact ⟨.badDistance, rfl, rfl⟩
  split
  · exact ⟨.overrun, rfl, rfl⟩
  · exfalso
    tauto

end Sys2Proof.Machine

namespace Sys2Proof.Spec

open Sys2Proof.Machine

/-- Settles O43. -/
theorem flagsTakesTheFlagByte : Obligations.FlagsTakesTheFlagByte := by
  intro f s hrun
  obtain ⟨kind, hkind⟩ := Option.ne_none_iff_exists'.mp hrun
  exact execFlags_inRun hkind f

/-- Settles O44: below the capacity a store at `OLEN`, at it the end of the run. -/
theorem litAppendsItsByte : Obligations.LitAppendsItsByte := by
  intro b s hrun
  obtain ⟨kind, hkind⟩ := Option.ne_none_iff_exists'.mp hrun
  have e : exec (.lit b) s = _ := litIn_inRun (p := sdb) hkind b
  refine ⟨fun hroom => ⟨s.obuf.writeByte s.olen b, ?_, ?_, fun a ha => ?_⟩, fun hfull => ?_⟩
  · rw [e, if_neg hroom.ne]
    rfl
  · exact Memory.readByte_writeByte_same ..
  · exact Memory.readByte_writeByte_other _ _ _ _ ha
  · rw [e, if_pos hfull]
    exact endOverflow_spec sdb s

/-- Settles O45: the copy of `lz_expand` does not overflow below the capacity, and has the cyclic form. -/
theorem refCopiesCyclically : Obligations.RefCopiesCyclically := by
  intro length distance s h hrun hsrc hpos hdist hover hcap
  obtain ⟨kind, hkind⟩ := Option.ne_none_iff_exists'.mp hrun
  have hlen := h.output_length
  obtain ⟨r, hr⟩ : ∃ r, lzCopy sdb distance length s.output = some r := by
    rw [← Option.ne_none_iff_exists', Ne, lzCopy_eq_none_iff (by omega)]
    omega
  have hrlen : r.length = s.olen + length := by rw [lzCopy_length hr, hlen]
  have hread := State.readByte_output h.obuf_filled
  refine ⟨Memory.ofBytes r, ?_, fun j hj => ?_, fun a ha => ?_⟩
  · have e : exec (.ref length distance) s = _ := refIn_valid hkind h.obuf_filled hsrc hpos hdist hover
    rw [e, hr, Option.elim_some, State.setObuf, hrlen]
  · rw [Memory.readByte_ofBytes, hread, ← hlen]
    exact lzCopy_getElem? hpos (hlen ▸ hdist) hr hj
  · rw [Memory.readByte_ofBytes, hread]
    rcases ha with ha | ha
    · obtain ⟨tail, rfl⟩ := prefix_of_lzCopy hr
      exact List.getElem?_append_left (hlen ▸ ha)
    · rw [List.getElem?_eq_none (by omega), List.getElem?_eq_none (by omega)]

/-- Settles O46: the copy of `lz_expand` overflows past the capacity. -/
theorem refStopsAtCapacity : Obligations.RefStopsAtCapacity := by
  intro p length distance s _ h hrun hsrc hpos hdist hover hcap hpast
  obtain ⟨kind, hkind⟩ := Option.ne_none_iff_exists'.mp hrun
  have hlen := h.output_length
  have hnone : lzCopy p distance length s.output = none := (lzCopy_eq_none_iff (hlen ▸ hcap)).mpr (hlen ▸ hpast)
  rw [refIn_valid hkind h.obuf_filled hsrc hpos hdist hover, hnone]
  exact endOverflow_spec p s

/-- Settles O47: a run of DECOMP that fails raises, with the cause of the first condition that holds. -/
theorem refFailsInOrder : Obligations.RefFailsInOrder := by
  intro length distance s hrun hfail
  obtain ⟨cause, e, hsub⟩ := refIn_fails (p := sdb) hrun hfail
  obtain ⟨t, ht, hkept, hout, hres, herr, herra, herrb, hstatus⟩ := endFail_decomp_spec sdb cause s.src s
  refine ⟨t, Eq.trans e ht, hkept, hout, hres, herr, herra, hstatus, ?_⟩
  rw [herrb, hsub]
  split_ifs <;> rfl

/-- Settles O48: a run of DECOMPIF that fails returns the input, whatever the cause. -/
theorem refFailureInDecompifFallsBack : Obligations.RefFailureInDecompifFallsBack := by
  intro length distance s h hrun hfail
  obtain ⟨cause, e, -⟩ := refIn_fails (p := sdb) hrun hfail
  obtain ⟨t, ht, hkept, hout, hres, herr, -, -, hstatus⟩ :=
    endFail_decompif_spec (p := sdb) h.ibuf_filled h.ilen_le cause s.src
  have hready : s.err = 0 := h.run_ready (by simp [hrun])
  exact ⟨t, Eq.trans e ht, hkept, hout, hres, herr.trans hready, hstatus⟩

end Sys2Proof.Spec
end

section
/-! SUPPORT. One pass of the run loop (43_lzss.md R113) and what `lz_expand` has left to do in the middle of a run: each pass ends
the run as it says or leaves it as much to do, so the run is the command (O9 to O12, O42). -/

namespace Sys2Proof.Machine

open Sys2Proof.Spec

variable {p : Config.Params} {s t : State} {kind : RunKind}

/-! ## The flag bits (R68, R72) -/

theorem consumeFlag_eq {k : Fin 9} (hk : k.val = s.fcnt.val + 1) : consumeFlag s = { s with fcnt := k } := by
  have hlt : s.fcnt.val < 8 := by omega
  rw [consumeFlag, dif_pos hlt]
  congr 1
  exact Fin.ext hk.symm

theorem consumeFlag_of_eight (h : s.fcnt.val = 8) : consumeFlag s = s := dif_neg (by omega)

theorem nextKind_flags (h : s.fcnt.val = 8) : nextKind p s = .flags := if_pos h

theorem nextKind_ref (h : s.fcnt.val ≠ 8) (hsel : selectsRef p s.flg s.fcnt.val = true) : nextKind p s = .ref := by
  rw [nextKind, if_neg h, if_pos hsel]

theorem nextKind_lit (h : s.fcnt.val ≠ 8) (hsel : selectsRef p s.flg s.fcnt.val = false) : nextKind p s = .lit := by
  rw [nextKind, if_neg h, if_neg (by simp [hsel])]

theorem Memory.read_one {m : Memory} {a : Nat} {b : Byte} (h : m.readByte a = some b) : m.read a 1 = some [b] := by
  simp [Memory.read, h]

theorem Memory.read_two {m : Memory} {a : Nat} {b b' : Byte} (h : m.readByte a = some b) (h' : m.readByte (a + 1) = some b') :
    m.read a 2 = some [b, b'] := by
  simp [Memory.read, h, h']

/-! ## One pass, said once per branch of R113 -/

section Pass

variable {exe : Executor}

theorem pass_of_limitReached (hlim : limitReached s.lim s.olen = true) : pass p exe kind s = endOk p kind s := if_pos hlim

theorem pass_of_exhausted (hlim : s.lim = none) (hsrc : s.src = s.ilen) : pass p exe kind s = endOk p kind s := by
  simp [pass, hlim, hsrc]

variable (hlim : limitReached s.lim s.olen = false)
include hlim

theorem pass_of_exhausted_some {l : Nat} (hl : s.lim = some l) (hsrc : s.src = s.ilen) :
    pass p exe kind s = endFail p kind .truncated s.src s := by
  rw [hl] at hlim
  simp [pass, hl, hlim, hsrc]

theorem pass_of_cut (hsrc : s.src ≠ s.ilen) (hcut : s.ilen < s.src + ElementKind.size (nextKind p s)) :
    pass p exe kind s = endFail p kind .truncated s.src s := by
  rw [pass, if_neg (by simp [hlim]), if_neg hsrc, if_pos hcut]

/-- The element at `SRC` is decoded and executed after its flag bit is consumed. -/
theorem pass_of_element {element : ElementKind} (hkind : nextKind p s = element)
    (hsrc : s.src + ElementKind.size element ≤ s.ilen) {bytes : List Byte}
    (hread : s.ibuf.read s.src (ElementKind.size element) = some bytes) {i : Instr}
    (hi : decodeElement p element bytes = .ok i) : pass p exe kind s = exe i (consumeFlag s) := by
  have hsize : 0 < ElementKind.size element := by cases element <;> decide
  rw [pass, if_neg (by simp [hlim]), if_neg (by omega), hkind, if_neg (Nat.not_lt.mpr hsrc)]
  simp only [memRead, State.space, hread, decodeIn, hi]

theorem pass_flags (h : s.fcnt.val = 8) {f : Byte} (hsrc : s.src + 1 ≤ s.ilen) (hf : s.ibuf.readByte s.src = some f) :
    pass p exe kind s = exe (.flags f) s := by
  rw [pass_of_element hlim (nextKind_flags h) hsrc (Memory.read_one hf) rfl, consumeFlag_of_eight h]

section Token

variable {k : Fin 9} (hk : k.val = s.fcnt.val + 1)
include hk

theorem pass_lit (hsel : selectsRef p s.flg s.fcnt.val = false) {b : Byte} (hsrc : s.src + 1 ≤ s.ilen)
    (hb : s.ibuf.readByte s.src = some b) : pass p exe kind s = exe (.lit b) { s with fcnt := k } := by
  have hkind : nextKind p s = .lit := nextKind_lit (by omega) hsel
  rw [pass_of_element hlim hkind hsrc (Memory.read_one hb) rfl, consumeFlag_eq hk]

theorem pass_ref (hsel : selectsRef p s.flg s.fcnt.val = true) {t0 t1 : Byte} (hsrc : s.src + 2 ≤ s.ilen)
    (h0 : s.ibuf.readByte s.src = some t0) (h1 : s.ibuf.readByte (s.src + 1) = some t1) :
    pass p exe kind s =
      exe (.ref (tokenLength p (tokenValue p t0 t1)) (tokenDistance p (tokenValue p t0 t1))) { s with fcnt := k } := by
  have hkind : nextKind p s = .ref := nextKind_ref (by omega) hsel
  rw [pass_of_element hlim hkind hsrc (Memory.read_two h0 h1) rfl, consumeFlag_eq hk]

end Token
end Pass

/-- Inside a run with no reset asserted a step is one pass (R113, R150). -/
theorem step_inRun (hrun : s.run = some kind) (hreset : NoReset s) : step s = pass sdb exec kind s := by
  rw [step_of_noInput hreset (.inr (by simp [hrun])), stepIn_run hrun sdb (by simp), exec_eq]

/-! ## What a run has left to do -/

/-- What `lz_expand` answers from here on. -/
def State.remaining (p : Config.Params) (s : State) : LzResult :=
  lzLoop p s.lim (s.input.drop s.src) s.src s.fcnt.val s.flg s.output

/-- `s` without what the stream elements write. -/
def State.eraseElements (s : State) : State :=
  { s with obuf := [], olen := 0, src := 0, flg := 0, fcnt := 0, clen := 0, cdist := 0 }

/-- The end of a run overwrites all that the stream elements write. -/
theorem finish_eraseElements (p : Config.Params) (kind : RunKind) (s : State) (result : LzResult) :
    result.finish p kind s.eraseElements = result.finish p kind s := by
  cases result <;> cases kind <;> rfl

theorem finish_congr (h : t.eraseElements = s.eraseElements) (result : LzResult) :
    result.finish p kind t = result.finish p kind s := by
  rw [← finish_eraseElements, h, finish_eraseElements]

/-- A run ends, whatever the result is. -/
theorem exists_finish_eq_next (hf : s.ibuf.Filled s.ilen) (result : LzResult) :
    ∃ t, result.finish p kind s = .next t ∧ t.run = none := by
  match result, kind with
  | .ok _, .decomp | .ok _, .decompif | .overflow, _ | .fail _ _, .decomp => exact ⟨_, rfl, rfl⟩
  | .fail cause index, .decompif =>
    by_cases hcap : s.ilen ≤ p.ocap
    · exact ⟨_, endFail_decompif_of_le hf hcap cause index, rfl⟩
    · exact ⟨_, endFail_decompif_of_lt (Nat.lt_of_not_le hcap) cause index, rfl⟩

/-- From `s` to `t` a run moved on by one stream element. -/
structure MovesOn (p : Config.Params) (s t : State) : Prop where
  src_lt : s.src < t.src
  src_le : t.src ≤ s.src + 2
  src_le_ilen : t.src ≤ s.ilen
  kept : t.eraseElements = s.eraseElements
  remaining : t.remaining p = s.remaining p

namespace MovesOn

variable (h : MovesOn p s t)
include h

theorem ilen_eq : t.ilen = s.ilen := show t.eraseElements.ilen = s.eraseElements.ilen by rw [h.kept]

theorem run_eq : t.run = s.run := show t.eraseElements.run = s.eraseElements.run by rw [h.kept]

theorem port_eq : t.port = s.port := show t.eraseElements.port = s.eraseElements.port by rw [h.kept]

end MovesOn

/-- The outcome of a pass from `s`: the end of the run, as `lz_expand` has it from there, or one element more. -/
def FollowsLzExpand (p : Config.Params) (kind : RunKind) (s : State) (o : Outcome) : Prop :=
  o = (s.remaining p).finish p kind s ∨ ∃ t, o = .next t ∧ MovesOn p s t

/-! ## The input from `SRC` on -/

theorem readByte_of_drop (hf : s.ibuf.Filled s.ilen) {bytes : List Byte} (hdrop : s.input.drop s.src = bytes) (j : Nat) :
    s.ibuf.readByte (s.src + j) = bytes[j]? := by
  rw [Memory.readByte_filled hf, ← hdrop, List.getElem?_drop]
  rfl

theorem drop_src_add {bytes : List Byte} (hdrop : s.input.drop s.src = bytes) (j : Nat) :
    s.input.drop (s.src + j) = bytes.drop j := by
  rw [← hdrop, List.drop_drop]

/-! ## Each branch of a pass follows `lz_expand` -/

section Follows

variable (h : s.InvIn p) (hrun : s.run = some kind)

/-- A run that ends well leaves the output as it is. -/
theorem follows_endOk (hf : s.obuf.Filled s.olen) (hok : s.remaining p = .ok s.output) :
    FollowsLzExpand p kind s (endOk p kind s) :=
  .inl (by rw [hok, LzResult.finish, State.setObuf_output hf])

theorem follows_endFail (ht : t.eraseElements = s.eraseElements) {cause : FailCause}
    (hfail : s.remaining p = .fail cause s.src) : FollowsLzExpand p kind s (endFail p kind cause s.src t) :=
  .inl (by rw [hfail]; exact finish_congr ht (.fail cause s.src))

theorem follows_endOverflow (ht : t.eraseElements = s.eraseElements) (hover : s.remaining p = .overflow) :
    FollowsLzExpand p kind s (endOverflow p t) :=
  .inl (by rw [hover]; exact finish_congr (kind := kind) ht .overflow)

include h

theorem follows_limitReached (hlim : limitReached s.lim s.olen = true) :
    FollowsLzExpand p kind s (pass p (execIn p) kind s) := by
  rw [pass_of_limitReached hlim]
  rw [← h.output_length] at hlim
  exact follows_endOk h.obuf_filled (lzLoop_of_limitReached hlim)

variable (hlim : limitReached s.lim s.olen = false)
include hlim

theorem follows_exhausted (hsrc : s.src = s.ilen) : FollowsLzExpand p kind s (pass p (execIn p) kind s) := by
  have hdrop : s.input.drop s.src = [] := List.drop_eq_nil_of_le (by rw [h.input_length, hsrc])
  cases hl : s.lim with
  | none =>
    rw [pass_of_exhausted hl hsrc]
    exact follows_endOk h.obuf_filled (by rw [State.remaining, hl, hdrop, lzLoop_nil])
  | some l =>
    rw [pass_of_exhausted_some hlim hl hsrc]
    rw [hl, ← h.output_length] at hlim
    exact follows_endFail rfl (by rw [State.remaining, hl, hdrop, lzLoop_nil_some hlim])

theorem follows_cut (hsrc : s.src + 1 = s.ilen) {t0 : Byte} (hdrop : s.input.drop s.src = [t0]) (hfcnt : s.fcnt.val ≠ 8)
    (hsel : selectsRef p s.flg s.fcnt.val = true) : FollowsLzExpand p kind s (pass p (execIn p) kind s) := by
  have hsize : ElementKind.size (nextKind p s) = 2 := by rw [nextKind_ref hfcnt hsel]; rfl
  rw [pass_of_cut hlim (by omega) (by omega)]
  rw [← h.output_length] at hlim
  exact follows_endFail rfl (by rw [State.remaining, hdrop, lzLoop_cut hlim hfcnt hsel])

include hrun

variable {t0 t1 : Byte} {rest : List Byte}

theorem follows_flags (hsrc : s.src + 1 ≤ s.ilen) (hdrop : s.input.drop s.src = t0 :: rest) (hfcnt : s.fcnt.val = 8) :
    FollowsLzExpand p kind s (pass p (execIn p) kind s) := by
  rw [pass_flags hlim hfcnt hsrc (readByte_of_drop h.ibuf_filled hdrop 0)]
  refine .inr ⟨_, execFlags_inRun hrun t0, Nat.lt_succ_self _, Nat.le_succ _, hsrc, rfl, ?_⟩
  rw [← h.output_length] at hlim
  have hrest : s.input.drop (s.src + 1) = rest := drop_src_add hdrop 1
  rw [State.remaining.eq_def p s, hfcnt, hdrop, lzLoop_flags hlim, ← hrest]
  rfl

variable {k : Fin 9} (hk : k.val = s.fcnt.val + 1)
include hk

theorem follows_lit (hsrc : s.src + 1 ≤ s.ilen) (hdrop : s.input.drop s.src = t0 :: rest)
    (hsel : selectsRef p s.flg s.fcnt.val = false) : FollowsLzExpand p kind s (pass p (execIn p) kind s) := by
  have hrem : s.remaining p = if s.olen = p.ocap then .overflow else
      lzLoop p s.lim rest (s.src + 1) k.val s.flg (s.output ++ [t0]) := by
    rw [← h.output_length] at hlim ⊢
    rw [State.remaining, hdrop, lzLoop_lit hlim (by omega) hsel, hk]
  rw [pass_lit hlim hk hsel hsrc (readByte_of_drop h.ibuf_filled hdrop 0), execIn,
    litIn_inRun (s := { s with fcnt := k }) hrun]
  split
  · exact follows_endOverflow rfl (by rw [hrem, if_pos ‹_›])
  · refine .inr ⟨_, rfl, Nat.lt_succ_self _, Nat.le_succ _, hsrc, rfl, ?_⟩
    have hrest : s.input.drop (s.src + 1) = rest := drop_src_add hdrop 1
    rw [hrem, if_neg ‹_›, ← State.output_appendByte h.obuf_filled, ← hrest]
    rfl

theorem follows_ref (hsrc : s.src + 2 ≤ s.ilen) (hdrop : s.input.drop s.src = t0 :: t1 :: rest)
    (hsel : selectsRef p s.flg s.fcnt.val = true) : FollowsLzExpand p kind s (pass p (execIn p) kind s) := by
  have hrem := lzLoop_ref (p := p) (t0 := t0) (t1 := t1) (rest := rest) (src := s.src) (h.output_length.symm ▸ hlim)
    (by omega) hsel
  rw [← hdrop, ← State.remaining, ← hk, h.output_length] at hrem
  have h1 : s.ibuf.readByte (s.src + 1) = some t1 := readByte_of_drop h.ibuf_filled hdrop 1
  rw [pass_ref hlim hk hsel hsrc (readByte_of_drop h.ibuf_filled hdrop 0) h1, execIn,
    refIn_present (s := { s with fcnt := k }) hrun h.obuf_filled hsrc]
  split
  · exact follows_endFail rfl (by rw [hrem, if_pos ‹_›])
  split
  · exact follows_endFail rfl (by rw [hrem, if_neg ‹_›, if_pos ‹_›])
  rw [if_neg ‹_›, if_neg ‹_›] at hrem
  change FollowsLzExpand p kind s (Option.elim (lzCopy p _ _ s.output) _ _)
  cases hcopy : lzCopy p (tokenDistance p (tokenValue p t0 t1)) (tokenLength p (tokenValue p t0 t1)) s.output with
  | none => exact follows_endOverflow rfl (by rw [hrem, hcopy]; rfl)
  | some r =>
    refine .inr ⟨_, rfl, Nat.lt_add_of_pos_right Nat.two_pos, Nat.le_refl _, hsrc, rfl, ?_⟩
    have hrest : s.input.drop (s.src + 2) = rest := drop_src_add hdrop 2
    rw [hrem, hcopy, Option.elim_some, ← hrest]
    exact congrArg (lzLoop p s.lim _ (s.src + 2) k.val s.flg) (State.output_setObuf r s)

end Follows

/-- A pass ends the run as `lz_expand` has it from there, or moves it on by one element. -/
theorem pass_follows (h : s.InvIn p) (hrun : s.run = some kind) :
    FollowsLzExpand p kind s (pass p (execIn p) kind s) := by
  have hsrc : s.src ≤ s.ilen := h.run_src (by simp [hrun])
  have hlen : (s.input.drop s.src).length = s.ilen - s.src := by rw [List.length_drop, h.input_length]
  cases hlim : limitReached s.lim s.olen with
  | true => exact follows_limitReached h hlim
  | false =>
    match hdrop : s.input.drop s.src with
    | [] =>
      rw [hdrop, List.length_nil] at hlen
      exact follows_exhausted h hlim (by omega)
    | t0 :: rest =>
      rw [hdrop, List.length_cons] at hlen
      by_cases hfcnt : s.fcnt.val = 8
      · exact follows_flags h hrun hlim (by omega) hdrop hfcnt
      · have hk : (⟨s.fcnt.val + 1, by omega⟩ : Fin 9).val = s.fcnt.val + 1 := rfl
        cases hsel : selectsRef p s.flg s.fcnt.val with
        | false => exact follows_lit h hrun hlim hk (by omega) hdrop hsel
        | true =>
          cases rest with
          | nil =>
            rw [List.length_nil] at hlen
            exact follows_cut h hlim (by omega) hdrop hfcnt hsel
          | cons t1 rest =>
            rw [List.length_cons] at hlen
            exact follows_ref h hrun hlim hk (by omega) hdrop hsel

/-! ## A whole run -/

/-- Inside a run a step follows `lz_expand`. -/
theorem step_follows (h : s.Inv) (hrun : s.run = some kind) (hreset : NoReset s) :
    FollowsLzExpand sdb kind s (step s) := by
  rw [step_inRun hrun hreset, exec_eq]
  exact pass_follows h hrun

theorem core_run_succ (ht : step s = .next t) (n : Nat) : core.run (n + 1) s = core.run n t := by
  have hstep : core.step s = .next t := ht
  exact (Host.Core.run.eq_def core (n + 1) s).trans (by simp only [hstep])

/-- A run ends, within one step more than there are bytes left, as `lz_expand` has it. -/
theorem run_follows (h : s.Inv) (hrun : s.run = some kind) (hport : s.port = []) :
    ∃ n, n ≤ s.ilen - s.src + 1 ∧ core.run n s = (s.remaining sdb).finish sdb kind s := by
  induction hm : s.ilen - s.src using Nat.strong_induction_on generalizing s with
  | _ m ih =>
    have hreset : NoReset s := fun rest e => by simp [hport] at e
    rcases step_follows h hrun hreset with hend | ⟨t, ht, hmove⟩
    · obtain ⟨t, ht, -⟩ := exists_finish_eq_next (p := sdb) (kind := kind) h.ibuf_filled (s.remaining sdb)
      rw [ht] at hend ⊢
      exact ⟨1, by omega, core_run_succ hend 0⟩
    · have hilen := hmove.ilen_eq
      have hlt := hmove.src_lt
      have hle := hmove.src_le_ilen
      obtain ⟨n, hn, hfinish⟩ := ih (t.ilen - t.src) (by omega) (stepKeepsInvariant s t h ht)
        (hmove.run_eq.trans hrun) (hmove.port_eq.trans hport) rfl
      refine ⟨n + 1, by omega, ?_⟩
      rw [core_run_succ ht, hfinish, hmove.remaining, finish_congr hmove.kept]

/-- The state in which a run at the defaults begins (R111, R112). -/
def State.startedRun (kind : RunKind) (s : State) : State :=
  { s.emptyObuf with
    run := some kind
    src := 0
    fcnt := 8
    flg := Config.freeFlg s.draws
    lim := none
    clen := Config.freeClen s.draws
    cdist := (Config.freeCdist sdb.aw s.draws).toNat
    draws := s.draws + 1 }

theorem startRun_sdb (hf : s.ibuf.Filled s.ilen) : startRun sdb kind s = .next (s.startedRun kind) := by
  rw [startRun, memRead_input hf]
  rfl

theorem State.startedRun_inv (h : s.Inv) (hready : s.err = 0) : (s.startedRun kind).Inv :=
  { h.emptyObuf with
    src_lt := Nat.two_pow_pos _
    lim_lt := fun _ hl => nomatch hl
    cdist_lt := (Config.freeCdist sdb.aw s.draws).isLt
    run_ready := fun _ => hready
    run_src := fun _ => Nat.zero_le _
    run_lim := fun _ => rfl }

/-- At its start a run has the whole of `lz_expand` left to do. -/
theorem remaining_startedRun : (s.startedRun kind).remaining sdb = lzExpand sdb s.input :=
  lzLoop_flg_eight (Config.freeFlg s.draws) 0

/-- The host does not see the inside of a run. -/
theorem viewOf_finish_startedRun (hf : s.ibuf.Filled s.ilen) (result : LzResult) :
    viewOf (result.finish p kind (s.startedRun kind)) = viewOf (result.finish p kind s) := by
  match result, kind with
  | .ok _, .decomp | .ok _, .decompif | .overflow, _ | .fail _ _, .decomp => rfl
  | .fail cause index, .decompif =>
    by_cases hcap : s.ilen ≤ p.ocap
    · simp only [LzResult.finish]
      rw [endFail_decompif_of_le hf hcap, endFail_decompif_of_le (s := s.startedRun .decompif) hf hcap]
      rfl
    · simp only [LzResult.finish]
      rw [endFail_decompif_of_lt (Nat.lt_of_not_le hcap),
        endFail_decompif_of_lt (s := s.startedRun .decompif) (Nat.lt_of_not_le hcap)]
      rfl

/-- The command a run belongs to (R110). -/
theorem exec_command_of_run (hf : s.ibuf.Filled s.ilen) (hready : s.err = 0) :
    exec (match kind with | .decomp => .decomp | .decompif => .decompif) s =
      (lzExpand sdb s.input).finish sdb kind s := by
  cases kind <;> exact expandIn_eq_finish hf hready

end Sys2Proof.Machine

namespace Sys2Proof.Spec

open Sys2Proof.Machine

/-- Settles O9: the branch of the pass for each kind of element, its token's fields at the defaults. -/
theorem stepExecutesTheNextStreamElement : Obligations.StepExecutesTheNextStreamElement := by
  intro s kind hrun hreset _ hlim
  have hlim : limitReached s.lim s.olen = false := by
    cases hl : s.lim with
    | none => rfl
    | some l => simpa [limitReached] using hlim l hl
  rw [step_inRun hrun hreset]
  refine ⟨fun f h8 hsrc hf => ?_, fun k b hk hbit hsrc hb => ?_, fun k t0 t1 hk hbit hsrc h0 h1 => ?_⟩
  · exact pass_flags hlim (by rw [h8]; rfl) hsrc hf
  · exact pass_lit hlim hk (by simpa [selectsRef, flagBit, sdb] using hbit) hsrc hb
  · have hsel : selectsRef sdb s.flg s.fcnt.val = true := by simpa [selectsRef, flagBit, sdb] using hbit
    rw [pass_ref hlim hk hsel hsrc h0 h1, tokenLength_sdb, tokenDistance_sdb]

/-- Settles O10: the end of the input without an exact length, or the exact length, ends the run well. -/
theorem runEndsWellAtElementBoundary : Obligations.RunEndsWellAtElementBoundary := by
  intro s kind hrun hreset hend
  have e : step s = endOk sdb kind s := by
    rw [step_inRun hrun hreset]
    rcases hend with ⟨hlim, hsrc⟩ | hlim
    · exact pass_of_exhausted hlim hsrc
    · exact pass_of_limitReached (by simp [limitReached, hlim])
  rw [e]
  exact endOk_spec sdb kind s

/-- Settles O11: short of the exact length the end of the input is a failure. -/
theorem exhaustedInputBeforeExactLengthFails : Obligations.ExhaustedInputBeforeExactLengthFails := by
  intro s l hrun hreset hl hne hsrc
  have hlim : limitReached s.lim s.olen = false := by simpa [limitReached, hl] using hne
  obtain ⟨t, ht, hkept, hout, hres, herr, herra, herrb, hstatus⟩ := endFail_decomp_spec sdb .truncated s.src s
  have e : step s = .next t := by rw [step_inRun hrun hreset, pass_of_exhausted_some hlim hl hsrc, ht]
  exact ⟨t, e, hkept, herr, herra, herrb, hout, hres, hstatus⟩

/-- Settles O12: a pass ends the run, or moves it on by one element. -/
theorem runAlwaysProgresses : Obligations.RunAlwaysProgresses := by
  intro s t h hrun hreset ht
  obtain ⟨kind, hkind⟩ := Option.ne_none_iff_exists'.mp hrun
  rcases step_follows h hkind hreset with hend | ⟨u, hu, hmove⟩
  · obtain ⟨u, hu, hdone⟩ := exists_finish_eq_next (p := sdb) (kind := kind) h.ibuf_filled (s.remaining sdb)
    obtain rfl : t = u := by simpa [ht, hu] using hend
    exact .inl hdone
  · obtain rfl : t = u := by simpa [ht] using hu
    exact .inr ⟨hmove.run_eq, hmove.src_lt, hmove.src_le, hmove.ilen_eq ▸ hmove.src_le_ilen⟩

/-- Settles O42: from its start the run ends as `lz_expand` of the whole input has it, and that is the command. -/
theorem runByElementsIsTheCommand : Obligations.RunByElementsIsTheCommand := by
  intro s kind h hready _ hport
  have hf := h.ibuf_filled
  obtain ⟨n, hn, hend⟩ := run_follows (State.startedRun_inv (kind := kind) h hready) rfl hport
  rw [remaining_startedRun] at hend
  obtain ⟨u, hu, hdone⟩ := exists_finish_eq_next (p := sdb) (kind := kind) (s := s.startedRun kind) hf (lzExpand sdb s.input)
  obtain ⟨t, ht, -⟩ := exists_finish_eq_next (p := sdb) (kind := kind) hf (lzExpand sdb s.input)
  have hview := viewOf_finish_startedRun (p := sdb) (kind := kind) hf (lzExpand sdb s.input)
  rw [hu, ht] at hview
  exact ⟨s.startedRun kind, n, t, u, startRun_sdb hf, hn, hend.trans hu, (exec_command_of_run hf hready).trans ht, hdone,
    Host.Outcome.next.inj hview⟩

end Sys2Proof.Spec
end

section
/-! SUPPORT. The checksum unit (44_crc32.md): the checksum bit by bit, what never leaves it the same, and what CRCRD and CRCVF
make of the state. -/

namespace Sys2Proof.Machine

open Sys2Proof.Spec

variable {p : Config.Params} {s : State} {k : Nat}

/-! ## The checksum bit by bit (R141) -/

/-- A message word XORed into the register before a shift is its top bit fed in serially, the rest of it standing one place
higher: a shift is linear but for the bit it shifts out. -/
theorem crcShift_xor (p : Config.Params) (c x : Word) :
    crcShift p (c ^^^ x) = crcBit p.crcPoly c x.msb ^^^ (x <<< 1) := by
  have hmsb : (c ^^^ x).msb = (c.msb != x.msb) := BitVec.msb_xor
  rw [crcShift, crcBit, hmsb, BitVec.shiftLeft_xor_distrib]
  split
  · rw [BitVec.xor_assoc, BitVec.xor_comm (x <<< 1), ← BitVec.xor_assoc]
  · rfl

/-- So `k` shifts take in the top `k` bits of a message word, most significant first. -/
theorem crcShifts_xor (p : Config.Params) (k : Nat) (c x : Word) :
    crcShifts p k (c ^^^ x) = ((List.range k).map x.getMsbD).foldl (crcBit p.crcPoly) c ^^^ (x <<< k) := by
  induction k generalizing c x with
  | zero => simp [crcShifts]
  | succ k ih =>
    have htail : (x <<< 1).getMsbD = x.getMsbD ∘ Nat.succ := funext fun _ => BitVec.getMsbD_shiftLeft x 1
    rw [crcShifts, crcShift_xor, ih, htail, ← BitVec.shiftLeft_add, Nat.add_comm 1 k, List.range_succ_eq_map, List.map_cons,
      List.map_map, List.foldl_cons]
    rfl

/-- The top 8 bits of the word a byte makes are the bits of the byte. -/
theorem map_getMsbD_topByte (b : Byte) : (List.range 8).map (b.setWidth 32 <<< 24 : Word).getMsbD = bitsMsbFirst b := by
  simp [List.range_succ, bitsMsbFirst, BitVec.getMsbD]

theorem crcByte_eq_bits (hp : p.crcRefIn = false) (c : Word) (b : Byte) :
    crcByte p c b = (bitsMsbFirst b).foldl (crcBit p.crcPoly) c := by
  have hout : (b.setWidth 32 <<< 24 : Word) <<< 8 = 0#32 := by
    rw [← BitVec.shiftLeft_add, BitVec.shiftLeft_eq_zero le_rfl]
  rw [crcByte, if_neg (by simp [hp]), crcShifts_xor, map_getMsbD_topByte, hout, BitVec.xor_zero]

theorem crcFold_eq_bits (hp : p.crcRefIn = false) (c : Word) (bytes : List Byte) :
    crcFold p c bytes = (bytes.flatMap bitsMsbFirst).foldl (crcBit p.crcPoly) c := by
  rw [crcFold, List.foldl_flatMap, funext₂ (crcByte_eq_bits hp)]

/-- At the defaults the checksum is the register as it stands after the last byte. -/
theorem crc32v_sdb (bytes : List Byte) : crc32v sdb bytes = crcFold sdb sdb.crcInit bytes := BitVec.xor_zero

/-! ## The register tells what led to it (R144) -/

/-- The constant term of the polynomial puts the bit shifted out in the place that is free after the shift. -/
theorem getLsbD_zero_crcShift (hp : p.crcPoly.getLsbD 0 = true) (c : Word) : (crcShift p c).getLsbD 0 = c.msb := by
  unfold crcShift
  split
  · next hc => simp [hp, hc]
  · next hc => simp [hc]

theorem crcShift_injective (hp : p.crcPoly.getLsbD 0 = true) : Function.Injective (crcShift p) := by
  intro c d h
  have hmsb : c.msb = d.msb := by rw [← getLsbD_zero_crcShift hp, h, getLsbD_zero_crcShift hp]
  have hshift : c <<< 1 = d <<< 1 := by
    rw [crcShift, crcShift, hmsb] at h
    split at h
    · exact (BitVec.xor_left_inj _).mp h
    · exact h
  refine BitVec.eq_of_getMsbD_eq fun i _ => ?_
  cases i with
  | zero => exact hmsb
  | succ i => rw [← BitVec.getMsbD_shiftLeft, hshift, BitVec.getMsbD_shiftLeft]

theorem crcShifts_injective (hp : p.crcPoly.getLsbD 0 = true) (k : Nat) : Function.Injective (crcShifts p k) := by
  induction k with
  | zero => exact Function.injective_id
  | succ k ih => exact ih.comp (crcShift_injective hp)

/-- Two registers differ after the same byte. -/
theorem crcByte_injective_left (hp : p.crcPoly.getLsbD 0 = true) (b : Byte) : Function.Injective (crcByte p · b) :=
  fun _ _ h => (BitVec.xor_left_inj _).mp (crcShifts_injective hp 8 h)

/-- One register differs after two bytes. -/
theorem crcByte_injective_right (hp : p.crcPoly.getLsbD 0 = true) (href : p.crcRefIn = false) (c : Word) :
    Function.Injective (crcByte p c) := by
  intro b b' h
  simp only [crcByte, href, Bool.false_eq_true, if_false] at h
  have htop := (BitVec.xor_right_inj _).mp (crcShifts_injective hp 8 h)
  bv_omega

theorem crcFold_injective (hp : p.crcPoly.getLsbD 0 = true) (bytes : List Byte) :
    Function.Injective (crcFold p · bytes) := by
  induction bytes with
  | nil => exact Function.injective_id
  | cons b bytes ih => exact ih.comp (crcByte_injective_left hp b)

/-- Another byte at one index leads to another register: at that byte they part, and the bytes after it keep them apart. -/
theorem crcFold_set_ne (hp : p.crcPoly.getLsbD 0 = true) (href : p.crcRefIn = false) {bytes : List Byte} {i : Nat}
    {b b' : Byte} (hb : bytes[i]? = some b) (hne : b' ≠ b) (c : Word) : crcFold p c (bytes.set i b') ≠ crcFold p c bytes := by
  induction bytes generalizing i c with
  | nil => cases hb
  | cons a bytes ih =>
    cases i with
    | zero =>
      obtain rfl : a = b := Option.some.inj hb
      exact (crcFold_injective hp bytes).ne ((crcByte_injective_right hp href c).ne hne)
    | succ i => exact ih hb (crcByte p c a)

theorem flipBit_ne (b : Byte) (hk : k < 8) : b ^^^ (1 <<< k) ≠ b := by
  intro h
  have hflip : (BitVec.ofNat 8 (1 <<< k)).getLsbD k = true := by
    rw [BitVec.getLsbD_ofNat, Nat.one_shiftLeft, Nat.testBit_two_pow_self, decide_eq_true hk, Bool.and_self]
  have hbit : (b ^^^ BitVec.ofNat 8 (1 <<< k)).getLsbD k = b.getLsbD k := congrArg (BitVec.getLsbD · k) h
  simp [BitVec.getLsbD_xor, hflip, -BitVec.getLsbD_eq_getElem] at hbit

/-! ## CRCRD and CRCVF (R142, R143) -/

/-- A read that fits leaves the state of RDB but for the checksum of its bytes in `CRCACC` and `RES`. -/
theorem crcrdIn_fits (p : Config.Params) (hf : s.ibuf.Filled s.ilen) (hready : s.err = 0) (hfit : s.pos + k ≤ s.ilen) :
    crcrdIn p k s = .next { s.afterRead k with
      crcacc := crc32v p (s.bytesAtCursor k)
      res := crc32v p (s.bytesAtCursor k) } := by
  have hlen : ((s.input.drop s.pos).take k).length = k := State.bytesAtCursor_length hf hfit
  rw [crcrdIn, ifReady_of_ready hready, readExact_fits hf hfit, deliverBytes, hlen]
  rfl

theorem crcrdIn_short (p : Config.Params) (hready : s.err = 0) (hshort : s.ilen < s.pos + k) :
    crcrdIn p k s = .next (s.enterError .unexpectedEof s.pos k) := by
  rw [crcrdIn, ifReady_of_ready hready, readExact_short hshort]

theorem execCrcvf_of_eq {x : Word} (hready : s.err = 0) (hx : s.crcacc = x) :
    execCrcvf x s = .next { s with status := some (.ok .unit) } := by
  rw [execCrcvf, ifReady_of_ready hready, if_pos hx, succeed]

theorem execCrcvf_of_ne {x : Word} (hready : s.err = 0) (hx : s.crcacc ≠ x) :
    execCrcvf x s = .next (s.enterError .checksumMismatched s.crcacc.toNat x.toNat) := by
  rw [execCrcvf, ifReady_of_ready hready, if_neg hx, raise]

end Sys2Proof.Machine

namespace Sys2Proof.Spec

open Sys2Proof.Machine

/-- Settles O36: CRCRD is an exact read of the bytes at the cursor, summed from the initial value. -/
theorem crcrdReadsAndSums : Obligations.CrcrdReadsAndSums := fun _ _ h hready =>
  ⟨fun hfit => ⟨_, State.bytesAtCursor_spec h.ibuf_filled hfit, crcrdIn_fits sdb h.ibuf_filled hready hfit⟩,
    crcrdIn_short sdb hready⟩

/-- Settles O37: the two branches of the comparison. -/
theorem crcvfVerifiesTheAccumulator : Obligations.CrcvfVerifiesTheAccumulator := fun _ _ hready =>
  ⟨execCrcvf_of_eq hready, execCrcvf_of_ne hready⟩

/-- Settles O38: the shifts of a byte take in its bits one by one. -/
theorem crcIsBitSerialMsbFirst : Obligations.CrcIsBitSerialMsbFirst := fun bytes =>
  (crc32v_sdb bytes).trans (crcFold_eq_bits rfl _ bytes)

/-- Settles O39: the default polynomial has a constant term, so the changed byte changes the register, and nothing after it
undoes that. -/
theorem crcDetectsEverySingleBitFlip : Obligations.CrcDetectsEverySingleBitFlip := by
  intro bytes i k b hk hb
  rw [crc32v_sdb, crc32v_sdb]
  exact crcFold_set_ne (by decide) rfl hb (flipBit_ne b hk) _

end Sys2Proof.Spec
end

section
/-! SUPPORT. Control (45_control.md): a step is the command the host presents (R150), and what LOAD and ADOPT make of the state
(R151, R152). -/

namespace Sys2Proof.Machine

variable {p : Config.Params} {s : State}

/-! ## The presented command (R150) -/

/-- Outside a run the command at the head of the port is taken from it and executed (R150). -/
theorem step_of_legalCommand {word : Nat} {data : List Byte} {rest : List HostInput} {i : Instr} (hrun : s.run = none)
    (hport : s.port = .command word data :: rest) (hi : decode (.command word data) = .ok i) :
    step s = exec i { s with port := rest } := by
  rw [step_of_command hport hrun, stepIn_command (s := { s with port := rest }) hrun, issue_legal hi, exec_eq_execIn]

/-! ## LOAD (R151) -/

theorem loadIn_overflow {data : List Byte} (hcap : p.icap < data.length) :
    loadIn p data s = .next ((s.clearError.newInput p []).enterError .capacityExceeded 0 p.icap) := if_pos hcap

/-! ## ADOPT (R152) -/

/-- `MemRead` of the whole output (R41). -/
theorem memRead_output (hf : s.obuf.Filled s.olen) (act : List Byte → Outcome) :
    memRead .obuf 0 s.olen s act = act s.output := by
  rw [memRead_obuf hf 0 _ (by omega), List.drop_zero, List.take_of_length_le (State.output_length_of_filled hf).le]

/-- A fresh decode call over the output has the output buffer itself as its input buffer. -/
theorem State.newInput_output (hf : s.obuf.Filled s.olen) :
    s.newInput p s.output =
      { s with ibuf := s.obuf, ilen := s.olen, pos := 0, obuf := [], olen := 0, crcacc := p.crcInit } := by
  have hobuf : Memory.ofBytes s.output = s.obuf := hf.eq_ofBytes.symm
  rw [State.newInput, hobuf, State.output_length_of_filled hf]

/-- An output that fits the input buffer becomes the input of a fresh decode call. -/
theorem adoptIn_fits (hf : s.obuf.Filled s.olen) (hready : s.err = 0) (hcap : s.olen ≤ p.icap) :
    adoptIn p s = .next { s.newInput p s.output with status := some (.ok .unit) } := by
  rw [adoptIn, ifReady_of_ready hready, if_neg (Nat.not_lt.mpr hcap), memRead_output hf, succeed]

theorem adoptIn_overflow (hready : s.err = 0) (hcap : p.icap < s.olen) :
    adoptIn p s = .next (s.enterError .capacityExceeded 0 p.icap) := by
  rw [adoptIn, ifReady_of_ready hready, if_pos hcap, raise]

end Sys2Proof.Machine

namespace Sys2Proof.Spec

open Sys2Proof.Machine

/-- Settles O25: the input buffer of the fresh decode call is the former output buffer. The default capacities are equal, so
every output fits. -/
theorem adoptMakesTheOutputTheInput : Obligations.AdoptMakesTheOutputTheInput := by
  refine ⟨fun s h hready => ⟨s.obuf, ?_, fun _ => rfl⟩, fun _ _ => adoptIn_overflow⟩
  have hadopt : exec .adopt s = _ := adoptIn_fits (p := sdb) h.obuf_filled hready h.olen_le
  rw [hadopt, State.newInput_output h.obuf_filled]
  rfl

/-- Settles O8: the command is taken from the port, decoded and executed. -/
theorem stepExecutesThePresentedCommand : Obligations.StepExecutesThePresentedCommand :=
  fun _ _ _ _ _ => step_of_legalCommand

/-- Settles O24: the two branches of the capacity test, over a cleared error. -/
theorem loadStartsANewDecodeCall : Obligations.LoadStartsANewDecodeCall :=
  ⟨fun _ data hlen => ⟨Memory.ofBytes data, execLoad_fits (Nat.le_sub_one_of_lt hlen), Memory.readByte_ofBytes data⟩,
    fun _ _ _ => loadIn_overflow⟩

end Sys2Proof.Spec
end

section
/-! SUPPORT. The host sequences (46_host_sequences.md): what a sequence that ends well answers, said command by command;
the stroke decoder (R170), the container decode (R161 to R165) and the grouping of a name (R166). -/

namespace Sys2Proof.Machine

open Sys2Proof.Spec

variable {p : Config.Params} {s t : State} {i : Instr}

/-! ## Sequences that end well (R160) -/

/-- After a part that ends well a sequence goes on with its answer, in its state. -/
theorem hostBind_ok {α β : Type} {m : HostM α} {v : α} (h : m s = (.ok v, t)) (f : α → HostM β) :
    (m >>= f) s = f v t := by
  simp only [Bind.bind, ExceptT.bind, ExceptT.mk, StateT.bind, h, ExceptT.bindCont]

/-- From every state with `P` the sequence answers `v`, without an error, and ends in a state with `Q`. -/
def Yields {α : Type} (P : State → Prop) (m : HostM α) (v : α) (Q : State → Prop) : Prop :=
  ∀ s, P s → ∃ t, m s = (.ok v, t) ∧ Q t

namespace Yields

variable {α β : Type} {P P' Q R : State → Prop} {m : HostM α} {f : α → HostM β} {v : α} {w : β}

theorem pure (v : α) : Yields P (Pure.pure v) v P := fun s hs => ⟨s, rfl, hs⟩

theorem bind (hm : Yields P m v Q) (hf : Yields Q (f v) w R) : Yields P (m >>= f) w R := by
  intro s hs
  obtain ⟨t, hmt, ht⟩ := hm s hs
  obtain ⟨u, hfu, hu⟩ := hf t ht
  exact ⟨u, (hostBind_ok hmt f).trans hfu, hu⟩

theorem weaken (h : Yields P m v Q) (hP : ∀ s, P' s → P s) : Yields P' m v Q := fun s hs => h s (hP s hs)

theorem hostRead {g : State → α} (h : ∀ s, P s → g s = v) : Yields P (hostRead g) v P :=
  fun s hs => ⟨s, by rw [Machine.hostRead, h s hs], hs⟩

end Yields

/-- A command that ends well hands its result to the host. -/
theorem issueCommand_eq {r : Result} (hexec : execIn p i s = .next t) (hok : t.status = some (.ok r)) :
    issueCommand p i s = (.ok r, t) := by
  simp only [issueCommand, hexec, hok]

theorem issueUnit_eq {r : Result} (hexec : execIn p i s = .next t) (hok : t.status = some (.ok r)) :
    issueUnit p i s = (.ok (), t) :=
  hostBind_ok (issueCommand_eq hexec hok) _

theorem issueWord_eq {v : Word} (hexec : execIn p i s = .next t) (hok : t.status = some (.ok (.word v))) :
    issueWord p i s = (.ok v, t) :=
  hostBind_ok (issueCommand_eq hexec hok) _

theorem issueBytes_eq {bytes : List Byte} (hexec : execIn p i s = .next t) (hok : t.status = some (.ok (.bytes bytes))) :
    issueBytes p i s = (.ok bytes, t) :=
  hostBind_ok (issueCommand_eq hexec hok) _

/-! ## The stroke decoder (R170) -/

/-- `t` is `s` but for `RES` and the status. -/
def DiffersInRes (s t : State) : Prop := ∃ v st, t = { s with res := v, status := st }

/-- The low bits of a byte, from bit 0 up to bit `hi`, as PKBITS hands them to the host. -/
theorem yields_pkbits_zero (hready : s.err = 0) (byte : Byte) (hi : BitVec 3) :
    Yields (DiffersInRes s) (issueWord sdb (.pkbits byte 0 hi)) ((byte.extractLsb' 0 (hi.toNat + 1)).setWidth 32)
      (DiffersInRes s) := by
  rintro _ ⟨v, st, rfl⟩
  have hle : (0 : BitVec 3) ≤ hi := Nat.zero_le hi.toNat
  have hpick : BitVec.ofNat 32 (pickRange sdb byte 0 hi) = (byte.extractLsb' 0 (hi.toNat + 1)).setWidth 32 := by
    apply BitVec.eq_of_toNat_eq
    rw [pickRange_zero_of_lsb0 rfl]
    simp
  exact ⟨_, issueWord_eq (pkbitsIn_of_le hready hle) (by rw [hpick]), _, _, rfl⟩

/-- A bit of a byte, as PKBIT hands it to the host. -/
theorem yields_pkbit (hready : s.err = 0) (byte : Byte) (k : BitVec 3) :
    Yields (DiffersInRes s) (issueWord sdb (.pkbit byte k)) (if byte.getLsbD k.toNat then 1 else 0) (DiffersInRes s) := by
  rintro _ ⟨v, st, rfl⟩
  exact ⟨_, issueWord_eq (pkbitIn_of_ready hready) (by rw [ofNat_pickBit, phys_of_lsb0 rfl]), _, _, rfl⟩

/-- Two nibbles joined by the host stand side by side. -/
theorem joinNibbles_setWidth (high low : BitVec 4) :
    joinNibbles (high.setWidth 32) (low.setWidth 32) = (high ++ low : BitVec 8) := by
  revert high low
  decide +kernel

/-- A bit handed over as a word is read back by comparing the word with 1. -/
theorem bitWord_beq_one (b : Bool) : ((if b then 1 else 0 : Word) == 1) = b := by
  cases b with
  | true => rfl
  | false => rfl

/-- The eight extractions of R170, in order, and the host's arithmetic on their results. -/
theorem yields_decodeStroke (hready : s.err = 0) (b0 b1 b2 b3 : Byte) :
    Yields (DiffersInRes s) (decodeStroke sdb b0 b1 b2 b3)
      { x := (b2.extractLsb' 0 4 ++ b1.extractLsb' 0 4 : BitVec 8)
        y := (b1.extractLsb' 0 4 ++ b0.extractLsb' 0 4 : BitVec 8)
        draw := b2.getLsbD 6
        color := b3.extractLsb' 0 3
        effect3d := b3.getLsbD 5
        bold := b3.getLsbD 4 } (DiffersInRes s) := by
  have hcolor : ((b3.extractLsb' 0 3).setWidth 32).setWidth 3 = b3.extractLsb' 0 3 := by simp
  rw [← joinNibbles_setWidth, ← joinNibbles_setWidth, ← bitWord_beq_one (b2.getLsbD 6),
    ← bitWord_beq_one (b3.getLsbD 5), ← bitWord_beq_one (b3.getLsbD 4), ← hcolor]
  exact
    (yields_pkbits_zero hready b2 3).bind <| (yields_pkbits_zero hready b1 3).bind <|
    (yields_pkbits_zero hready b1 3).bind <| (yields_pkbits_zero hready b0 3).bind <|
    (yields_pkbit hready b2 6).bind <| (yields_pkbits_zero hready b3 2).bind <|
    (yields_pkbit hready b3 5).bind <| (yields_pkbit hready b3 4).bind <| .pure _

/-! ## The input buffer in front of the host -/

/-- The block is not faulted and its input is `c`. -/
structure State.Holds (c : List Byte) (s : State) : Prop where
  filled : s.ibuf.Filled s.ilen
  input_eq : s.input = c
  ready : s.err = 0

/-- The cursor stands before the bytes `rest` of the input `c`. -/
structure State.Facing (c rest : List Byte) (s : State) : Prop extends s.Holds c where
  pos_le : s.pos ≤ c.length
  drop_pos : c.drop s.pos = rest

section
variable {c front rest : List Byte}

theorem State.Holds.ilen_eq (h : s.Holds c) : s.ilen = c.length := by
  rw [← h.input_eq, State.input_length_of_filled h.filled]

namespace State.Facing

theorem fits (h : s.Facing c (front ++ rest)) : s.pos + front.length ≤ c.length := by
  have hlen := congrArg List.length h.drop_pos
  have hpos := h.pos_le
  rw [List.length_drop, List.length_append] at hlen
  omega

theorem fits_ilen (h : s.Facing c (front ++ rest)) : s.pos + front.length ≤ s.ilen := h.ilen_eq ▸ h.fits

theorem bytesAtCursor_eq (h : s.Facing c (front ++ rest)) : s.bytesAtCursor front.length = front := by
  rw [State.bytesAtCursor, h.input_eq, h.drop_pos, List.take_left]

/-- Behind the bytes just read stands the rest. -/
theorem advance (h : s.Facing c (front ++ rest)) :
    ({ s with pos := s.pos + front.length } : State).Facing c rest :=
  { h with
    pos_le := h.fits
    drop_pos := by rw [← List.drop_drop, h.drop_pos, List.drop_left] }

end State.Facing

/-! ## The commands of the container decode -/

/-- After LOAD the cursor stands before the whole input (R151). -/
theorem yields_load (hc : c.length < 2 ^ 32) : Yields (fun _ => True) (issueUnit sdb (.load c)) () (State.Facing c c) :=
  fun s _ => ⟨s.afterLoad c, issueUnit_eq (execLoad_fits (Nat.le_sub_one_of_lt hc)) rfl,
    { filled := s.afterLoad_filled c, input_eq := s.afterLoad_input c, ready := rfl, pos_le := Nat.zero_le _
      drop_pos := rfl }⟩

/-- SKA to the end of `front` (R96). -/
theorem yields_ska (hc : c = front ++ rest) {n : Nat} (hn : n = front.length) :
    Yields (State.Holds c) (issueUnit sdb (.ska n)) () (State.Facing c rest) := by
  intro s h
  have hle : n ≤ c.length := by rw [hc, hn, List.length_append]; omega
  exact ⟨_, issueUnit_eq (execSka_inside h.ready (h.ilen_eq ▸ hle)) rfl,
    { h with
      pos_le := hle
      drop_pos := by rw [hc, hn]; exact List.drop_left }⟩

/-- SKR over `front` (R97). -/
theorem yields_skr {d : Word} (hd : d.toInt = front.length) :
    Yields (State.Facing c (front ++ rest)) (issueUnit sdb (.skr d.toNat)) () (State.Facing c rest) :=
  fun s h => ⟨_, issueUnit_eq (execSkr_inside h.ready (n := s.pos + front.length) (by omega) h.fits_ilen) rfl,
    { h.advance with }⟩

/-- The four bytes of a word, read back (R93). -/
theorem u32le_leBytes (n : Nat) : u32le (leBytes n) = BitVec.ofNat 32 n := by
  apply BitVec.eq_of_toNat_eq
  simp only [leBytes, u32le, List.foldr_cons, List.foldr_nil, BitVec.toNat_ofNat]
  omega

theorem yields_rdu32 {n : Nat} {w : Word} (hw : BitVec.ofNat 32 n = w) :
    Yields (State.Facing c (leBytes n ++ rest)) (issueWord sdb .rdu32) w (State.Facing c rest) := by
  intro s h
  have hword : u32le (s.bytesAtCursor 4) = w := by
    rw [← hw, ← u32le_leBytes]
    exact congrArg u32le h.bytesAtCursor_eq
  exact ⟨_, issueWord_eq (execRdu32_fits h.filled h.ready h.fits_ilen) (by rw [hword]), { h.advance with }⟩

/-- The first null of a padded name is where its padding begins (R161, R94). -/
theorem firstNull_padName {name : List Byte} (hnull : (0 : Byte) ∉ name) : firstNull (padName name) = name.length := by
  have hname : name.findIdx (· == 0) = name.length :=
    List.findIdx_eq_length.mpr fun b hb => beq_eq_false_iff_ne.mpr (ne_of_mem_of_not_mem hb hnull)
  have hpad : (List.replicate (8 - name.length) (0 : Byte)).findIdx (· == 0) = 0 := by
    cases 8 - name.length with
    | zero => rfl
    | succ k => rfl
  rw [firstNull, padName, List.findIdx_append, hname, if_neg (Nat.lt_irrefl _), hpad, Nat.zero_add]

theorem length_padName {name : List Byte} (hlen : name.length ≤ 8) : (padName name).length = 8 := by
  rw [padName, List.length_append, List.length_replicate]
  omega

/-- RDSTR 8 drops the padding of a name (R94). -/
theorem yields_rdname {name : List Byte} (hlen : name.length ≤ 8) (hnull : (0 : Byte) ∉ name)
    (hvalid : utf8Valid name = true) :
    Yields (State.Facing c (padName name ++ rest)) (issueBytes sdb (.rdstr 8)) name (State.Facing c rest) := by
  intro s h
  have hfits := h.fits_ilen
  have hbytes := h.bytesAtCursor_eq
  have hadvance := h.advance
  rw [length_padName hlen] at hfits hbytes hadvance
  have htext : (padName name).take name.length = name := List.take_left
  have hexec := rdstrIn_fits sdb h.filled h.ready hfits (by rw [hbytes, firstNull_padName hnull])
  have htextValid : sdb.textValid name = true := hvalid
  rw [hbytes, htext, if_pos htextValid] at hexec
  exact ⟨_, issueBytes_eq hexec rfl, { hadvance with }⟩

/-- CRCRD of the bytes `front`, whose sum it leaves in `CRCACC` (R142). -/
theorem yields_crcrd {k : Nat} (hk : k = front.length) :
    Yields (State.Facing c (front ++ rest)) (issueBytes sdb (.crcrd k)) front
      (fun t => t.Holds c ∧ t.crcacc = crc32v sdb front) := by
  subst hk
  intro s h
  have hexec := crcrdIn_fits sdb h.filled h.ready h.fits_ilen
  rw [h.bytesAtCursor_eq] at hexec
  exact ⟨_, issueBytes_eq hexec (congrArg (fun bytes => some (Status.ok (.bytes bytes))) h.bytesAtCursor_eq),
    { h.toHolds with }, rfl⟩

/-- CRCVF of the sum in `CRCACC` (R143). -/
theorem yields_crcvf (x : Word) :
    Yields (fun t => t.Holds c ∧ t.crcacc = x) (issueUnit sdb (.crcvf x)) () (State.Holds c) :=
  fun _ ⟨h, hx⟩ => ⟨_, issueUnit_eq (execCrcvf_of_eq h.ready hx) rfl, { h with }⟩

end

/-! ## The steps of the container decode -/

section
variable {c rest : List Byte} {blocks : List (List Byte × List Byte)}

/-- A block whose name a header can hold and give back (R161, R94). -/
def NameFits (b : List Byte × List Byte) : Prop := b.1.length ≤ 8 ∧ (0 : Byte) ∉ b.1 ∧ utf8Valid b.1 = true

/-- The header of a block whose payload stands at `offset` (R161). -/
def headerOf (offset : Nat) (b : List Byte × List Byte) : BlockHeader :=
  ⟨BitVec.ofNat 32 offset, BitVec.ofNat 32 b.2.length, crc32v sdb b.2, b.1⟩

/-- The headers of blocks whose payloads lie one after the other from `offset` on (R161). -/
def headersOf (offset : Nat) : List (List Byte × List Byte) → List BlockHeader
  | [] => []
  | b :: rest => headerOf offset b :: headersOf (offset + b.2.length) rest

/-- A buffer with the tag is opened as it is (R162). -/
theorem yields_openContainer (hc : c.length < 2 ^ 32) (hmagic : c = sdb.magic ++ rest) :
    Yields (fun _ => True) (openContainer sdb c) () (State.Facing c c) := by
  have htag : ∀ t : State, t.Facing c c → hasMagic sdb t = true := by
    intro t h
    have hfour : 4 ≤ t.ilen := by rw [h.ilen_eq, hmagic]; exact Nat.le_add_left 4 rest.length
    have hread : t.ibuf.read 0 4 = some sdb.magic := by
      rw [h.filled.read 0 4 (by omega)]
      change some ((t.input.drop 0).take 4) = _
      rw [h.input_eq, hmagic]
      rfl
    simp only [hasMagic, hfour, hread, decide_true, beq_self_eq_true, Bool.and_self]
  exact (yields_load hc).bind <| (Yields.hostRead htag).bind <| .pure ()

/-- One header gives back the fields it was built from (R163). -/
theorem yields_readHeader (offset : Nat) {b : List Byte × List Byte} (hb : NameFits b) :
    Yields (State.Facing c (leBytes offset ++ (leBytes b.2.length ++ (leBytes (crc32v sdb b.2).toNat ++
      (padName b.1 ++ rest))))) (readHeader sdb) (headerOf offset b) (State.Facing c rest) := by
  obtain ⟨hlen, hnull, hvalid⟩ := hb
  have hsum : BitVec.ofNat 32 (crc32v sdb b.2).toNat = crc32v sdb b.2 := by simp
  exact (yields_rdu32 rfl).bind <| (yields_rdu32 rfl).bind <| (yields_rdu32 hsum).bind <|
    (yields_rdname hlen hnull hvalid).bind <| .pure _

theorem yields_readHeaders (hblocks : ∀ b ∈ blocks, NameFits b) (offset : Nat) {n : Nat} (hn : n = blocks.length) :
    Yields (State.Facing c (buildHeaders offset blocks ++ rest)) (readHeaders sdb n) (headersOf offset blocks)
      (State.Facing c rest) := by
  subst hn
  induction blocks generalizing offset with
  | nil => exact .pure []
  | cons b blocks ih =>
    obtain ⟨hb, hrest⟩ := List.forall_mem_cons.mp hblocks
    simp only [buildHeaders, List.append_assoc]
    exact (yields_readHeader offset hb).bind <| (ih hrest _).bind <| .pure _

/-- One payload, sought at its offset, read and verified (R164). -/
theorem yields_readPayload {front : List Byte} (b : List Byte × List Byte) (hc : c = front ++ (b.2 ++ rest))
    (hlen : c.length < 2 ^ 32) :
    Yields (State.Holds c) (readPayload sdb (headerOf front.length b)) b.2 (State.Holds c) := by
  have hsplit := congrArg List.length hc
  rw [List.length_append, List.length_append] at hsplit
  have hoffset : (headerOf front.length b).offset.toNat = front.length := Nat.mod_eq_of_lt (by omega)
  have hsize : (headerOf front.length b).size.toNat = b.2.length := Nat.mod_eq_of_lt (by omega)
  exact (yields_ska hc hoffset).bind <| (yields_crcrd hsize).bind <| (yields_crcvf _).bind <| .pure _

theorem yields_readPayloads {front : List Byte} (hc : c = front ++ (blocks.flatMap Prod.snd ++ rest))
    (hlen : c.length < 2 ^ 32) :
    Yields (State.Holds c) (readPayloads sdb (headersOf front.length blocks)) blocks (State.Holds c) := by
  induction blocks generalizing front with
  | nil => exact .pure []
  | cons b blocks ih =>
    rw [List.flatMap_cons, List.append_assoc] at hc
    have hrest := ih (front := front ++ b.2) (by rw [hc, List.append_assoc])
    rw [List.length_append] at hrest
    exact (yields_readPayload b hc hlen).bind <| hrest.bind <| .pure _

theorem length_buildHeaders (hblocks : ∀ b ∈ blocks, NameFits b) (offset : Nat) :
    (buildHeaders offset blocks).length = 20 * blocks.length := by
  induction blocks generalizing offset with
  | nil => rfl
  | cons b blocks ih =>
    obtain ⟨⟨hb, -⟩, hrest⟩ := List.forall_mem_cons.mp hblocks
    simp only [buildHeaders, leBytes, List.length_append, List.length_cons, List.length_nil, length_padName hb, ih hrest]
    omega

/-- What stands before the payloads of a container built by hand (R161). -/
def containerFront (blocks : List (List Byte × List Byte)) : List Byte :=
  sdb.magic ++ (leBytes blocks.length ++ (List.replicate 0x38 0 ++ buildHeaders (0x40 + 20 * blocks.length) blocks))

theorem buildContainer_eq (blocks : List (List Byte × List Byte)) :
    buildContainer blocks = containerFront blocks ++ blocks.flatMap Prod.snd := by
  simp only [buildContainer, containerFront, List.append_assoc]
  rfl

theorem length_containerFront (hblocks : ∀ b ∈ blocks, NameFits b) :
    (containerFront blocks).length = 0x40 + 20 * blocks.length := by
  simp only [containerFront, List.length_append, length_buildHeaders hblocks, List.length_replicate]
  change 4 + (4 + (0x38 + 20 * blocks.length)) = _
  omega

/-- The container decode of a container built by hand, step by step (R162 to R165). -/
theorem yields_decodeContainer (hblocks : ∀ b ∈ blocks, NameFits b) (hlen : (buildContainer blocks).length < 2 ^ 32) :
    Yields (fun _ => True) (decodeContainer sdb (buildContainer blocks)) blocks (State.Holds (buildContainer blocks)) := by
  have hfront := length_containerFront hblocks
  have hc := buildContainer_eq blocks
  have hcount : (BitVec.ofNat 32 blocks.length).toNat = blocks.length := by
    have hsum := congrArg List.length hc
    rw [List.length_append, hfront] at hsum
    exact Nat.mod_eq_of_lt (by omega)
  have hpayloads : Yields (State.Holds (buildContainer blocks))
      (readPayloads sdb (headersOf (0x40 + 20 * blocks.length) blocks)) blocks (State.Holds (buildContainer blocks)) :=
    hfront ▸ yields_readPayloads (rest := []) (by rw [List.append_nil, hc]) hlen
  simp only [containerFront, List.append_assoc] at hc
  exact (yields_openContainer hlen hc).bind <|
    ((yields_ska (front := []) hc rfl).weaken fun _ h => h.toHolds).bind <|
    (yields_skr (front := sdb.magic) (d := 4) rfl).bind <| (yields_rdu32 rfl).bind <|
    (yields_skr (front := List.replicate 0x38 0) (d := 0x38) rfl).bind <|
    (yields_readHeaders hblocks _ hcount).bind <| hpayloads.weaken fun _ h => h.toHolds

end

end Sys2Proof.Machine

namespace Sys2Proof.Spec

open Sys2Proof.Machine

/-- Settles O55: each extraction answers bits of its byte and writes `RES` alone. -/
theorem strokeDecodesItsFourBytes : Obligations.StrokeDecodesItsFourBytes := by
  intro b0 b1 b2 b3 s hready
  obtain ⟨_, hrun, v, st, rfl⟩ := yields_decodeStroke hready b0 b1 b2 b3 s ⟨s.res, s.status, rfl⟩
  exact ⟨v, st, hrun⟩

/-- Settles O56: what each step of the decode reads is what the container was built from. -/
theorem containerRoundTrips : Obligations.ContainerRoundTrips := by
  intro blocks s hblocks hlen
  obtain ⟨t, hrun, -⟩ := yields_decodeContainer hblocks hlen s trivial
  exact congrArg Prod.fst hrun

/-- Settles O57: the filter of the name goes through the blocks in order. -/
theorem groupingKeepsInsertionOrder : Obligations.GroupingKeepsInsertionOrder := by
  intro blocks name payload
  refine ⟨?_, fun other hother => ?_, fun hnone => ?_⟩
  · simp [groupings, List.filter_append]
  · simp [groupings, List.filter_append, hother.symm]
  · simpa [groupings, List.filter_eq_nil_iff] using hnone

end Sys2Proof.Spec
end

section
/-! SUPPORT. Errors (60_exceptions.md): every command but LOAD is guarded by the faulted-state refusal (R186), and an error is
taken from one state of the command, which for all but LOAD and those of LZD is the state it started in (R182, R184). -/

namespace Sys2Proof.Machine

open Sys2Proof.Spec

variable {p : Config.Params} {s base : State} {codes : List (BitVec 4)}

/-! ## The faulted block (R186) -/

/-- Every command but LOAD first looks at `ERR` (R150). -/
theorem exec_eq_ifReady {i : Instr} (hi : mnemonic i ∉ ["LOAD", "FLAGS", "LIT", "REF"]) :
    ∃ act, ∀ s, exec i s = ifReady s act := by
  cases i with
  | load | flags | lit | ref => simp [mnemonic] at hi
  | adopt | rdb | rda | rdu32 | rdstr | ska | skr | pkbits | pkbit | crcrd | crcvf | decomp | decompif =>
    exact ⟨_, fun _ => rfl⟩

/-! ## What an outcome raises, and in which state -/

/-- A next state is unfaulted, or it is `base` with an error taken whose code is among `codes`. -/
def RaisesFrom (base : State) (codes : List (BitVec 4)) : Outcome → Prop
  | .next t => t.err = 0 ∨ ∃ (e : Error) (a b : Nat), e.code ∈ codes ∧ t = base.enterError e a b
  | .fault _ => True
  | .refused _ => True

theorem raisesFrom_raise {e : Error} (he : e.code ∈ codes) (a b : Nat) (s : State) :
    RaisesFrom s codes (raise e a b s) := .inr ⟨e, a, b, he, rfl⟩

theorem raisesFrom_succeed (hready : s.err = 0) (r : Result) : RaisesFrom base codes (succeed r s) := .inl hready

theorem raisesFrom_ifReady (hready : s.err = 0) {act : State → Outcome} (h : RaisesFrom base codes (act s)) :
    RaisesFrom base codes (ifReady s act) := by
  rwa [ifReady_of_ready hready]

theorem raisesFrom_memRead {sp : Space} {a n : Nat} {act : List Byte → Outcome}
    (h : ∀ bytes, RaisesFrom base codes (act bytes)) : RaisesFrom base codes (memRead sp a n s act) := by
  rcases memRead_cases sp a n s act with ⟨bytes, -, e⟩ | e <;> rw [e]
  · exact h bytes
  · trivial

theorem raisesFrom_readExact (hcode : 3 ∈ codes) {k : Nat} {deliver : List Byte → State → Outcome}
    (h : ∀ bytes, RaisesFrom s codes (deliver bytes { s with pos := s.pos + k })) :
    RaisesFrom s codes (readExact k s deliver) := by
  rcases readExact_cases k s deliver with ⟨-, e⟩ | ⟨bytes, -, -, e⟩ | e <;> rw [e]
  · exact raisesFrom_raise hcode _ _ s
  · exact h bytes
  · trivial

theorem raisesFrom_seekTo (hready : s.err = 0) (target : Int) (operand : Nat) :
    RaisesFrom s [3] (seekTo target operand s) := by
  rcases seekTo_cases target operand s with ⟨-, e⟩ | ⟨n, -, -, e⟩ <;> rw [e]
  · exact raisesFrom_raise (by decide) _ _ s
  · exact .inl hready

/-! ## The commands that raise in the state they start in -/

theorem raisesFrom_adoptIn (hready : s.err = 0) : RaisesFrom s [7] (adoptIn p s) := by
  refine raisesFrom_ifReady hready ?_
  split
  · exact raisesFrom_raise (by decide) _ _ s
  · exact raisesFrom_memRead fun _ => .inl hready

theorem raisesFrom_execRdb (hready : s.err = 0) (k : Nat) : RaisesFrom s [3] (execRdb k s) :=
  raisesFrom_ifReady hready <| raisesFrom_readExact (by decide) fun _ => .inl hready

theorem raisesFrom_execRdu32 (hready : s.err = 0) : RaisesFrom s [3] (execRdu32 s) :=
  raisesFrom_ifReady hready <| raisesFrom_readExact (by decide) fun _ => .inl hready

theorem raisesFrom_rdstrIn (hready : s.err = 0) (w : Nat) : RaisesFrom s [3, 4] (rdstrIn p w s) := by
  refine raisesFrom_ifReady hready <| raisesFrom_readExact (by decide) fun field => ?_
  dsimp only
  split
  · exact .inl hready
  · exact raisesFrom_raise (by decide) _ _ s

theorem raisesFrom_crcrdIn (hready : s.err = 0) (k : Nat) : RaisesFrom s [3] (crcrdIn p k s) :=
  raisesFrom_ifReady hready <| raisesFrom_readExact (by decide) fun _ => .inl hready

theorem raisesFrom_execCrcvf (hready : s.err = 0) (x : Word) : RaisesFrom s [2] (execCrcvf x s) := by
  refine raisesFrom_ifReady hready ?_
  split
  · exact raisesFrom_succeed hready _
  · exact raisesFrom_raise (by decide) _ _ s

/-- The codes an instruction can raise: those of `raisable`, and `IllegalCommand` for a `PKBITS` with `lo > hi`, which no legal
word gives (R65). -/
def raisableCodes : Instr → List (BitVec 4)
  | .pkbits _ lo hi => if hi < lo then [6] else []
  | i => raisable i

theorem raisableCodes_of_wellFormed {i : Instr} (hi : i.wellFormedIn p = true) : raisableCodes i = raisable i := by
  cases i with
  | pkbits byte lo high =>
    have hle : lo ≤ high := of_decide_eq_true hi
    exact if_neg (BitVec.not_lt.mpr hle)
  | load | adopt | rdb | rda | rdu32 | rdstr | ska | skr | pkbit | crcrd | crcvf | decomp | decompif | flags | lit | ref => rfl

theorem raisesFrom_pkbitsIn (hready : s.err = 0) (byte : Byte) (lo hi : BitVec 3) :
    RaisesFrom s (raisableCodes (.pkbits byte lo hi)) (pkbitsIn p byte lo hi s) := by
  by_cases hlt : hi < lo
  · rw [pkbitsIn_of_lt hready hlt, raisableCodes, if_pos hlt]
    exact raisesFrom_raise (by decide) _ _ s
  · rw [pkbitsIn_of_le hready (BitVec.not_lt.mp hlt)]
    exact .inl hready

theorem exec_raisesFrom_start (hready : s.err = 0) {i : Instr}
    (hi : mnemonic i ∉ ["LOAD", "DECOMP", "DECOMPIF", "FLAGS", "LIT", "REF"]) :
    RaisesFrom s (raisableCodes i) (exec i s) := by
  cases i with
  | load | decomp | decompif | flags | lit | ref => simp [mnemonic] at hi
  | adopt => exact raisesFrom_adoptIn hready
  | rdb k => exact raisesFrom_execRdb hready k
  | rda n => exact raisesFrom_execRdb hready n
  | rdu32 => exact raisesFrom_execRdu32 hready
  | rdstr w => exact raisesFrom_rdstrIn hready w
  | ska t => exact raisesFrom_ifReady hready (raisesFrom_seekTo hready _ _)
  | skr a => exact raisesFrom_ifReady hready (raisesFrom_seekTo hready _ _)
  | pkbits byte lo high => exact raisesFrom_pkbitsIn hready byte lo high
  | pkbit byte k => exact raisesFrom_ifReady hready (.inl hready)
  | crcrd k => exact raisesFrom_crcrdIn hready k
  | crcvf x => exact raisesFrom_execCrcvf hready x

/-! ## LOAD and LZD, which raise in a state of their own -/

theorem raisesFrom_loadIn (data : List Byte) (s : State) :
    RaisesFrom (s.clearError.newInput p []) [7] (loadIn p data s) := by
  unfold loadIn
  split
  · exact raisesFrom_raise (by decide) _ _ _
  · exact raisesFrom_succeed rfl _

theorem raisesFrom_endOk (hready : s.err = 0) (kind : RunKind) : RaisesFrom base codes (endOk p kind s) := by
  cases kind <;> exact .inl hready

theorem raisesFrom_endOverflow (hcap : 7 ∈ codes) (s : State) :
    RaisesFrom (s.leaveRun p).emptyObuf codes (endOverflow p s) := raisesFrom_raise hcap _ _ _

/-- A failed run of DECOMPIF raises only when the input does not fit the output buffer (R123, R188). -/
theorem raisesFrom_endFail (hready : s.err = 0) (hcap : 7 ∈ codes) {kind : RunKind} (hfail : kind = .decomp → 5 ∈ codes)
    (cause : FailCause) (index : Nat) :
    RaisesFrom (s.leaveRun p).emptyObuf codes (endFail p kind cause index s) := by
  rcases endFail_cases p kind cause index s with ⟨hkind, e⟩ | ⟨-, -, e⟩ | ⟨input, -, -, -, e⟩ | e <;> rw [e]
  · exact raisesFrom_raise (hfail hkind) _ _ _
  · exact raisesFrom_raise hcap _ _ _
  · exact .inl hready
  · trivial

theorem raisesFrom_expandIn (hready : s.err = 0) (hcap : 7 ∈ codes) {kind : RunKind}
    (hfail : kind = .decomp → 5 ∈ codes) :
    RaisesFrom (s.leaveRun p).emptyObuf codes (expandIn p kind s) := by
  refine raisesFrom_ifReady hready <| raisesFrom_memRead fun input => ?_
  split
  · exact raisesFrom_endOk (s := s.setObuf _) hready kind
  · exact raisesFrom_endFail hready hcap hfail _ _
  · exact raisesFrom_endOverflow hcap s

theorem raisesFrom_inRun {act : RunKind → Outcome} (h : ∀ kind, RaisesFrom base codes (act kind)) :
    RaisesFrom base codes (inRun s act) := by
  unfold inRun
  split
  · exact h _
  · trivial

theorem raisesFrom_litIn (hready : s.err = 0) (b : Byte) : RaisesFrom (s.leaveRun p).emptyObuf [7] (litIn p b s) := by
  refine raisesFrom_inRun fun _ => ?_
  split
  · exact raisesFrom_endOverflow (by decide) s
  · exact .inl hready

/-- The copy raises, if it does, after the bytes that still fit. -/
theorem exists_raisesFrom_copyBytes (hready : s.err = 0) (hcap : 7 ∈ codes) (n : Nat) :
    ∃ base, RaisesFrom base codes (copyBytes p n s) := by
  induction n generalizing s with
  | zero => exact ⟨s, .inl hready⟩
  | succ n ih =>
    unfold copyBytes
    split
    · exact ⟨_, raisesFrom_endOverflow hcap s⟩
    · split
      · exact ⟨s, trivial⟩
      · exact ih hready

theorem exists_raisesFrom_refIn (hready : s.err = 0) (length distance : Nat) :
    ∃ base, RaisesFrom base [5, 7] (refIn p length distance s) := by
  have hfail (kind cause) : ∃ base, RaisesFrom base [5, 7] (endFail p kind cause s.src s) :=
    ⟨_, raisesFrom_endFail hready (by decide) (fun _ => by decide) cause s.src⟩
  unfold refIn inRun
  split
  · split
    · exact hfail _ _
    split
    · exact hfail _ _
    split
    · exact hfail _ _
    · exact exists_raisesFrom_copyBytes (s := { s with src := s.src + 2, clen := length, cdist := distance }) hready
        (by decide) length
  · exact ⟨s, trivial⟩

/-- Every instruction takes its error, if any, in one state, and with a code of its own. -/
theorem exec_raisesFrom (hready : s.err = 0) (i : Instr) : ∃ base, RaisesFrom base (raisableCodes i) (exec i s) := by
  cases i with
  | load data => exact ⟨_, raisesFrom_loadIn data s⟩
  | decomp => exact ⟨_, raisesFrom_expandIn hready (by decide) fun _ => by decide⟩
  | decompif => exact ⟨_, raisesFrom_expandIn hready (by decide) nofun⟩
  | flags f => exact ⟨s, raisesFrom_inRun fun _ => .inl hready⟩
  | lit b => exact ⟨_, raisesFrom_litIn hready b⟩
  | ref length distance => exact exists_raisesFrom_refIn hready length distance
  | adopt | rdb | rda | rdu32 | rdstr | ska | skr | pkbits | pkbit | crcrd | crcvf =>
    exact ⟨s, exec_raisesFrom_start hready (by simp [mnemonic])⟩

theorem enterError_eq_raised (e : Error) (a b : Nat) (s : State) :
    s.enterError e a b = raised s e.code (BitVec.ofNat 32 a).toNat (BitVec.ofNat 32 b).toNat := by
  simp only [raised, BitVec.ofNat_toNat, BitVec.setWidth_eq]
  rfl

end Sys2Proof.Machine

namespace Sys2Proof.Spec

open Sys2Proof.Machine

/-- Settles O19: every such command, and the answer to an illegal word, is guarded by `ERR`. -/
theorem faultedBlockRefusesAllButLoad : Obligations.FaultedBlockRefusesAllButLoad := by
  refine ⟨fun i s hfault hi => ?_, fun s word data rest hfault hrun hport hw hillegal => ?_⟩
  · obtain ⟨act, hact⟩ := exec_eq_ifReady hi
    rw [hact, ifReady_of_faulted hfault]
  · rw [step_of_illegalWord hrun hport hw hillegal, ifReady_of_faulted (s := { s with port := rest }) hfault]

/-- Settles O20: such a command raises in the state it started in. -/
theorem errorsChangeNothingElse : Obligations.ErrorsChangeNothingElse := by
  intro i s t hi hready ht hfault
  have h := exec_raisesFrom_start hready hi
  rw [ht] at h
  obtain ⟨e, a, b, -, rfl⟩ := h.resolve_left hfault
  exact enterError_eq_raised e a b s

/-- Settles O21: whatever the state an instruction raises in, the code it raises is one of its own. -/
theorem commandsRaiseOnlyTheirErrors : Obligations.CommandsRaiseOnlyTheirErrors := by
  intro i s t hi hready ht
  obtain ⟨base, h⟩ := exec_raisesFrom hready i
  rw [ht, raisableCodes_of_wellFormed hi] at h
  refine h.imp_right ?_
  rintro ⟨e, a, b, hcode, rfl⟩
  exact hcode

end Sys2Proof.Spec
end

section
/-! SUPPORT. Reset and hazards (70_reset_and_hazards.md): the state a reset leaves (R200), the block over the empty buffer (R201),
waiting; and the words of the test vectors and the stream elements outside a run (O1, O2, O3, O13, O17, O54). -/

namespace Sys2Proof

open Sys2Proof.Machine

/-- The encoding of a well-formed instruction decodes to it. -/
theorem decode_of_encode {e : Encoded} {i : Instr} (hi : i.wellFormedIn sdb = true) (he : encode i = e) : decode e = .ok i :=
  he ▸ decodeIn_encodeIn sdb_params_ok hi

end Sys2Proof

namespace Sys2Proof.Machine

open Sys2Proof.Spec

variable {s : State}

/-! ## What a reset leaves (R200) -/

theorem resetValues_reset : ResetValues State.reset :=
  ⟨rfl, rfl, rfl, rfl, rfl, rfl, rfl, rfl, rfl, rfl, fun _ => ⟨Memory.readByte_nil _, Memory.readByte_nil _⟩⟩

/-- Outside the transient registers, the port and the counter of free values, an asserted reset leaves what reset does. -/
theorem resetValues_assertReset (s : State) : ResetValues (assertReset sdb s) := resetValues_reset

theorem hostView_assertReset (s : State) : (assertReset sdb s).hostView = State.reset.hostView := rfl

/-- A step takes an asserted reset before anything else, from the port and in any state. -/
theorem step_eq_assertReset {rest : List HostInput} (h : s.port = .reset :: rest) :
    step s = .next (assertReset sdb { s with port := rest }) := step_of_reset h

/-! ## The block over the empty buffer (R201) -/

theorem filled_ibuf_reset : State.reset.ibuf.Filled State.reset.ilen := (State.resetIn_inv sdb).ibuf_filled

theorem filled_obuf_reset : State.reset.obuf.Filled State.reset.olen := (State.resetIn_inv sdb).obuf_filled

theorem execLoad_nil (s : State) : execLoad [] s = .next (s.afterLoad []) := execLoad_fits (Nat.zero_le _)

/-- A run of LZD over the empty buffer ends well, with no output. -/
theorem expandIn_reset (kind : RunKind) : expandIn sdb kind State.reset = endOk sdb kind State.reset := by
  rw [expandIn_eq_finish filled_ibuf_reset rfl]
  have hexpand : lzExpand sdb State.reset.input = .ok [] := (lzExpand_sdb _).trans lzLoop_nil
  rw [hexpand]
  rfl

theorem adoptIn_reset : adoptIn sdb State.reset = .next { State.reset with status := some (.ok .unit) } :=
  adoptIn_fits filled_obuf_reset rfl (Nat.zero_le _)

/-- A read of no bytes and a seek to 0 succeed over the empty buffer; so do the commands of LZD, ADOPT, and CRCVF of the
initial checksum. -/
theorem succeeds_reset : ∀ i ∈ [Instr.rdb 0, .rda 0, .rdstr 0, .ska 0, .skr 0, .crcrd 0, .adopt, .decomp, .decompif,
    .crcvf 0x04C11DB7], Succeeds i State.reset := by
  simp only [List.mem_cons, List.not_mem_nil, or_false, forall_eq_or_imp, forall_eq]
  refine ⟨?rdb, ?rda, ?rdstr, ?ska, ?skr, ?crcrd, ?adopt, ?decomp, ?decompif, ?crcvf⟩
  case rdb | rda => exact ⟨_, _, execRdb_fits filled_ibuf_reset rfl (Nat.le_refl 0), rfl, rfl⟩
  case rdstr => exact ⟨_, _, (rdstrIn_fits (k := 0) sdb filled_ibuf_reset rfl (Nat.le_refl 0) rfl).trans (if_pos rfl), rfl, rfl⟩
  case ska => exact ⟨_, _, execSka_inside rfl (Nat.le_refl 0), rfl, rfl⟩
  case skr => exact ⟨_, _, execSkr_inside (d := 0) (n := 0) rfl rfl (Nat.le_refl 0), rfl, rfl⟩
  case crcrd => exact ⟨_, _, crcrdIn_fits (k := 0) sdb filled_ibuf_reset rfl (Nat.le_refl 0), rfl, rfl⟩
  case adopt => exact ⟨_, _, adoptIn_reset, rfl, rfl⟩
  case decomp => exact ⟨_, _, expandIn_reset .decomp, rfl, rfl⟩
  case decompif => exact ⟨_, _, expandIn_reset .decompif, rfl, rfl⟩
  case crcvf => exact ⟨_, _, execCrcvf_of_eq rfl rfl, rfl, rfl⟩

theorem succeeds_pkbits (hready : s.err = 0) (byte : Byte) {lo hi : BitVec 3} (h : lo ≤ hi) :
    Succeeds (.pkbits byte lo hi) s :=
  ⟨_, _, pkbitsIn_of_le (p := sdb) hready h, rfl, hready⟩

theorem succeeds_pkbit (hready : s.err = 0) (byte : Byte) (k : BitVec 3) : Succeeds (.pkbit byte k) s :=
  ⟨_, _, pkbitIn_of_ready (p := sdb) hready, rfl, hready⟩

/-- Over the empty buffer every read of one or more bytes, and every seek to a target but 0, is short. -/
theorem exec_reset_short {k : Word} (hk : k ≠ 0) : ∀ i ∈ [Instr.rdb k.toNat, .rda k.toNat, .rdstr k.toNat, .crcrd k.toNat,
    .ska k.toNat, .skr k.toNat, .rdu32], ∃ a b, exec i State.reset = .next (State.reset.enterError .unexpectedEof a b) := by
  have hpos : 0 < k.toNat := k.toNat_pos.mpr (k.pos_iff_ne_zero.mpr hk)
  have hread : State.reset.ilen < State.reset.pos + k.toNat := hpos.trans_eq (Nat.zero_add _).symm
  have hseek : (State.reset.pos : Int) + k.toInt < 0 ∨ (State.reset.ilen : Int) < State.reset.pos + k.toInt := by
    have hne : k.toInt ≠ 0 := (BitVec.toInt_ne (y := 0)).mpr hk
    have htarget : (State.reset.pos : Int) + k.toInt = k.toInt := Int.zero_add _
    rw [htarget]
    exact hne.lt_or_gt
  simp only [List.mem_cons, List.not_mem_nil, or_false, forall_eq_or_imp, forall_eq]
  refine ⟨?rdb, ?rda, ?rdstr, ?crcrd, ?ska, ?skr, ?rdu32⟩
  case rdb | rda => exact ⟨_, _, execRdb_short rfl hread⟩
  case rdstr => exact ⟨_, _, rdstrIn_short sdb rfl hread⟩
  case crcrd => exact ⟨_, _, crcrdIn_short sdb rfl hread⟩
  case ska => exact ⟨_, _, execSka_outside rfl hpos⟩
  case skr => exact ⟨_, _, execSkr_outside rfl hseek⟩
  case rdu32 => exact ⟨_, _, execRdu32_short rfl (Nat.succ_pos 3)⟩

/-- ADOPT and the commands of LZD leave the empty buffers empty. -/
theorem exec_reset_buffers_empty : ∀ i ∈ [Instr.adopt, .decomp, .decompif], ∀ t, exec i State.reset = .next t →
    t.ilen = 0 ∧ t.olen = 0 := by
  simp only [List.mem_cons, List.not_mem_nil, or_false, forall_eq_or_imp, forall_eq]
  refine ⟨fun t ht => ?adopt, fun t ht => ?decomp, fun t ht => ?decompif⟩
  case adopt => cases adoptIn_reset.symm.trans ht; exact ⟨rfl, rfl⟩
  case decomp => cases (expandIn_reset .decomp).symm.trans ht; exact ⟨rfl, rfl⟩
  case decompif => cases (expandIn_reset .decompif).symm.trans ht; exact ⟨rfl, rfl⟩

end Sys2Proof.Machine

namespace Sys2Proof.Spec

open Sys2Proof.Machine

/-- Settles O1: an asserted reset and LOAD of no data, but for the registers it keeps, leave the values of the reset state. -/
theorem resetLeavesEmptyUnfaultedBlock : Obligations.ResetLeavesEmptyUnfaultedBlock :=
  ⟨resetValues_reset, rfl, fun _ _ h => ⟨_, step_eq_assertReset h, resetValues_assertReset _, rfl⟩,
    fun s => ⟨_, execLoad_nil s, resetValues_reset, rfl, rfl, rfl⟩⟩

/-- Settles O2: the step is the asserted reset, which the host cannot tell from the reset state. -/
theorem resetInputIsSeenAsReset : Obligations.ResetInputIsSeenAsReset :=
  fun _ _ h => ⟨_, step_eq_assertReset h, hostView_assertReset _, rfl⟩

/-- Settles O3: the reset state is ready and both its buffers are empty, so each command there is one case of its own rule. -/
theorem emptyBufferAfterReset : Obligations.EmptyBufferAfterReset := by
  refine ⟨⟨_, execLoad_nil _, rfl⟩, succeeds_reset, fun byte _ _ => succeeds_pkbits rfl byte, succeeds_pkbit rfl,
    exec_reset_buffers_empty, fun t ht => ?_, fun k i hk hi => ?_⟩
  · cases (expandIn_reset .decompif).symm.trans ht
    rfl
  · obtain ⟨a, b, he⟩ := exec_reset_short hk i hi
    exact ⟨_, he, rfl, rfl⟩

/-- Settles O13: with an empty port the step has no input, and without one the relation waits. -/
theorem blockWaitsForACommand : Obligations.BlockWaitsForACommand := fun s hrun hport =>
  (step_of_noInput (by simp [hport]) (.inl hport)).trans (stepIn_wait hrun sdb)

/-- Settles O17: each encoding is the one the encoder gives its instruction. -/
theorem writtenWordsDecode : Obligations.WrittenWordsDecode := by
  unfold Obligations.WrittenWordsDecode
  and_intros <;> exact decode_of_encode rfl rfl

/-- Settles O54: the three stream elements act inside a run alone. -/
theorem elementsOutsideARunAreRefused : Obligations.ElementsOutsideARunAreRefused := by
  intro i s hi hrun
  cases i with
  | flags | lit | ref => exact inRun_none hrun _
  | _ => simp [mnemonic] at hi

end Sys2Proof.Spec
end
